-- ==== Sys2Proof/Word.lean ====
section
/-!
DEFINITION. The plain types of LZWC: command words, bytes, bit queues and byte sequences (spec 00_scope.md R12
to R14). A code, a width, a size and a count are naturals (R14).
-/

namespace Sys2Proof

/-- A 32-bit word: a command word (R90) or a register of the read port (R50). -/
abbrev Word := BitVec 32

/-- One byte of a byte port or of a byte sequence. -/
abbrev Byte := BitVec 8

/-- A byte sequence (R13, type `Seq`): `s[0]` is its first byte. -/
abbrev Seq := List Byte

/-- A bit queue (R13): index 0 is the front, the next bit to emit or consume. -/
abbrev Bits := List Bool

end Sys2Proof
end

