-- ==== Sys2Proof/Syntax.lean ====
section
/-!
DEFINITION. The eleven commands of LZWC (spec 30_encoding.md R97), one constructor per row of
opcode_table.json. A byte operand is a byte; a width, a value and a code are unsigned naturals (R95)
whose ranges `Instr.WellFormed` checks.
-/

namespace Sys2Proof

/-- R91: the side a command belongs to. -/
inductive Side where
  | encode
  | decode
  deriving DecidableEq, Repr

/-- R97: the commands. -/
inductive Instr where
  | encInit
  | encByte (b : Byte)
  | encEnd
  | pkPut (w v : Nat)
  | pkFlush
  | decInit
  | decByte (b : Byte)
  | decEnd
  | upPut (b : Byte)
  | upGet (w : Nat)
  | decCode (c : Nat)
  deriving DecidableEq, Repr

/-- R97, column "side". -/
def Instr.side : Instr → Side
  | .encInit => .encode
  | .encByte _ => .encode
  | .encEnd => .encode
  | .pkPut _ _ => .encode
  | .pkFlush => .encode
  | .decInit => .decode
  | .decByte _ => .decode
  | .decEnd => .decode
  | .upPut _ => .decode
  | .upGet _ => .decode
  | .decCode _ => .decode

end Sys2Proof
end

