-- ==== Sys2Proof/WellFormed.lean ====
section
/-!
DEFINITION. Which commands have a command word: the operand ranges of spec 30_encoding.md R93, R94
and R101 ("An operand out of range is an assembly error, not a command").
-/

namespace Sys2Proof

/-- R93: W is a 5-bit width, 0..31. -/
abbrev widthInRange (w : Nat) : Prop := w < 2 ^ 5

/-- R94: IMM is a 16-bit value or code, 0..65535. -/
abbrev imm16InRange (v : Nat) : Prop := v < 2 ^ 16

/-- The ranges of every operand. A byte operand is in range by its type. -/
abbrev Instr.WellFormed : Instr → Prop
  | .encInit => True
  | .encByte _ => True
  | .encEnd => True
  | .pkPut w v => widthInRange w ∧ imm16InRange v
  | .pkFlush => True
  | .decInit => True
  | .decByte _ => True
  | .decEnd => True
  | .upPut _ => True
  | .upGet w => widthInRange w
  | .decCode c => imm16InRange c

/-- The same check as a Bool. -/
def Instr.wellFormedB : Instr → Bool
  | .encInit => true
  | .encByte _ => true
  | .encEnd => true
  | .pkPut w v => decide (widthInRange w) && decide (imm16InRange v)
  | .pkFlush => true
  | .decInit => true
  | .decByte _ => true
  | .decEnd => true
  | .upPut _ => true
  | .upGet w => decide (widthInRange w)
  | .decCode c => decide (imm16InRange c)

end Sys2Proof
end

