-- ==== Sys2Proof/Decode.lean ====
section
/-!
DEFINITION. The command encoding (spec 30_encoding.md R90 to R100): the fields of a word, the
decoder, total on every word and rejecting by name, the encoder, and the opcode map as rows of a
match and a mask (R97).
-/

namespace Sys2Proof

/-! ## Fields of a command word (R90, R95) -/

/-- OP, bits [31:28]. -/
def fieldOp (cw : Word) : Nat := (cw.extractLsb' 28 4).toNat

/-- RSV, bits [27:21]. -/
def fieldRsv (cw : Word) : Nat := (cw.extractLsb' 21 7).toNat

/-- W, bits [20:16]. -/
def fieldW (cw : Word) : Nat := (cw.extractLsb' 16 5).toNat

/-- IMM, bits [15:0] (`imm16`). -/
def fieldImm (cw : Word) : Nat := (cw.extractLsb' 0 16).toNat

/-- IMM[15:8], which must be 0 where the operand is a byte (R94). -/
def fieldImmHigh (cw : Word) : Nat := (cw.extractLsb' 8 8).toNat

/-- IMM[7:0] (`imm8`). -/
def fieldByte (cw : Word) : Byte := cw.extractLsb' 0 8

/-- R91: word bit 31 names the side a word, legal or not, is charged to. -/
def sideOfWord (cw : Word) : Side := if cw.getLsbD 31 then .decode else .encode

/-! ## Decoder -/

/-- Why a word is illegal: the items of R96. -/
inductive IllegalWord where
  /-- item 1: OP is reserved (R99) -/
  | reservedOpcode
  /-- item 2: RSV is not 0 -/
  | rsvNotZero
  /-- item 3: W is not 0 in a command without a width -/
  | widthNotZero
  /-- item 4: IMM is not 0 in a command without an immediate -/
  | immNotZero
  /-- item 5: IMM[15:8] is not 0 in a command with a byte operand -/
  | immHighNotZero
  deriving DecidableEq, Repr

/-- A command without operands: RSV, W and IMM are 0. -/
def decodeBare (cw : Word) (i : Instr) : Except IllegalWord Instr :=
  if fieldRsv cw ≠ 0 then .error .rsvNotZero
  else if fieldW cw ≠ 0 then .error .widthNotZero
  else if fieldImm cw ≠ 0 then .error .immNotZero
  else .ok i

/-- A command with a byte operand: RSV, W and IMM[15:8] are 0. -/
def decodeWithByte (cw : Word) (f : Byte → Instr) : Except IllegalWord Instr :=
  if fieldRsv cw ≠ 0 then .error .rsvNotZero
  else if fieldW cw ≠ 0 then .error .widthNotZero
  else if fieldImmHigh cw ≠ 0 then .error .immHighNotZero
  else .ok (f (fieldByte cw))

/-- PK_PUT: RSV is 0; the operands are W and IMM. -/
def decodeWithWidthAndValue (cw : Word) (f : Nat → Nat → Instr) : Except IllegalWord Instr :=
  if fieldRsv cw ≠ 0 then .error .rsvNotZero
  else .ok (f (fieldW cw) (fieldImm cw))

/-- UP_GET: RSV and IMM are 0; the operand is W. -/
def decodeWithWidth (cw : Word) (f : Nat → Instr) : Except IllegalWord Instr :=
  if fieldRsv cw ≠ 0 then .error .rsvNotZero
  else if fieldImm cw ≠ 0 then .error .immNotZero
  else .ok (f (fieldW cw))

/-- DEC_CODE: RSV and W are 0; the operand is IMM. -/
def decodeWithCode (cw : Word) (f : Nat → Instr) : Except IllegalWord Instr :=
  if fieldRsv cw ≠ 0 then .error .rsvNotZero
  else if fieldW cw ≠ 0 then .error .widthNotZero
  else .ok (f (fieldImm cw))

/-- R96, R97: the command a word names, or why it is illegal. -/
def decode (cw : Word) : Except IllegalWord Instr :=
  match fieldOp cw with
  | 0x1 => decodeBare cw .encInit
  | 0x2 => decodeWithByte cw .encByte
  | 0x3 => decodeBare cw .encEnd
  | 0x4 => decodeWithWidthAndValue cw .pkPut
  | 0x5 => decodeBare cw .pkFlush
  | 0x9 => decodeBare cw .decInit
  | 0xA => decodeWithByte cw .decByte
  | 0xB => decodeBare cw .decEnd
  | 0xC => decodeWithByte cw .upPut
  | 0xD => decodeWithWidth cw .upGet
  | 0xE => decodeWithCode cw .decCode
  | _ => .error .reservedOpcode

/-- The instruction the decoder reads from a table word of `nbits` bits (bit 0 is the least
significant bit; every bit above `nbits` is 0). A word that is not 32 bits or fewer is none (R100). -/
def decodeTableWord (nbits w : Nat) : Option Instr :=
  if nbits ≤ 32 then
    match decode (BitVec.ofNat 32 (w % 2 ^ nbits)) with
    | .ok i => some i
    | .error _ => none
  else none

/-! ## Encoder -/

/-- Format CMD (R90) with RSV = 0. -/
def commandWord (op w imm : Nat) : Word :=
  BitVec.ofNat 4 op ++ 0#7 ++ BitVec.ofNat 5 w ++ BitVec.ofNat 16 imm

/-- R97, column "OP". -/
def Instr.opcode : Instr → Nat
  | .encInit => 0x1
  | .encByte _ => 0x2
  | .encEnd => 0x3
  | .pkPut _ _ => 0x4
  | .pkFlush => 0x5
  | .decInit => 0x9
  | .decByte _ => 0xA
  | .decEnd => 0xB
  | .upPut _ => 0xC
  | .upGet _ => 0xD
  | .decCode _ => 0xE

/-- R98: the word of a well-formed command. -/
def encode (i : Instr) : Word :=
  match i with
  | .encInit => commandWord i.opcode 0 0
  | .encByte b => commandWord i.opcode 0 b.toNat
  | .encEnd => commandWord i.opcode 0 0
  | .pkPut w v => commandWord i.opcode w v
  | .pkFlush => commandWord i.opcode 0 0
  | .decInit => commandWord i.opcode 0 0
  | .decByte b => commandWord i.opcode 0 b.toNat
  | .decEnd => commandWord i.opcode 0 0
  | .upPut b => commandWord i.opcode 0 b.toNat
  | .upGet w => commandWord i.opcode w 0
  | .decCode c => commandWord i.opcode 0 c

/-! ## The opcode map as a table -/

/-- One row of R97: a word is this row's exactly when `cw &&& mask = pattern`. -/
structure OpcodeRow where
  pattern : Word
  mask : Word
  deriving DecidableEq, Repr

/-- R97, columns "match" and "mask". -/
def opcodeRows : List OpcodeRow := [
  ⟨0x10000000#32, 0xFFFFFFFF#32⟩,   -- ENC_INIT
  ⟨0x20000000#32, 0xFFFFFF00#32⟩,   -- ENC_BYTE
  ⟨0x30000000#32, 0xFFFFFFFF#32⟩,   -- ENC_END
  ⟨0x40000000#32, 0xFFE00000#32⟩,   -- PK_PUT
  ⟨0x50000000#32, 0xFFFFFFFF#32⟩,   -- PK_FLUSH
  ⟨0x90000000#32, 0xFFFFFFFF#32⟩,   -- DEC_INIT
  ⟨0xA0000000#32, 0xFFFFFF00#32⟩,   -- DEC_BYTE
  ⟨0xB0000000#32, 0xFFFFFFFF#32⟩,   -- DEC_END
  ⟨0xC0000000#32, 0xFFFFFF00#32⟩,   -- UP_PUT
  ⟨0xD0000000#32, 0xFFE0FFFF#32⟩,   -- UP_GET
  ⟨0xE0000000#32, 0xFFFF0000#32⟩]   -- DEC_CODE

end Sys2Proof
end

