-- ==== Sys2Proof/Config.lean ====
section
/-!
DEFINITION. The fixed numbers of LZWC (spec 00_scope.md, section 3) and the value that
`State.reset` gives the open parameter MAX_WIDTH.
-/

namespace Sys2Proof

/-- R7: codes 0..255 are the single bytes; the first learned code is 256. -/
def Config.alphabet : Nat := 256

/-- R8: both sides start each session at code width 9. -/
def Config.initialWidth : Nat := 9

/-- R10: the unpacker queue holds at most 32 bits. -/
def Config.upQueueCapacity : Nat := 32

/-- DESIGN CHOICE (log 1): the MAX_WIDTH of `State.reset`. The spec leaves it open
between 9 and 16 (R9, D8; `Inv` in Safety.lean states the range); 16 is
the value the test vectors of 95_test_vectors.md assume. Every other value is reached by
`State.resetWith`, and no statement about all states rests on 16. -/
def Config.maxWidthAtReset : Nat := 16

end Sys2Proof
end

