-- ==== Sys2Proof/Machine/State.lean ====
section
/-!
DEFINITION. The state of LZWC (spec 10_state.md R30 to R49), the reasons a step of the model can
stop, and the state after reset (70_reset_and_hazards.md R270, R271). Plain data throughout.
-/

namespace Sys2Proof.Machine

/-- R31: a session phase. The encoding 3 is never held, so it has no constructor. -/
inductive Phase where
  | idle
  | active
  | failed
  deriving DecidableEq, Repr

/-- R241: the errors a command can raise (codes 1 to 9). Codes 10 to 15 are never recorded. -/
inductive ErrCode where
  | illegal
  | notActive
  | emptyInput
  | widthOverflow
  | format
  | truncated
  | capacity
  | underflow
  | queueFull
  deriving DecidableEq, Repr

/-- A finite partial map with natural keys, in one canonical form: keys strictly rising. Reading and
writing are in Machine/Storage.lean. -/
abbrev NatMap (α : Type) := List (Nat × α)

/-- R36: the learned entries of TRIE. `Child(c, b) = n` is the entry (childKey c b, n). -/
abbrev Trie := NatMap Nat

/-- R43: the learned entries of the code table: `T[c] = s` is the entry (c, s). -/
abbrev CodeTable := NatMap Seq

/-- R30: the encode side, with its output port OUT_E. -/
structure EncSide where
  /-- E.PHASE (R31) -/
  phase : Phase
  /-- E.ERR (R32): none is 0 -/
  err : Option ErrCode
  /-- E.WIDTH (R33) -/
  width : Nat
  /-- E.NEXT (R34) -/
  next : Nat
  /-- E.CUR (R35) -/
  cur : Option Nat
  /-- TRIE (R36), the learned entries -/
  trie : Trie
  /-- PK.Q (R37) -/
  pkq : Bits
  /-- OUT_E (R38): the bytes delivered since reset -/
  out : Seq
  /-- the model's own field (log 3): the bytes delivered before the last reset, which stay delivered (R270) -/
  earlier : Seq
  deriving DecidableEq, Repr

/-- R30: the decode side, with its output port OUT_D. -/
structure DecSide where
  /-- D.PHASE (R31) -/
  phase : Phase
  /-- D.ERR (R32): none is 0 -/
  err : Option ErrCode
  /-- D.WIDTH (R39) -/
  width : Nat
  /-- D.SIZE (R40) -/
  size : Nat
  /-- D.PREV (R41) -/
  prev : Option Nat
  /-- D.SEEN (R42) -/
  seen : Bool
  /-- T (R43), the learned entries -/
  table : CodeTable
  /-- UP.Q (R46) -/
  upq : Bits
  /-- UP.RESP (R47) -/
  resp : Word
  /-- OUT_D (R48): the bytes delivered since reset -/
  out : Seq
  /-- the model's own field (log 3): the bytes delivered before the last reset, which stay delivered (R270) -/
  earlier : Seq
  deriving DecidableEq, Repr

/-- What the host does to the block, one at a time (R90, R270). -/
inductive HostInput where
  /-- the host writes a command word to the command port -/
  | command (cw : Word)
  /-- the host applies reset, between commands -/
  | reset
  deriving DecidableEq, Repr

/-- The whole machine. -/
structure State where
  enc : EncSide
  dec : DecSide
  /-- MAX_WIDTH (R9, R49): a constant of the instance, changed by no step (log 1) -/
  maxWidth : Nat
  /-- the model's own field (log 2): what the host has still to do, in order -/
  port : List HostInput
  deriving DecidableEq, Repr

/-- Why the model stops. Neither is an error of LZWC: an error (R240) is a next state. -/
inductive Fault where
  /-- Raised by decoding a code (DEC_CODE, DEC_BYTE) when T has no entry, or an empty one, for a code
  below D.SIZE. R43 and R45 say it never happens; only a state no run reaches can do it. Safe. -/
  | tableHole
  /-- Raised by DEC_BYTE when its loop cannot end because D.WIDTH is 0, which R39 excludes; only a
  state no run reaches can do it. Safe. -/
  | endlessLoop
  deriving DecidableEq, Repr

/-- Why an instruction has no meaning. -/
inductive Refusal where
  /-- An arm of `exec` that has no meaning yet. No arm is left in this model. Safe. -/
  | notModelled (mnemonic : String)
  deriving DecidableEq, Repr

/-- R270: the encode side after reset. -/
def EncSide.reset : EncSide where
  phase := .idle
  err := none
  width := Config.initialWidth
  next := Config.alphabet
  cur := none
  trie := []
  pkq := []
  out := []
  earlier := []

/-- R270: the decode side after reset. -/
def DecSide.reset : DecSide where
  phase := .idle
  err := none
  width := Config.initialWidth
  size := Config.alphabet
  prev := none
  seen := false
  table := []
  upq := []
  resp := 0#32
  out := []
  earlier := []

/-- R270: an instance with the given MAX_WIDTH right after reset; nothing has been delivered and the
host has nothing issued. -/
def State.resetWith (maxWidth : Nat) : State where
  enc := EncSide.reset
  dec := DecSide.reset
  maxWidth := maxWidth
  port := []

/-- The machine right after reset (log 1 names its MAX_WIDTH). -/
def State.reset : State := State.resetWith Config.maxWidthAtReset

end Sys2Proof.Machine
end

