-- ==== Sys2Proof/Machine/Flags.lean ====
section
/-!
DEFINITION. The status fields that play the part of flags (spec 10_state.md R64): PHASE (R31), ERR
(R32, R241), SEEN (R42) and the VALID bits (R55, R60), as the bits the read port shows; and the two
width growth tests (R184, R212).
-/

namespace Sys2Proof.Machine

/-- R31: IDLE 0, ACTIVE 1, FAILED 2. -/
def phaseBits : Phase → BitVec 2
  | .idle => 0#2
  | .active => 1#2
  | .failed => 2#2

/-- R241: the error codes. -/
def errCodeBits : ErrCode → BitVec 4
  | .illegal => 1#4
  | .notActive => 2#4
  | .emptyInput => 3#4
  | .widthOverflow => 4#4
  | .format => 5#4
  | .truncated => 6#4
  | .capacity => 7#4
  | .underflow => 8#4
  | .queueFull => 9#4

/-- R32: an ERR field; 0 is no error. -/
def errBits : Option ErrCode → BitVec 4
  | none => 0#4
  | some e => errCodeBits e

/-- R42: D.SEEN as one bit. -/
def seenBit (b : Bool) : BitVec 1 := BitVec.ofBool b

/-- R55, R60: VALID in bit 16 and the code in bits [15:0]; all 0 when there is no code. -/
def validAndCode : Option Nat → BitVec 17
  | none => 0#17
  | some c => 1#1 ++ BitVec.ofNat 16 c

/-- R184: the width after EncGrow, for dictionary size `n` and width `w`. -/
def encGrownWidth (n w : Nat) : Nat := if n = 2 ^ w then w + 1 else w

/-- R212: the width after DecGrow, for table size `n` and width `w`. -/
def decGrownWidth (n w : Nat) : Nat := if n = 2 ^ w - 1 then w + 1 else w

end Sys2Proof.Machine
end

