-- ==== Sys2Proof/Machine/Operands.lean ====
section
/-!
DEFINITION. Operand values as bit lists, most significant bit first, and back (spec 00_scope.md R13,
R15; 20_memory.md R74, R75; 41_bit_channel.md R150).
-/

namespace Sys2Proof.Machine

/-- R15: `bits_w(v)`, the bits `v[w-1], ..., v[0]`. -/
def bitsOf : Nat → Nat → Bits
  | 0, _ => []
  | w + 1, v => v.testBit w :: bitsOf w v

/-- R15: `val(q)`, the unsigned integer whose binary digits, most significant first, are `q`. -/
def valOf (q : Bits) : Nat := q.foldl (fun acc b => 2 * acc + b.toNat) 0

/-- R75: a byte as a bit list: its first bit is bit 7. -/
def byteBits (b : Byte) : Bits := bitsOf 8 b.toNat

/-- The byte whose bit list is `q` (8 bits). -/
def byteOfBits (q : Bits) : Byte := BitVec.ofNat 8 (valOf q)

/-- R150: `Bits(v, w)`, which fails when the value does not fit. -/
def encodeBits (v w : Nat) : Except ErrCode Bits :=
  if 2 ^ w ≤ v then .error .widthOverflow else .ok (bitsOf w v)

/-- A queue left-aligned in `n` bits: bit `n - 1 - i` is `q[i]`, the others 0 (R56, R62). -/
def leftAligned (n : Nat) (q : Bits) : BitVec n :=
  BitVec.ofNat n (valOf ((q ++ List.replicate n false).take n))

end Sys2Proof.Machine
end

