-- ==== Sys2Proof/Machine/Storage.lean ====
section
/-!
DEFINITION. Reading and writing the block's internal storage: finite maps in canonical form, the
child map of TRIE (spec 10_state.md R36) and the code table T (R43).
-/

namespace Sys2Proof.Machine

/-- The value at a key; none where the map is undefined. -/
def natMapGet {α : Type} : NatMap α → Nat → Option α
  | [], _ => none
  | (k, v) :: m, q => if k = q then some v else natMapGet m q

/-- Write a value at a key, keeping the keys strictly rising. -/
def natMapPut {α : Type} : NatMap α → Nat → α → NatMap α
  | [], q, x => [(q, x)]
  | (k, v) :: m, q, x =>
    if q < k then (q, x) :: (k, v) :: m
    else if q = k then (q, x) :: m
    else (k, v) :: natMapPut m q x

/-- The canonical form: keys strictly rising. -/
abbrev NatMapCanonical {α : Type} (m : NatMap α) : Prop := (m.map Prod.fst).Pairwise (· < ·)

/-! ## TRIE -/

/-- R36: a node is ROOT, which has no code, or a code. -/
inductive Node where
  | root
  | code (c : Nat)
  deriving DecidableEq, Repr

/-- The key under which TRIE holds `Child(c, b)`. -/
def childKey (c : Nat) (b : Byte) : Nat := c * 256 + b.toNat

/-- The code of a child key. -/
def keyParent (k : Nat) : Nat := k / 256

/-- The byte of a child key. -/
def keyByte (k : Nat) : Byte := BitVec.ofNat 8 k

/-- R36: `Child(p, b)`; the root's 256 children are fixed. -/
def child (t : Trie) (p : Node) (b : Byte) : Option Nat :=
  match p with
  | .root => some b.toNat
  | .code c => natMapGet t (childKey c b)

/-- R36: `Child(c, b) <- n`. -/
def setChild (t : Trie) (c : Nat) (b : Byte) (n : Nat) : Trie := natMapPut t (childKey c b) n

/-- The entry that names a learned code: its parent and its byte. -/
def parentOf : Trie → Nat → Option (Nat × Byte)
  | [], _ => none
  | (k, n) :: t, c => if n = c then some (keyParent k, keyByte k) else parentOf t c

/-- `Path(c)`, following at most `fuel` links. -/
def pathWithin : Nat → Trie → Nat → Option Seq
  | 0, _, _ => none
  | fuel + 1, t, c =>
    if c < Config.alphabet then some [BitVec.ofNat 8 c]
    else
      match parentOf t c with
      | none => none
      | some (p, b) =>
        match pathWithin fuel t p with
        | none => none
        | some s => some (s ++ [b])

/-- R36: `Path(c)`, the bytes on the way from ROOT to `c`. A parent's code is below its child's, so
`c + 1` links suffice. -/
def path (t : Trie) (c : Nat) : Option Seq := pathWithin (c + 1) t c

/-! ## Code table -/

/-- R43, R45: `T[c]`; the 256 seed entries are fixed. -/
def tableAt (t : CodeTable) (c : Nat) : Option Seq :=
  if c < Config.alphabet then some [BitVec.ofNat 8 c] else natMapGet t c

/-- R45: `T[c] <- s`. -/
def setTable (t : CodeTable) (c : Nat) (s : Seq) : CodeTable := natMapPut t c s

end Sys2Proof.Machine
end

