-- ==== Sys2Proof/Machine/Ops.lean ====
section
/-!
DEFINITION. The shared operations of the commands: error entry and what leaves FAILED (spec
60_exceptions.md R243 to R245), the dispatch checks (R242), running a command's pseudocode on its
side, and reset (70_reset_and_hazards.md R270).
-/

namespace Sys2Proof.Machine

/-- How a command's pseudocode ends early: with an error (R240), or with a stop of the model. -/
inductive Stop where
  | error (e : ErrCode)
  | fault (f : Fault)
  deriving DecidableEq, Repr

/-- A command's pseudocode over one side: the side's new state, or how it ended early. -/
abbrev Cmd (side : Type) := Except Stop side

/-- `raise <CODE>` (R16). -/
def raise {side : Type} (e : ErrCode) : Cmd side := .error (.error e)

/-- A stop of the model. -/
def stop {side : Type} (f : Fault) : Cmd side := .error (.fault f)

/-! ## Error entry -/

/-- R243: TAKING AN ERROR. The named side keeps its state from before the command except PHASE and
ERR; the other side is untouched (R240). `s` is the state before the command. -/
def takeError (side : Side) (e : ErrCode) (s : State) : State :=
  match side with
  | .encode => { s with enc := { s.enc with phase := .failed, err := some e } }
  | .decode => { s with dec := { s.dec with phase := .failed, err := some e } }

/-! ## The seed: what reset and the INITs leave (R270, R271, R181, R210) -/

/-- The encode side with its dictionary seeded (R121), its error cleared and its queue empty, in the
given phase; the delivered bytes stay delivered. This is also the way out of FAILED (R245). -/
def seedEnc (phase : Phase) (e : EncSide) : EncSide where
  phase := phase
  err := none
  width := Config.initialWidth
  next := Config.alphabet
  cur := none
  trie := []
  pkq := []
  out := e.out
  earlier := e.earlier

/-- The decode side likewise (R128). UP.RESP is given: reset clears it, DEC_INIT keeps it. -/
def seedDec (phase : Phase) (resp : Word) (d : DecSide) : DecSide where
  phase := phase
  err := none
  width := Config.initialWidth
  size := Config.alphabet
  prev := none
  seen := false
  table := []
  upq := []
  resp := resp
  out := d.out
  earlier := d.earlier

/-- R270, R38: OUT_E counts from reset, so it becomes empty; its bytes stay delivered (log 3). -/
def restartOutE (e : EncSide) : EncSide := { e with out := [], earlier := e.earlier ++ e.out }

/-- R270, R48: OUT_D likewise. -/
def restartOutD (d : DecSide) : DecSide := { d with out := [], earlier := d.earlier ++ d.out }

/-- R270: reset applied to a running block: every register, queue, dictionary and port list at its reset
value, and the bytes delivered so far stay delivered. -/
def applyReset (s : State) : State :=
  { s with enc := seedEnc .idle (restartOutE s.enc), dec := seedDec .idle 0#32 (restartOutD s.dec) }

/-! ## Dispatch -/

/-- R97, column "needs". -/
inductive Needs where
  | anyPhase
  | idleOrActive
  | active
  deriving DecidableEq, Repr

/-- What the dispatch decides before a command's pseudocode runs. -/
inductive Gate where
  | run
  | ignored
  | refused (e : ErrCode)
  deriving DecidableEq, Repr

/-- R242: the checks of a legal command, in their order. -/
def gate (needs : Needs) (p : Phase) : Gate :=
  match needs with
  | .anyPhase => .run
  | .idleOrActive =>
    match p with
    | .failed => .ignored
    | .idle => .run
    | .active => .run
  | .active =>
    match p with
    | .failed => .ignored
    | .idle => .refused .notActive
    | .active => .run

/-- R242: dispatch a legal encode-side command with pseudocode `body`. -/
def runEnc (needs : Needs) (body : EncSide → Cmd EncSide) (s : State) :
    Host.Outcome State Fault Refusal :=
  match gate needs s.enc.phase with
  | .ignored => .next s
  | .refused e => .next (takeError .encode e s)
  | .run =>
    match body s.enc with
    | .ok e => .next { s with enc := e }
    | .error (.error c) => .next (takeError .encode c s)
    | .error (.fault f) => .fault f

/-- R242: dispatch a legal decode-side command with pseudocode `body`. -/
def runDec (needs : Needs) (body : DecSide → Cmd DecSide) (s : State) :
    Host.Outcome State Fault Refusal :=
  match gate needs s.dec.phase with
  | .ignored => .next s
  | .refused e => .next (takeError .decode e s)
  | .run =>
    match body s.dec with
    | .ok d => .next { s with dec := d }
    | .error (.error c) => .next (takeError .decode c s)
    | .error (.fault f) => .fault f

/-- The phase of a side. -/
def phaseOf (side : Side) (s : State) : Phase :=
  match side with
  | .encode => s.enc.phase
  | .decode => s.dec.phase

/-- R242, R244: an illegal word raises ILLEGAL on its side, and is ignored when the side is FAILED. -/
def execIllegal (side : Side) (s : State) : Host.Outcome State Fault Refusal :=
  match phaseOf side s with
  | .failed => .next s
  | .idle => .next (takeError side .illegal s)
  | .active => .next (takeError side .illegal s)

end Sys2Proof.Machine
end

