-- ==== Sys2Proof/Machine/BitChannel.lean ====
section
/-!
DEFINITION. The bit packer BP and the bit unpacker BU (spec 41_bit_channel.md): the primitives of
section 1 and the commands PK_PUT, PK_FLUSH, UP_PUT and UP_GET.
-/

namespace Sys2Proof.Machine

/-! ## Packer primitives -/

/-- R152, the loop: at most `fuel` groups of 8 bits move from the front of the queue to the output. -/
def drainLoop : Nat → Bits → Seq → Bits × Seq
  | 0, q, out => (q, out)
  | fuel + 1, q, out =>
    if 8 ≤ q.length then drainLoop fuel (q.drop 8) (out ++ [byteOfBits (q.take 8)]) else (q, out)

/-- R152: `Drain()`. A queue holds fewer groups than bits, so its length is fuel enough. -/
def drain (e : EncSide) : EncSide :=
  let (q, out) := drainLoop e.pkq.length e.pkq e.out
  { e with pkq := q, out := out }

/-- R151: `PackBits(v, w)`. -/
def packBits (v w : Nat) (e : EncSide) : Cmd EncSide :=
  match encodeBits v w with
  | .error c => raise c
  | .ok bits => .ok (drain { e with pkq := e.pkq ++ bits })

/-- R153: `PackFlush()`: zero bits complete the last byte. -/
def packFlush (e : EncSide) : EncSide :=
  if 0 < e.pkq.length then
    drain { e with pkq := e.pkq ++ List.replicate (8 - e.pkq.length) false }
  else e

/-! ## Unpacker primitives -/

/-- R154: `UpPush(b)`. -/
def upPush (b : Byte) (d : DecSide) : Cmd DecSide :=
  if Config.upQueueCapacity < d.upq.length + 8 then raise .queueFull
  else .ok { d with upq := d.upq ++ byteBits b }

/-- R155: `UpPop(w)`: the value and the side with the bits removed. -/
def upPop (w : Nat) (d : DecSide) : Cmd (Nat × DecSide) :=
  if d.upq.length < w then raise .underflow
  else .ok (valOf (d.upq.take w), { d with upq := d.upq.drop w })

/-! ## Commands -/

/-- R156: PK_PUT. -/
def execPkPut (w v : Nat) (s : State) : Host.Outcome State Fault Refusal :=
  runEnc .idleOrActive (packBits v w) s

/-- R157: PK_FLUSH. -/
def execPkFlush (s : State) : Host.Outcome State Fault Refusal :=
  runEnc .idleOrActive (fun e => .ok (packFlush e)) s

/-- R158: UP_PUT. -/
def execUpPut (b : Byte) (s : State) : Host.Outcome State Fault Refusal :=
  runDec .idleOrActive (upPush b) s

/-- R159, the pseudocode: `UP.RESP <- UpPop(w)`. -/
def upGetBody (w : Nat) (d : DecSide) : Cmd DecSide :=
  match upPop w d with
  | .error x => .error x
  | .ok (r, d') => .ok { d' with resp := BitVec.ofNat 32 r }

/-- R159: UP_GET. -/
def execUpGet (w : Nat) (s : State) : Host.Outcome State Fault Refusal :=
  runDec .idleOrActive (upGetBody w) s

end Sys2Proof.Machine
end

