-- ==== Sys2Proof/Machine/Dictionary.lean ====
section
/-!
DEFINITION. The dictionary reference functions (spec 40_dictionaries.md R120 to R132). They are not
commands; the commands use the single steps they are made of (`child`, `insertChild`, `lookup`,
`append`, `firstByte`).
-/

namespace Sys2Proof.Machine

/-- How a reference function fails. None of these is an error code of LZWC (R132). -/
inductive DictFailure where
  /-- ArgumentError: the empty sequence (R123) -/
  | argument
  /-- LookupError: not a complete terminal match (R124) -/
  | lookup
  /-- Add outside the case the arena represents, which "a model refuses" (R126) -/
  | outsideArena
  deriving DecidableEq, Repr

/-! ## Prefix Dictionary -/

/-- R122, the loop, from a node with `i` bytes consumed. -/
def longestPrefixFrom (t : Trie) (node : Node) (i : Nat) : Seq → Node × Nat
  | [] => (node, i)
  | b :: s =>
    match child t node b with
    | none => (node, i)
    | some c => longestPrefixFrom t (.code c) (i + 1) s

/-- R122: `LongestPrefix(s)`. -/
def longestPrefix (t : Trie) (s : Seq) : Node × Nat := longestPrefixFrom t .root 0 s

/-- R123: `Contains(s)`. -/
def contains (t : Trie) (s : Seq) : Except DictFailure Bool :=
  match s with
  | [] => .error .argument
  | _ :: _ => .ok ((longestPrefix t s).2 == s.length)

/-- R124: `IndexOf(s)`. -/
def indexOf (t : Trie) (s : Seq) : Except DictFailure Nat :=
  match s with
  | [] => .error .argument
  | _ :: _ =>
    match longestPrefix t s with
    | (.code c, i) => if i = s.length then .ok c else .error .lookup
    | (.root, _) => .error .lookup

/-- R125, R182: a new terminal node below `c` for byte `b`, with the next code. -/
def insertChild (c : Nat) (b : Byte) (e : EncSide) : EncSide :=
  { e with trie := setChild e.trie c b e.next, next := e.next + 1 }

/-- R125: `Add(s)`, with the code and whether it was inserted. The walk falls off at the last byte
only; anything else is refused (R126). -/
def add (s : Seq) (e : EncSide) : Except DictFailure (EncSide × Nat × Bool) :=
  match s.getLast? with
  | none => .error .argument
  | some b =>
    match longestPrefix e.trie s with
    | (.root, _) => .error .outsideArena
    | (.code c, i) =>
      if i = s.length then .ok (e, c, false)
      else if i + 1 = s.length then .ok (insertChild c b e, e.next, true)
      else .error .outsideArena

/-! ## Code Table -/

/-- R128: `Seed()`: the 256 single-byte entries and no other. -/
def seedTable (d : DecSide) : DecSide := { d with table := [], size := Config.alphabet }

/-- R129: `Append(s)`: a new entry at the current table size, and its code. -/
def append (s : Seq) (d : DecSide) : DecSide × Nat :=
  ({ d with table := setTable d.table d.size s, size := d.size + 1 }, d.size)

/-- R130: `Lookup(c)`. -/
def lookup (d : DecSide) (c : Nat) : Option Seq := if c < d.size then tableAt d.table c else none

/-- R131: `FirstByte(s)`; none for the empty sequence, which no table entry is (R68). -/
def firstByte (s : Seq) : Option Byte := s.head?

end Sys2Proof.Machine
end

