-- ==== Sys2Proof/Machine/Decoder.lean ====
section
/-!
DEFINITION. The decoder code-table lookup CT (spec 43_decoder.md): DEC_INIT, DEC_BYTE, DEC_CODE,
DEC_END.
-/

namespace Sys2Proof.Machine

/-- R212: `DecGrow()`. -/
def decGrow (d : DecSide) : DecSide := { d with width := decGrownWidth d.size d.width }

/-- R211: `EmitD(s)`, then `D.PREV <- c`. -/
def emitEntry (s : Seq) (c : Nat) (d : DecSide) : DecSide :=
  { d with out := d.out ++ s, prev := some c }

/-- `T[p] ++ [FirstByte(s)]`; none only where T has no entry (log 5). -/
def extended (d : DecSide) (p : Nat) (s : Seq) : Option Seq :=
  match tableAt d.table p, firstByte s with
  | some sp, some b => some (sp ++ [b])
  | _, _ => none

/-- R211, the branch of a code in the table. -/
def decodePresent (c : Nat) (d : DecSide) : Cmd DecSide :=
  match lookup d c with
  | none => stop .tableHole
  | some s =>
    match d.prev with
    | none => .ok (emitEntry s c d)
    | some p =>
      match extended d p s with
      | none => stop .tableHole
      | some x => .ok (emitEntry s c (append x d).1)

/-- R211, the symmetric case: the entry both sides are about to create. -/
def decodeSymmetric (p : Nat) (d : DecSide) : Cmd DecSide :=
  match tableAt d.table p with
  | none => stop .tableHole
  | some sp =>
    match extended d p sp with
    | none => stop .tableHole
    | some x => .ok (emitEntry x (append x d).2 (append x d).1)

/-- R211, without the final DecGrow: present, symmetric, or FORMAT. -/
def decodeEntry (c : Nat) (d : DecSide) : Cmd DecSide :=
  if c < d.size then decodePresent c d
  else
    match d.prev with
    | none => raise .format
    | some p => if c = d.size then decodeSymmetric p d else raise .format

/-- R211: `DecodeCode(c)`. -/
def decodeCode (c : Nat) (d : DecSide) : Cmd DecSide :=
  match decodeEntry c d with
  | .error x => .error x
  | .ok d' => .ok (decGrow d')

/-- R210: DEC_INIT. UP.RESP is kept. -/
def execDecInit (s : State) : Host.Outcome State Fault Refusal :=
  runDec .anyPhase (fun d => .ok (seedDec .active d.resp d)) s

/-- R213, the loop, for at most `fuel` passes. Every pass at width 1 or more takes a bit, so
`length + 1` passes suffice unless D.WIDTH is 0 (log 6). -/
def decodeQueued (maxWidth : Nat) : Nat → DecSide → Cmd DecSide
  | 0, _ => stop .endlessLoop
  | fuel + 1, d =>
    if d.width ≤ d.upq.length then
      if maxWidth < d.width then raise .capacity
      else
        match upPop d.width d with
        | .error x => .error x
        | .ok (c, d') =>
          match decodeCode c d' with
          | .error x => .error x
          | .ok d'' => decodeQueued maxWidth fuel d''
    else .ok d

/-- R213, the pseudocode. -/
def decByteBody (maxWidth : Nat) (b : Byte) (d : DecSide) : Cmd DecSide :=
  match upPush b d with
  | .error x => .error x
  | .ok d' => decodeQueued maxWidth (d'.upq.length + 1) { d' with seen := true }

/-- R213: DEC_BYTE. -/
def execDecByte (b : Byte) (s : State) : Host.Outcome State Fault Refusal :=
  runDec .active (decByteBody s.maxWidth b) s

/-- R214, the pseudocode. -/
def decCodeBody (maxWidth : Nat) (c : Nat) (d : DecSide) : Cmd DecSide :=
  if maxWidth < d.width then raise .capacity else decodeCode c { d with seen := true }

/-- R214: DEC_CODE. -/
def execDecCode (c : Nat) (s : State) : Host.Outcome State Fault Refusal :=
  runDec .active (decCodeBody s.maxWidth c) s

/-- R215, the pseudocode. -/
def decEndBody (d : DecSide) : Cmd DecSide :=
  if d.seen = false then raise .emptyInput
  else if 8 ≤ d.upq.length then raise .truncated
  else .ok { d with upq := [], phase := .idle }

/-- R215: DEC_END. -/
def execDecEnd (s : State) : Host.Outcome State Fault Refusal := runDec .active decEndBody s

end Sys2Proof.Machine
end

