-- ==== Sys2Proof/Machine/Encoder.lean ====
section
/-!
DEFINITION. The encoder trie walker TW (spec 42_encoder.md): ENC_INIT, ENC_BYTE, ENC_END.
-/

namespace Sys2Proof.Machine

/-- R180: `PackCode(c, w)`. -/
def packCode (maxWidth : Nat) (c : Nat) (w : Nat) (e : EncSide) : Cmd EncSide :=
  if maxWidth < w then raise .capacity else packBits c w e

/-- R184: `EncGrow()`. -/
def encGrow (e : EncSide) : EncSide := { e with width := encGrownWidth e.next e.width }

/-- R181: ENC_INIT. -/
def execEncInit (s : State) : Host.Outcome State Fault Refusal :=
  runEnc .anyPhase (fun e => .ok (seedEnc .active e)) s

/-- R182, the pseudocode. -/
def encByteBody (maxWidth : Nat) (b : Byte) (e : EncSide) : Cmd EncSide :=
  match e.cur with
  | none => .ok { e with cur := some b.toNat }
  | some c =>
    match child e.trie (.code c) b with
    | some n => .ok { e with cur := some n }
    | none =>
      match packCode maxWidth c e.width e with
      | .error x => .error x
      | .ok e' => .ok (encGrow { insertChild c b e' with cur := some b.toNat })

/-- R182: ENC_BYTE. -/
def execEncByte (b : Byte) (s : State) : Host.Outcome State Fault Refusal :=
  runEnc .active (encByteBody s.maxWidth b) s

/-- R183, the pseudocode. -/
def encEndBody (maxWidth : Nat) (e : EncSide) : Cmd EncSide :=
  match e.cur with
  | none => raise .emptyInput
  | some c =>
    match packCode maxWidth c e.width e with
    | .error x => .error x
    | .ok e' => .ok { packFlush e' with cur := none, phase := .idle }

/-- R183: ENC_END. -/
def execEncEnd (s : State) : Host.Outcome State Fault Refusal :=
  runEnc .active (encEndBody s.maxWidth) s

end Sys2Proof.Machine
end

