-- ==== Sys2Proof/Machine/Dispatch.lean ====
section
/-! DEFINITION. The dispatch of a legal command to its meaning, one arm per constructor of `Instr`
(spec 30_encoding.md R97). -/

namespace Sys2Proof.Machine

def exec (i : Instr) (s : State) : Host.Outcome State Fault Refusal :=
  match i with
  | .encInit => Sys2Proof.Machine.execEncInit s
  | .encByte b => Sys2Proof.Machine.execEncByte b s
  | .encEnd => Sys2Proof.Machine.execEncEnd s
  | .pkPut w v => Sys2Proof.Machine.execPkPut w v s
  | .pkFlush => Sys2Proof.Machine.execPkFlush s
  | .decInit => Sys2Proof.Machine.execDecInit s
  | .decByte b => Sys2Proof.Machine.execDecByte b s
  | .decEnd => Sys2Proof.Machine.execDecEnd s
  | .upPut b => Sys2Proof.Machine.execUpPut b s
  | .upGet w => Sys2Proof.Machine.execUpGet w s
  | .decCode c => Sys2Proof.Machine.execDecCode c s

end Sys2Proof.Machine
end

