-- ==== Sys2Proof/Machine/Port.lean ====
section
/-!
DEFINITION. The command port: what one word, and one thing the host does, does to the block (spec
30_encoding.md R90, 60_exceptions.md R242, 70_reset_and_hazards.md R270).
-/

namespace Sys2Proof.Machine

/-- R242: `Dispatch(cw)`. -/
def issue (cw : Word) (s : State) : Host.Outcome State Fault Refusal :=
  match decode cw with
  | .ok i => exec i s
  | .error _ => execIllegal (sideOfWord cw) s

/-- One thing the host does. -/
def takeInput (x : HostInput) (s : State) : Host.Outcome State Fault Refusal :=
  match x with
  | .command cw => issue cw s
  | .reset => .next (applyReset s)

end Sys2Proof.Machine
end

