-- ==== Sys2Proof/Machine/Step.lean ====
section
/-!
DEFINITION. One step of the machine: the next thing the host does (spec 20_memory.md R79, R82). When
the host has nothing to do the block waits and its state does not change (R50; log 2).
-/

namespace Sys2Proof.Machine

def step (s : State) : Host.Outcome State Fault Refusal :=
  match s.port with
  | [] => .next s
  | x :: rest => takeInput x { s with port := rest }

/-- The state with a table word (nbits bits, none set above them) at the front of the command port,
so that the next step executes it. -/
def State.withFetchWord (s : State) (nbits w : Nat) : State :=
  { s with port := .command (BitVec.ofNat 32 (w % 2 ^ nbits)) :: s.port }

end Sys2Proof.Machine
end

