-- ==== Sys2Proof/Machine/Assembler.lean ====
section
/-!
DEFINITION. The assembly syntax (spec 30_encoding.md R101 to R103, D28): one command a line, literals,
comments and pseudo-instructions. It is the host's notation for commands and no part of what the
block does. Log 10 names what the spec leaves open (white space, letter case, quotes, empty strings).
-/

namespace Sys2Proof.Machine

/-- Why a line is not assembly. -/
inductive AsmError where
  /-- a string literal is not closed, or a character literal does not hold exactly one character -/
  | badQuote
  /-- a character that is not ASCII in a literal (R102, R103) -/
  | notAscii
  /-- a word that is neither decimal nor hexadecimal where an operand is due (R102) -/
  | badLiteral
  /-- the line begins with no mnemonic (R101) -/
  | unknownMnemonic
  /-- operands that are not separated by commas, or a wrong number of them -/
  | badOperands
  /-- R101: an operand out of range -/
  | outOfRange
  deriving DecidableEq, Repr

inductive AsmToken where
  | word (cs : List Char)
  | number (n : Nat)
  | text (cs : List Char)
  | comma
  deriving DecidableEq, Repr

/-! ## Tokens -/

/-- Where the tokenizer stands: between tokens, in a word, after an opening single quote, after the
quoted character, or in a string (characters read so far, last first). -/
inductive AsmMode where
  | gap
  | word (rev : List Char)
  | charOpen
  | charRead (c : Char)
  | text (rev : List Char)
  deriving DecidableEq, Repr

def asmSpace (c : Char) : Bool := c == ' ' || c == '\t' || c == '\r'

def asmAscii (c : Char) : Bool := c.toNat < 128

/-- What a character outside quotes begins or is: the token it completes and the mode after it. -/
def asmStart (c : Char) : List AsmToken × AsmMode :=
  if asmSpace c then ([], .gap)
  else if c == ',' then ([.comma], .gap)
  else if c == '\'' then ([], .charOpen)
  else if c == '"' then ([], .text [])
  else ([], .word [c])

/-- A character that ends a word. -/
def asmEndsWord (c : Char) : Bool := asmSpace c || c == ',' || c == '\'' || c == '"'

/-- R101: the tokens of a line; a `;` outside quotes starts a comment. DESIGN CHOICE (log 10): the empty
string is a token, and there is no escape inside quotes. -/
def asmTokens : AsmMode → List Char → Except AsmError (List AsmToken)
  | .gap, [] => .ok []
  | .word rev, [] => .ok [.word rev.reverse]
  | .charOpen, [] => .error .badQuote
  | .charRead _, [] => .error .badQuote
  | .text _, [] => .error .badQuote
  | .gap, c :: cs =>
    if c == ';' then .ok []
    else
      match asmTokens (asmStart c).2 cs with
      | .ok ts => .ok ((asmStart c).1 ++ ts)
      | .error e => .error e
  | .word rev, c :: cs =>
    if c == ';' then .ok [.word rev.reverse]
    else if asmEndsWord c then
      match asmTokens (asmStart c).2 cs with
      | .ok ts => .ok (.word rev.reverse :: ((asmStart c).1 ++ ts))
      | .error e => .error e
    else asmTokens (.word (c :: rev)) cs
  | .charOpen, c :: cs => if asmAscii c then asmTokens (.charRead c) cs else .error .notAscii
  | .charRead a, c :: cs =>
    if c == '\'' then
      match asmTokens .gap cs with
      | .ok ts => .ok (.number a.toNat :: ts)
      | .error e => .error e
    else .error .badQuote
  | .text rev, c :: cs =>
    if c == '"' then
      match asmTokens .gap cs with
      | .ok ts => .ok (.text rev.reverse :: ts)
      | .error e => .error e
    else if asmAscii c then asmTokens (.text (c :: rev)) cs
    else .error .notAscii

/-! ## Literals (R102) -/

def decimalDigit (c : Char) : Option Nat :=
  if '0'.toNat ≤ c.toNat ∧ c.toNat ≤ '9'.toNat then some (c.toNat - '0'.toNat) else none

def hexDigit (c : Char) : Option Nat :=
  if '0'.toNat ≤ c.toNat ∧ c.toNat ≤ '9'.toNat then some (c.toNat - '0'.toNat)
  else if 'a'.toNat ≤ c.toNat ∧ c.toNat ≤ 'f'.toNat then some (c.toNat - 'a'.toNat + 10)
  else if 'A'.toNat ≤ c.toNat ∧ c.toNat ≤ 'F'.toNat then some (c.toNat - 'A'.toNat + 10)
  else none

/-- The value of a run of digits in a base, most significant first. -/
def digitsFrom (base : Nat) (digit : Char → Option Nat) : Nat → List Char → Option Nat
  | acc, [] => some acc
  | acc, c :: cs =>
    match digit c with
    | none => none
    | some n => digitsFrom base digit (base * acc + n) cs

/-- R102: decimal (`65`) or hexadecimal (`0x41`). -/
def numericLiteral (cs : List Char) : Option Nat :=
  match cs with
  | [] => none
  | ['0', 'x'] => none
  | '0' :: 'x' :: ds => digitsFrom 16 hexDigit 0 ds
  | ds => digitsFrom 10 decimalDigit 0 ds

/-! ## Operands -/

/-- An operand: a number, or a string (R103). -/
inductive AsmOperand where
  | number (n : Nat)
  | text (cs : List Char)
  deriving DecidableEq, Repr

def asmOperand (t : AsmToken) : Except AsmError AsmOperand :=
  match t with
  | .word cs =>
    match numericLiteral cs with
    | some n => .ok (.number n)
    | none => .error .badLiteral
  | .number n => .ok (.number n)
  | .text cs => .ok (.text cs)
  | .comma => .error .badOperands

/-- R101: operands separated by commas. -/
def asmOperands : List AsmToken → Except AsmError (List AsmOperand)
  | [] => .ok []
  | [t] =>
    match asmOperand t with
    | .ok o => .ok [o]
    | .error e => .error e
  | t :: .comma :: u :: ts =>
    match asmOperand t with
    | .error e => .error e
    | .ok o =>
      match asmOperands (u :: ts) with
      | .ok os => .ok (o :: os)
      | .error e => .error e
  | _ :: _ :: _ => .error .badOperands

/-- A byte operand, 0..255. -/
def asmByte (n : Nat) : Except AsmError Byte :=
  if n < 256 then .ok (BitVec.ofNat 8 n) else .error .outOfRange

/-- R103: the bytes of a pseudo-instruction's operands. DESIGN CHOICE (log 10): the spec does not say
what an empty string stands for, and here it stands for no bytes. -/
def asmBytes : List AsmOperand → Except AsmError Seq
  | [] => .ok []
  | .number n :: os =>
    match asmByte n, asmBytes os with
    | .ok b, .ok bs => .ok (b :: bs)
    | .error e, _ => .error e
    | _, .error e => .error e
  | .text cs :: os =>
    match asmBytes os with
    | .ok bs => .ok (cs.map (fun c => BitVec.ofNat 8 c.toNat) ++ bs)
    | .error e => .error e

/-! ## Commands -/

def asmChecked (i : Instr) : Except AsmError (List Instr) :=
  if i.wellFormedB then .ok [i] else .error .outOfRange

def asmNone (i : Instr) (os : List AsmOperand) : Except AsmError (List Instr) :=
  match os with
  | [] => .ok [i]
  | _ => .error .badOperands

def asmOneByte (f : Byte → Instr) (os : List AsmOperand) : Except AsmError (List Instr) :=
  match os with
  | [.number n] =>
    match asmByte n with
    | .ok b => .ok [f b]
    | .error e => .error e
  | _ => .error .badOperands

def asmOneNumber (f : Nat → Instr) (os : List AsmOperand) : Except AsmError (List Instr) :=
  match os with
  | [.number n] => asmChecked (f n)
  | _ => .error .badOperands

def asmTwoNumbers (f : Nat → Nat → Instr) (os : List AsmOperand) : Except AsmError (List Instr) :=
  match os with
  | [.number m, .number n] => asmChecked (f m n)
  | _ => .error .badOperands

/-- R103: a pseudo-instruction with at least one byte, expanded byte by byte. DESIGN CHOICE (log 10):
operands that are all empty strings give no byte and are an error, as no operand is. -/
def asmEach (f : Byte → Instr) (os : List AsmOperand) : Except AsmError (List Instr) :=
  match asmBytes os with
  | .ok [] => .error .badOperands
  | .ok bs => .ok (bs.map f)
  | .error e => .error e

/-- R101, R103: the mnemonics and what their operands make. -/
def asmMnemonics : List (List Char × (List AsmOperand → Except AsmError (List Instr))) := [
  ("ENC_INIT".toList, asmNone .encInit),
  ("ENC_BYTE".toList, asmOneByte .encByte),
  ("ENC_END".toList, asmNone .encEnd),
  ("PK_PUT".toList, asmTwoNumbers .pkPut),
  ("PK_FLUSH".toList, asmNone .pkFlush),
  ("DEC_INIT".toList, asmNone .decInit),
  ("DEC_BYTE".toList, asmOneByte .decByte),
  ("DEC_END".toList, asmNone .decEnd),
  ("UP_PUT".toList, asmOneByte .upPut),
  ("UP_GET".toList, asmOneNumber .upGet),
  ("DEC_CODE".toList, asmOneNumber .decCode),
  ("ENC_BYTES".toList, asmEach .encByte),
  ("DEC_BYTES".toList, asmEach .decByte),
  ("UP_PUTS".toList, asmEach .upPut)]

/-- The commands one line stands for; an empty line or a comment stands for none. -/
def assembleLine (line : List Char) : Except AsmError (List Instr) :=
  match asmTokens .gap line with
  | .error e => .error e
  | .ok [] => .ok []
  | .ok (.word m :: ts) =>
    match asmMnemonics.lookup m with
    | none => .error .unknownMnemonic
    | some make =>
      match asmOperands ts with
      | .ok os => make os
      | .error e => .error e
  | .ok (_ :: _) => .error .unknownMnemonic

/-- R101: one command per line. -/
def assembleLines : List (List Char) → Except AsmError (List Instr)
  | [] => .ok []
  | l :: ls =>
    match assembleLine l, assembleLines ls with
    | .ok is, .ok js => .ok (is ++ js)
    | .error e, _ => .error e
    | _, .error e => .error e

end Sys2Proof.Machine
end

