-- ==== Sys2Proof/Machine/ReadPort.lean ====
section
/-!
DEFINITION. The register read port (spec 10_state.md R50 to R63): an 8-bit address in, a 32-bit word
out, no effect on the state. Each register's word is written field by field, most significant first.
-/

namespace Sys2Proof.Machine

/-- R51: CONFIG. -/
def regConfig (s : State) : Word := 0#27 ++ BitVec.ofNat 5 s.maxWidth

/-- R52: E_STATUS. -/
def regEStatus (s : State) : Word := 0#24 ++ errBits s.enc.err ++ 0#2 ++ phaseBits s.enc.phase

/-- R53: E_WIDTH. -/
def regEWidth (s : State) : Word := 0#27 ++ BitVec.ofNat 5 s.enc.width

/-- R54: E_NEXT. -/
def regENext (s : State) : Word := 0#15 ++ BitVec.ofNat 17 s.enc.next

/-- R55: E_CUR. -/
def regECur (s : State) : Word := 0#15 ++ validAndCode s.enc.cur

/-- R56: PK_STATE. -/
def regPkState (s : State) : Word :=
  0#16 ++ leftAligned 8 s.enc.pkq ++ 0#5 ++ BitVec.ofNat 3 s.enc.pkq.length

/-- R57: D_STATUS. -/
def regDStatus (s : State) : Word :=
  0#23 ++ seenBit s.dec.seen ++ errBits s.dec.err ++ 0#2 ++ phaseBits s.dec.phase

/-- R58: D_WIDTH. -/
def regDWidth (s : State) : Word := 0#27 ++ BitVec.ofNat 5 s.dec.width

/-- R59: D_SIZE. -/
def regDSize (s : State) : Word := 0#15 ++ BitVec.ofNat 17 s.dec.size

/-- R60: D_PREV. -/
def regDPrev (s : State) : Word := 0#15 ++ validAndCode s.dec.prev

/-- R61: UP_STATE. -/
def regUpState (s : State) : Word := 0#26 ++ BitVec.ofNat 6 s.dec.upq.length

/-- R62: UP_BITS. -/
def regUpBits (s : State) : Word := leftAligned 32 s.dec.upq

/-- R63: UP_RESP. -/
def regUpResp (s : State) : Word := s.dec.resp

/-- R50: the word at an address; an address not listed reads 0. -/
def readRegister (addr : BitVec 8) (s : State) : Word :=
  match addr.toNat with
  | 0x00 => regConfig s
  | 0x10 => regEStatus s
  | 0x11 => regEWidth s
  | 0x12 => regENext s
  | 0x13 => regECur s
  | 0x14 => regPkState s
  | 0x20 => regDStatus s
  | 0x21 => regDWidth s
  | 0x22 => regDSize s
  | 0x23 => regDPrev s
  | 0x24 => regUpState s
  | 0x25 => regUpBits s
  | 0x26 => regUpResp s
  | _ => 0#32

end Sys2Proof.Machine
end

