-- ==== Sys2Proof/Safety.lean ====
section
/-!
DEFINITION. What claims about LZWC are stated in: running several commands, the invariants of spec
10_state.md section 7 with the ranges and the dictionary laws they stand on, and encode and decode
sessions (70_reset_and_hazards.md R274, R275).
-/

namespace Sys2Proof.Machine

/-! ## Several commands -/

/-- Legal commands, one after another (R82). -/
def execAll : List Instr → State → Host.Outcome State Fault Refusal
  | [], s => .next s
  | i :: is, s =>
    match exec i s with
    | .next t => execAll is t
    | .fault f => .fault f
    | .refused r => .refused r

/-- Command words, legal or not, one after another (R82). -/
def issueAll : List Word → State → Host.Outcome State Fault Refusal
  | [], s => .next s
  | cw :: cws, s =>
    match issue cw s with
    | .next t => issueAll cws t
    | .fault f => .fault f
    | .refused r => .refused r

/-! ## Invariants -/

/-- The laws of the encode side, for an instance with the given MAX_WIDTH. -/
structure EncLaws (maxWidth : Nat) (e : EncSide) : Prop where
  /-- R32: ERR is set exactly when the phase is FAILED -/
  err_iff_failed : e.err ≠ none ↔ e.phase = .failed
  /-- R33 -/
  width_range : 9 ≤ e.width ∧ e.width ≤ maxWidth + 1
  /-- R34 -/
  next_range : 256 ≤ e.next ∧ e.next ≤ 2 ^ maxWidth
  /-- R65: the encoder width law -/
  width_law : 2 ^ (e.width - 1) ≤ e.next ∧ e.next < 2 ^ e.width
  /-- R35: the candidate is a code of the dictionary -/
  cur_known : ∀ c ∈ e.cur, c < e.next
  /-- R35: between sessions there is no candidate -/
  cur_idle : e.phase = .idle → e.cur = none
  /-- R35: in a session that has inserted a code there is a candidate -/
  cur_active : e.phase = .active → 256 < e.next → e.cur ≠ none
  /-- `Child` is a function (R36), held in canonical form -/
  trie_canonical : NatMapCanonical e.trie
  /-- R36: a learned child is a code from 256 below E.NEXT, and its parent is an older code -/
  trie_codes : ∀ x ∈ e.trie, 256 ≤ x.2 ∧ x.2 < e.next ∧ keyParent x.1 < x.2
  /-- R36: no code is the child of two pairs -/
  trie_injective : (e.trie.map Prod.snd).Nodup
  /-- R36: every learned code is a child, so there are as many entries as learned codes -/
  trie_complete : e.trie.length + 256 = e.next
  /-- R37, R69 -/
  queue_short : e.pkq.length ≤ 7

/-- The laws of the decode side, for an instance with the given MAX_WIDTH. -/
structure DecLaws (maxWidth : Nat) (d : DecSide) : Prop where
  /-- R32: ERR is set exactly when the phase is FAILED -/
  err_iff_failed : d.err ≠ none ↔ d.phase = .failed
  /-- R39 -/
  width_range : 9 ≤ d.width ∧ d.width ≤ maxWidth + 1
  /-- R40 -/
  size_range : 256 ≤ d.size ∧ d.size ≤ 2 ^ maxWidth - 1
  /-- R66: the decoder width law -/
  width_law : 2 ^ (d.width - 1) - 1 ≤ d.size ∧ d.size < 2 ^ d.width - 1
  /-- R41: the previous code is an entry of the table -/
  prev_known : ∀ c ∈ d.prev, c < d.size
  /-- an entry is learned only after a code has been decoded (R211) -/
  prev_set : 256 < d.size → d.prev ≠ none
  /-- R42: a decoded code was received -/
  prev_seen : d.prev ≠ none → d.seen = true
  /-- R43: T has an entry for exactly the codes below D.SIZE, in canonical form -/
  table_keys : d.table.map Prod.fst = List.range' 256 (d.size - 256)
  /-- R44, R68: a learned entry extends an older entry by one byte -/
  table_entries : ∀ x ∈ d.table, 2 ≤ x.2.length ∧ ∃ p < x.1, tableAt d.table p = some x.2.dropLast
  /-- R46, R69 -/
  queue_short : d.upq.length ≤ 32

/-- What holds after reset and after every command, successful or not (10_state.md section 7). -/
structure Inv (s : State) : Prop where
  /-- R9 -/
  max_width_range : 9 ≤ s.maxWidth ∧ s.maxWidth ≤ 16
  enc : EncLaws s.maxWidth s.enc
  dec : DecLaws s.maxWidth s.dec

/-! ## What packing delivers -/

/-- R76, R152: whole bytes have moved from the front of the bits `pending` (a queue with new bits
appended) to the output, most significant bit first, and at most 7 bits are left. -/
def Drained (pending : Bits) (out : Seq) (q' : Bits) (out' : Seq) : Prop :=
  q'.length ≤ 7 ∧ ∃ ys : Seq, out' = out ++ ys ∧ ys.flatMap byteBits ++ q' = pending

/-! ## Sessions -/

/-- R274: an encode session over the bytes `x`. -/
def encodeSession (x : Seq) : List Instr := .encInit :: (x.map .encByte ++ [.encEnd])

/-- R275: the decode session that feeds the bytes `y` with DEC_BYTE. -/
def decodeSession (y : Seq) : List Instr := .decInit :: (y.map .decByte ++ [.decEnd])

/-- R274: the encode session has succeeded. -/
def encodeSucceeded (s : State) : Prop := s.enc.phase = .idle ∧ s.enc.err = none

/-- R275: the decode session has succeeded. -/
def decodeSucceeded (s : State) : Prop := s.dec.phase = .idle ∧ s.dec.err = none

/-- R217: a decode session fed only by DEC_BYTE and DEC_CODE leaves less than a code queued. -/
def QueueBelowWidth (s : State) : Prop := s.dec.upq.length < s.dec.width

end Sys2Proof.Machine
end

