-- ==== Sys2Proof/Certificates/Slice0/Obligations.lean ====
section
/-!
DEFINITION. The statements about LZWC, each with the rule of the spec it formalises. They hold for
every state and every MAX_WIDTH; where a state no run reaches could make one false, the premise is
`Inv` (or the law of one side), which `InvHoldsAtReset` and `StepKeepsInv` state. A result is an
equation `exec i s = .next …` over the whole state, so it is the instruction's frame as well: what it
does not name is unchanged.
-/

open Sys2Proof Sys2Proof.Machine

/-! ## Reset, the step and the encoding -/

/-- R270: what reset leaves on either side; both output ports start empty, MAX_WIDTH is the instance's.
The empty command port (log 2, not stated here) and the empty last field of each side (`earlier`, log 3)
are the model's own. -/
def Obligations.ResetLeavesBothSidesSeededAndIdle : Prop :=
  ∀ mw : Nat,
    (State.resetWith mw).enc = ⟨.idle, none, 9, 256, none, [], [], [], []⟩ ∧
    (State.resetWith mw).dec = ⟨.idle, none, 9, 256, none, false, [], [], 0#32, [], []⟩ ∧
    (State.resetWith mw).maxWidth = mw ∧
    (∀ b : Byte, child (State.resetWith mw).enc.trie .root b = some b.toNat ∧
      tableAt (State.resetWith mw).dec.table b.toNat = some [b]) ∧
    (∀ c b, child (State.resetWith mw).enc.trie (.code c) b = none) ∧
    (∀ c, 256 ≤ c → tableAt (State.resetWith mw).dec.table c = none)

/-- R270: the reset input, applied between commands, in every phase: every piece of state gets its reset
value, the port lists (which count from reset, R38, R48) are empty, and pending bits are discarded. The
bytes delivered before stay delivered, in the model's own fields `earlier` (log 3). R49: MAX_WIDTH stays. -/
def Obligations.ResetInputRestoresResetValues : Prop :=
  ∀ (s : State) (rest : List HostInput), s.port = .reset :: rest →
    step s = .next
      { enc := ⟨.idle, none, 9, 256, none, [], [], [], s.enc.earlier ++ s.enc.out⟩
        dec := ⟨.idle, none, 9, 256, none, false, [], [], 0#32, [], s.dec.earlier ++ s.dec.out⟩
        maxWidth := s.maxWidth
        port := rest }

/-- R271: after reset each side is as after its INIT but for the phase; PK_PUT, PK_FLUSH, UP_PUT and
UP_GET run there, and ENC_BYTE, ENC_END, DEC_BYTE, DEC_END and DEC_CODE raise NOT_ACTIVE. -/
def Obligations.AfterResetOnlyRawCommandsAndInitsRun : Prop :=
  ∀ mw : Nat,
    (exec .encInit (State.resetWith mw) = .next
      { State.resetWith mw with enc := { (State.resetWith mw).enc with phase := .active } }) ∧
    (exec .decInit (State.resetWith mw) = .next
      { State.resetWith mw with dec := { (State.resetWith mw).dec with phase := .active } }) ∧
    (∀ w v, v < 2 ^ w → ∃ t, exec (.pkPut w v) (State.resetWith mw) = .next t ∧ t.enc.err = none) ∧
    (∃ t, exec .pkFlush (State.resetWith mw) = .next t ∧ t.enc.err = none) ∧
    (∀ b, ∃ t, exec (.upPut b) (State.resetWith mw) = .next t ∧ t.dec.err = none) ∧
    (∃ t, exec (.upGet 0) (State.resetWith mw) = .next t ∧ t.dec.err = none) ∧
    (∀ i : Instr, ((∃ b, i = .encByte b) ∨ i = .encEnd) →
      exec i (State.resetWith mw) = .next { State.resetWith mw with
        enc := { (State.resetWith mw).enc with phase := .failed, err := some .notActive } }) ∧
    (∀ i : Instr, ((∃ b, i = .decByte b) ∨ i = .decEnd ∨ (∃ c, i = .decCode c)) →
      exec i (State.resetWith mw) = .next { State.resetWith mw with
        dec := { (State.resetWith mw).dec with phase := .failed, err := some .notActive } })

/-- R79, R82, R90: a step takes the next command word the host issues and executes the command it
names. -/
def Obligations.StepExecutesTheDecodedCommand : Prop :=
  ∀ (s : State) (cw : Word) (rest : List HostInput) (i : Instr),
    s.port = .command cw :: rest → decode cw = .ok i → step s = exec i { s with port := rest }

/-- R242, first step, with R91, R96 and R243: an illegal word raises ILLEGAL on the side its bit 31
names, and is ignored when that side is FAILED. -/
def Obligations.IllegalWordIsChargedToItsSide : Prop :=
  ∀ (s : State) (cw : Word) (rest : List HostInput),
    s.port = .command cw :: rest → (∀ i, decode cw ≠ .ok i) →
    (cw.getLsbD 31 = false → s.enc.phase ≠ .failed →
      step s = .next { s with port := rest, enc := { s.enc with phase := .failed, err := some .illegal } }) ∧
    (cw.getLsbD 31 = true → s.dec.phase ≠ .failed →
      step s = .next { s with port := rest, dec := { s.dec with phase := .failed, err := some .illegal } }) ∧
    (cw.getLsbD 31 = false → s.enc.phase = .failed → step s = .next { s with port := rest }) ∧
    (cw.getLsbD 31 = true → s.dec.phase = .failed → step s = .next { s with port := rest })

/-- R50: state changes only by commands and by reset; with nothing issued the block waits. That a
waiting block takes a step at all is the model's choice (log 2). -/
def Obligations.NothingIssuedNothingChanges : Prop :=
  ∀ s : State, s.port = [] → step s = .next s

/-- R93 to R98: every command with operands in range has a word, and that word decodes to it. -/
def Obligations.DecodeOfEncodeIsTheCommand : Prop :=
  ∀ i : Instr, i.WellFormed → decode (encode i) = .ok i

/-- R96, R97, R101: a legal word names exactly one command, whose operands are in range and whose word
it is; no bit of a legal word is dropped. -/
def Obligations.EncodeOfDecodeIsTheWord : Prop :=
  ∀ (cw : Word) (i : Instr), decode cw = .ok i → i.WellFormed ∧ encode i = cw

/-- R96, R97: the five conditions of legality, on the bits of the word, and the equivalent reading by
the rows of the opcode map, of which a legal word matches exactly one. -/
def Obligations.LegalExactlyByTheOpcodeMap : Prop :=
  ∀ cw : Word,
    ((∃ i, decode cw = .ok i) ↔ ∃ r ∈ opcodeRows, cw &&& r.mask = r.pattern) ∧
    (∀ r ∈ opcodeRows, ∀ r' ∈ opcodeRows,
      cw &&& r.mask = r.pattern → cw &&& r'.mask = r'.pattern → r = r') ∧
    ((∃ i, decode cw = .ok i) ↔
      (cw.extractLsb' 28 4 ∈ [0x1#4, 0x2#4, 0x3#4, 0x4#4, 0x5#4, 0x9#4, 0xA#4, 0xB#4, 0xC#4, 0xD#4, 0xE#4] ∧
       cw.extractLsb' 21 7 = 0#7 ∧
       (cw.extractLsb' 16 5 = 0#5 ∨ cw.extractLsb' 28 4 ∈ [0x4#4, 0xD#4]) ∧
       (cw.extractLsb' 28 4 ∈ [0x1#4, 0x3#4, 0x5#4, 0x9#4, 0xB#4, 0xD#4] → cw.extractLsb' 0 16 = 0#16) ∧
       (cw.extractLsb' 28 4 ∈ [0x2#4, 0xA#4, 0xC#4] → cw.extractLsb' 8 8 = 0#8)))

/-- R104: the worked encodings and the illegal examples. -/
def Obligations.WorkedEncodingsDecode : Prop :=
  decode 0x10000000#32 = .ok .encInit ∧
  decode 0x20000041#32 = .ok (.encByte 0x41#8) ∧
  decode 0x30000000#32 = .ok .encEnd ∧
  decode 0x40090041#32 = .ok (.pkPut 9 0x41) ∧
  decode 0x401F0000#32 = .ok (.pkPut 31 0) ∧
  decode 0xD0090000#32 = .ok (.upGet 9) ∧
  decode 0xE0000102#32 = .ok (.decCode 258) ∧
  decode 0xA0000020#32 = .ok (.decByte 0x20#8) ∧
  (decode 0x00000000#32 = .error .reservedOpcode ∧ sideOfWord 0x00000000#32 = .encode) ∧
  decode 0x20000141#32 = .error .immHighNotZero ∧
  decode 0x10010000#32 = .error .widthNotZero ∧
  decode 0x90200000#32 = .error .rsvNotZero ∧
  (decode 0xF0000000#32 = .error .reservedOpcode ∧ sideOfWord 0xF0000000#32 = .decode)

/-- R15: `bits_w(v)` is `v`'s `w` bits, most significant first, and `val` is its inverse. -/
def Obligations.BitListsReadMostSignificantFirst : Prop :=
  (∀ w v : Nat, v < 2 ^ w →
    (bitsOf w v).length = w ∧ (∀ i < w, (bitsOf w v)[i]? = some (v.testBit (w - 1 - i))) ∧
    valOf (bitsOf w v) = v) ∧
  bitsOf 0 0 = [] ∧ valOf [] = 0 ∧
  (∀ (b : Bool) (q : Bits), valOf (b :: q) = b.toNat * 2 ^ q.length + valOf q)

/-- R75: the first bit of a byte's bit list is bit 7 and the last is bit 0. -/
def Obligations.BytesTravelMostSignificantBitFirst : Prop :=
  ∀ b : Byte, (byteBits b).length = 8 ∧ (∀ i < 8, (byteBits b)[i]? = some (b.getLsbD (7 - i))) ∧
    byteOfBits (byteBits b) = b

/-! ## Bit channel -/

/-- R156 (with R150 to R152): PK_PUT. -/
def Obligations.PkPutPacksAValue : Prop :=
  ∀ (s : State) (w v : Nat),
    (s.enc.phase ≠ .failed → v < 2 ^ w →
      ∃ q out, Drained (s.enc.pkq ++ bitsOf w v) s.enc.out q out ∧
        exec (.pkPut w v) s = .next { s with enc := { s.enc with pkq := q, out := out } }) ∧
    (s.enc.phase ≠ .failed → 2 ^ w ≤ v →
      exec (.pkPut w v) s = .next
        { s with enc := { s.enc with phase := .failed, err := some .widthOverflow } })

/-- R157 (with R153): PK_FLUSH. -/
def Obligations.PkFlushCompletesTheByte : Prop :=
  ∀ s : State, s.enc.phase ≠ .failed →
    (s.enc.pkq = [] → exec .pkFlush s = .next s) ∧
    (s.enc.pkq ≠ [] → s.enc.pkq.length ≤ 7 →
      ∃ y : Byte, byteBits y = s.enc.pkq ++ List.replicate (8 - s.enc.pkq.length) false ∧
        exec .pkFlush s = .next { s with enc := { s.enc with pkq := [], out := s.enc.out ++ [y] } })

/-- R158 (with R154): UP_PUT. D.SEEN is not written. -/
def Obligations.UpPutQueuesAByte : Prop :=
  ∀ (s : State) (b : Byte), s.dec.phase ≠ .failed →
    (s.dec.upq.length ≤ 24 →
      exec (.upPut b) s = .next { s with dec := { s.dec with upq := s.dec.upq ++ byteBits b } }) ∧
    (24 < s.dec.upq.length →
      exec (.upPut b) s = .next
        { s with dec := { s.dec with phase := .failed, err := some .queueFull } })

/-- R159 (with R155): UP_GET, for every width a command can carry. -/
def Obligations.UpGetDequeuesBits : Prop :=
  ∀ (s : State) (w : Nat), s.dec.phase ≠ .failed → w ≤ 31 →
    (w ≤ s.dec.upq.length →
      ∃ r : Word, r.toNat = valOf (s.dec.upq.take w) ∧ r.toNat < 2 ^ w ∧
        exec (.upGet w) s = .next
          { s with dec := { s.dec with upq := s.dec.upq.drop w, resp := r } }) ∧
    (s.dec.upq.length < w →
      exec (.upGet w) s = .next
        { s with dec := { s.dec with phase := .failed, err := some .underflow } })

/-- R160: from an empty queue, packing any values at any widths in which they fit and flushing
delivers their bit lists cut into bytes, completed by zero bits, and leaves the queue empty. -/
def Obligations.PackingLaw : Prop :=
  ∀ (s : State) (ws : List (Nat × Nat)),
    s.enc.phase ≠ .failed → s.enc.pkq = [] → (∀ x ∈ ws, x.2 < 2 ^ x.1) →
    ∃ ys : Seq,
      ys.flatMap byteBits = ws.flatMap (fun x => bitsOf x.1 x.2) ++
        List.replicate ((8 - (ws.map Prod.fst).sum % 8) % 8) false ∧
      ys.length = ((ws.map Prod.fst).sum + 7) / 8 ∧
      execAll (ws.map (fun x => .pkPut x.1 x.2) ++ [.pkFlush]) s =
        .next { s with enc := { s.enc with out := s.enc.out ++ ys } }

/-- R161: pushes (`inl`) and pops (`inr`) in any interleaving that raises no error: each pop returns
the next bits of the pushed bytes; and if those bytes carry packed values, the pops at the same
widths return those values, and after the last of them the padding bits are left. -/
def Obligations.UnpackingLaw : Prop :=
  ∀ (s t : State) (ops : List (Byte ⊕ Nat)) (w : Nat),
    s.dec.upq = [] → s.dec.phase ≠ .failed → (∀ n, .inr n ∈ ops → n ≤ 31) → w ≤ 31 →
    execAll (ops.map (Sum.elim .upPut .upGet) ++ [.upGet w]) s = .next t → t.dec.phase ≠ .failed →
    t.dec.resp.toNat =
      valOf (((ops.flatMap (Sum.elim byteBits (fun _ => []))).drop
        (ops.map (Sum.elim (fun _ => 0) id)).sum).take w) ∧
    t.dec.upq = (ops.flatMap (Sum.elim byteBits (fun _ => []))).drop
      ((ops.map (Sum.elim (fun _ => 0) id)).sum + w) ∧
    (∀ (packed after : List (Nat × Nat)) (v : Nat) (pad : Bits), (∀ x ∈ packed, x.2 < 2 ^ x.1) → v < 2 ^ w →
      ops.filterMap Sum.getRight? = packed.map Prod.fst →
      ops.flatMap (Sum.elim byteBits (fun _ => [])) <+:
        (packed ++ (w, v) :: after).flatMap (fun x => bitsOf x.1 x.2) ++ pad →
      t.dec.resp.toNat = v ∧
      (after = [] → ops.flatMap (Sum.elim byteBits (fun _ => [])) =
          (packed ++ [(w, v)]).flatMap (fun x => bitsOf x.1 x.2) ++ pad →
        t.dec.upq = pad))

/-! ## Encoder -/

/-- R181: ENC_INIT, in every phase. -/
def Obligations.EncInitOpensASession : Prop :=
  ∀ s : State, ∃ tr : Trie,
    exec .encInit s = .next { s with enc :=
      { phase := .active, err := none, width := 9, next := 256, cur := none, trie := tr,
        pkq := [], out := s.enc.out, earlier := s.enc.earlier } } ∧
    (∀ c b, child tr (.code c) b = none) ∧ (∀ b, child tr .root b = some b.toNat)

/-- R182 with R180 and R184: ENC_BYTE on an empty candidate, on a hit, on a miss, without room for the
code, and with no session open. -/
def Obligations.EncByteExtendsTheCandidate : Prop :=
  ∀ (s : State) (b : Byte), EncLaws s.maxWidth s.enc →
    (s.enc.phase = .active → s.enc.cur = none →
      exec (.encByte b) s = .next { s with enc := { s.enc with cur := some b.toNat } }) ∧
    (∀ c n, s.enc.phase = .active → s.enc.cur = some c → child s.enc.trie (.code c) b = some n →
      exec (.encByte b) s = .next { s with enc := { s.enc with cur := some n } }) ∧
    (∀ c, s.enc.phase = .active → s.enc.cur = some c → child s.enc.trie (.code c) b = none →
      s.enc.width ≤ s.maxWidth →
      ∃ q out tr,
        Drained (s.enc.pkq ++ bitsOf s.enc.width c) s.enc.out q out ∧
        child tr (.code c) b = some s.enc.next ∧
        (∀ c' b', (c', b') ≠ (c, b) → child tr (.code c') b' = child s.enc.trie (.code c') b') ∧
        exec (.encByte b) s = .next { s with enc := { s.enc with
          pkq := q, out := out, trie := tr, next := s.enc.next + 1, cur := some b.toNat,
          width := if s.enc.next + 1 = 2 ^ s.enc.width then s.enc.width + 1 else s.enc.width } }) ∧
    (∀ c, s.enc.phase = .active → s.enc.cur = some c → child s.enc.trie (.code c) b = none →
      s.maxWidth < s.enc.width →
      exec (.encByte b) s = .next
        { s with enc := { s.enc with phase := .failed, err := some .capacity } }) ∧
    (s.enc.phase = .idle →
      exec (.encByte b) s = .next
        { s with enc := { s.enc with phase := .failed, err := some .notActive } })

/-- R183: ENC_END packs the candidate, completes the last byte with zero bits and ends the session;
EMPTY_INPUT is checked before CAPACITY. -/
def Obligations.EncEndPacksAndFlushes : Prop :=
  ∀ s : State, EncLaws s.maxWidth s.enc →
    (∀ c, s.enc.phase = .active → s.enc.cur = some c → s.enc.width ≤ s.maxWidth →
      ∃ ys : Seq,
        ys.flatMap byteBits = s.enc.pkq ++ bitsOf s.enc.width c ++
          List.replicate ((8 - (s.enc.pkq.length + s.enc.width) % 8) % 8) false ∧
        exec .encEnd s = .next { s with enc := { s.enc with
          pkq := [], out := s.enc.out ++ ys, cur := none, phase := .idle } }) ∧
    (s.enc.phase = .active → s.enc.cur = none →
      exec .encEnd s = .next
        { s with enc := { s.enc with phase := .failed, err := some .emptyInput } }) ∧
    (∀ c, s.enc.phase = .active → s.enc.cur = some c → s.maxWidth < s.enc.width →
      exec .encEnd s = .next
        { s with enc := { s.enc with phase := .failed, err := some .capacity } }) ∧
    (s.enc.phase = .idle →
      exec .encEnd s = .next
        { s with enc := { s.enc with phase := .failed, err := some .notActive } })

/-- R186, R247: the code packed next fits its width with room to spare, so no encoder command raises
WIDTH_OVERFLOW. -/
def Obligations.EncoderCodesFitTheirWidth : Prop :=
  ∀ s : State, EncLaws s.maxWidth s.enc →
    (∀ c, s.enc.cur = some c → c ≤ 2 ^ s.enc.width - 2) ∧
    (∀ (i : Instr) (t : State), (i = .encEnd ∨ ∃ b, i = .encByte b) → s.enc.err ≠ some .widthOverflow →
      exec i s = .next t → t.enc.err ≠ some .widthOverflow)

/-- R190: compressing one byte delivers the two bytes `b >> 1` and `(b & 1) << 7`, whatever the block
did before. -/
def Obligations.OneByteSessionDeliversOneCode : Prop :=
  ∀ (s : State) (b : Byte), 9 ≤ s.maxWidth →
    ∃ t, execAll (encodeSession [b]) s = .next t ∧ encodeSucceeded t ∧
      t.enc.out = s.enc.out ++ [b >>> 1, (b &&& 1#8) <<< 7] ∧ t.dec = s.dec

/-! ## Decoder -/

/-- R210 with R128: DEC_INIT, in every phase. UP.RESP and OUT_D are kept. -/
def Obligations.DecInitOpensASession : Prop :=
  ∀ s : State, ∃ tb : CodeTable,
    exec .decInit s = .next { s with dec :=
      { phase := .active, err := none, width := 9, size := 256, prev := none, seen := false,
        table := tb, upq := [], resp := s.dec.resp, out := s.dec.out, earlier := s.dec.earlier } } ∧
    (∀ b : Byte, tableAt tb b.toNat = some [b]) ∧ (∀ c, 256 ≤ c → tableAt tb c = none)

/-- R214 with R211 and R212: DEC_CODE on the first code of a session, on a later code in the table, in
the symmetric case, on a format error, without room for the code (checked first), and with no session
open. -/
def Obligations.DecCodeDecodesOneCode : Prop :=
  ∀ (s : State) (c : Nat), DecLaws s.maxWidth s.dec →
    (s.dec.phase = .active → s.dec.width ≤ s.maxWidth → c < s.dec.size → s.dec.prev = none →
      ∃ sq, tableAt s.dec.table c = some sq ∧
        exec (.decCode c) s = .next { s with dec := { s.dec with
          seen := true, out := s.dec.out ++ sq, prev := some c } }) ∧
    (∀ p, s.dec.phase = .active → s.dec.width ≤ s.maxWidth → c < s.dec.size → s.dec.prev = some p →
      ∃ sp f rest tb, tableAt s.dec.table p = some sp ∧ tableAt s.dec.table c = some (f :: rest) ∧
        tableAt tb s.dec.size = some (sp ++ [f]) ∧
        (∀ k, k ≠ s.dec.size → tableAt tb k = tableAt s.dec.table k) ∧
        exec (.decCode c) s = .next { s with dec := { s.dec with
          seen := true, table := tb, size := s.dec.size + 1, out := s.dec.out ++ (f :: rest), prev := some c,
          width := if s.dec.size + 1 = 2 ^ s.dec.width - 1 then s.dec.width + 1 else s.dec.width } }) ∧
    (∀ p, s.dec.phase = .active → s.dec.width ≤ s.maxWidth → c = s.dec.size → s.dec.prev = some p →
      ∃ f rest tb, tableAt s.dec.table p = some (f :: rest) ∧
        tableAt tb s.dec.size = some (f :: rest ++ [f]) ∧
        (∀ k, k ≠ s.dec.size → tableAt tb k = tableAt s.dec.table k) ∧
        exec (.decCode c) s = .next { s with dec := { s.dec with
          seen := true, table := tb, size := s.dec.size + 1, out := s.dec.out ++ (f :: rest ++ [f]),
          prev := some c,
          width := if s.dec.size + 1 = 2 ^ s.dec.width - 1 then s.dec.width + 1 else s.dec.width } }) ∧
    (s.dec.phase = .active → s.dec.width ≤ s.maxWidth →
      (s.dec.size < c ∨ (s.dec.size = c ∧ s.dec.prev = none)) →
      exec (.decCode c) s = .next
        { s with dec := { s.dec with phase := .failed, err := some .format } }) ∧
    (s.dec.phase = .active → s.maxWidth < s.dec.width →
      exec (.decCode c) s = .next
        { s with dec := { s.dec with phase := .failed, err := some .capacity } }) ∧
    (s.dec.phase = .idle →
      exec (.decCode c) s = .next
        { s with dec := { s.dec with phase := .failed, err := some .notActive } })

/-- R213: DEC_BYTE queues the byte and decodes while a code is complete. Its decoding is DEC_CODE's of
the queued code on the rest of the queue; what follows is what DEC_BYTE does on the state that
leaves, and any error leaves the state from before the whole command. -/
def Obligations.DecByteDecodesEveryCompleteCode : Prop :=
  ∀ (s : State) (b : Byte), Inv s →
    (s.dec.phase = .active → s.dec.upq.length + 8 < s.dec.width →
      exec (.decByte b) s = .next { s with dec := { s.dec with
        seen := true, upq := s.dec.upq ++ byteBits b } }) ∧
    (s.dec.phase = .active → 24 < s.dec.upq.length →
      exec (.decByte b) s = .next
        { s with dec := { s.dec with phase := .failed, err := some .queueFull } }) ∧
    (s.dec.phase = .active → s.dec.upq.length ≤ 24 → s.dec.width ≤ s.dec.upq.length + 8 →
      s.maxWidth < s.dec.width →
      exec (.decByte b) s = .next
        { s with dec := { s.dec with phase := .failed, err := some .capacity } }) ∧
    (s.dec.phase = .active → s.dec.upq.length ≤ 24 → s.dec.width ≤ s.dec.upq.length + 8 →
      s.dec.width ≤ s.maxWidth →
      ∃ t, exec (.decCode (valOf ((s.dec.upq ++ byteBits b).take s.dec.width)))
          { s with dec := { s.dec with upq := (s.dec.upq ++ byteBits b).drop s.dec.width } } = .next t ∧
        (∀ e, t.dec.err = some e →
          exec (.decByte b) s = .next
            { s with dec := { s.dec with phase := .failed, err := some e } }) ∧
        (t.dec.err = none → t.dec.upq.length < t.dec.width → exec (.decByte b) s = .next t) ∧
        (t.dec.err = none → t.dec.width ≤ t.dec.upq.length →
          ∃ u, exec (.decByte b)
              { t with dec := { t.dec with upq := t.dec.upq.take (t.dec.upq.length - 8) } } = .next u ∧
            (u.dec.err = none → exec (.decByte b) s = .next u) ∧
            (∀ e, u.dec.err = some e →
              exec (.decByte b) s = .next
                { s with dec := { s.dec with phase := .failed, err := some e } }))) ∧
    (s.dec.phase = .idle →
      exec (.decByte b) s = .next
        { s with dec := { s.dec with phase := .failed, err := some .notActive } })

/-- R215: DEC_END; EMPTY_INPUT is checked before TRUNCATED, and padding bits are discarded unchecked. -/
def Obligations.DecEndClosesTheSession : Prop :=
  ∀ s : State,
    (s.dec.phase = .active → s.dec.seen = true → s.dec.upq.length ≤ 7 →
      exec .decEnd s = .next { s with dec := { s.dec with upq := [], phase := .idle } }) ∧
    (s.dec.phase = .active → s.dec.seen = true → 8 ≤ s.dec.upq.length →
      exec .decEnd s = .next
        { s with dec := { s.dec with phase := .failed, err := some .truncated } }) ∧
    (s.dec.phase = .active → s.dec.seen = false →
      exec .decEnd s = .next
        { s with dec := { s.dec with phase := .failed, err := some .emptyInput } }) ∧
    (s.dec.phase = .idle →
      exec .decEnd s = .next
        { s with dec := { s.dec with phase := .failed, err := some .notActive } })

/-- R216: which codes a session accepts; the all-ones code of the current width never is. -/
def Obligations.ValidCodesAreThoseUpToTheTableSize : Prop :=
  ∀ (s t : State) (c : Nat), DecLaws s.maxWidth s.dec → s.dec.phase = .active →
    s.dec.width ≤ s.maxWidth → exec (.decCode c) s = .next t →
    (t.dec.err = none ↔ c < 256 ∨ (c ≤ s.dec.size ∧ s.dec.prev ≠ none)) ∧
    (c = 2 ^ s.dec.width - 1 → t.dec.err = some .format)

/-- R217: in a session fed only by DEC_BYTE and DEC_CODE less than a code stays queued, and one
DEC_BYTE decodes at most one code. -/
def Obligations.OneCodePerByteAtMost : Prop :=
  ∀ s t : State, DecLaws s.maxWidth s.dec →
    (exec .decInit s = .next t → QueueBelowWidth t) ∧
    (∀ c, s.dec.phase = .active → QueueBelowWidth s → exec (.decCode c) s = .next t → t.dec.err = none →
      QueueBelowWidth t) ∧
    (∀ b, s.dec.phase = .active → QueueBelowWidth s → exec (.decByte b) s = .next t → t.dec.err = none →
      QueueBelowWidth t ∧
      (t = { s with dec := { s.dec with seen := true, upq := s.dec.upq ++ byteBits b } } ∨
        (exec (.decCode (valOf ((s.dec.upq ++ byteBits b).take s.dec.width)))
          { s with dec := { s.dec with upq := (s.dec.upq ++ byteBits b).drop s.dec.width } } = .next t ∧
         t.dec.upq.length < 8)))

/-! ## Errors -/

/-- R243 with R240: an error is precise: the failing command leaves its side as it was except PHASE
and ERR, delivers no byte, and does not touch the other side. For every word, legal or not. -/
def Obligations.ErrorsAreAllOrNothing : Prop :=
  ∀ (s t : State) (cw : Word), issue cw s = .next t →
    (s.enc.phase ≠ .failed → t.enc.phase = .failed →
      ∃ e, t = { s with enc := { s.enc with phase := .failed, err := some e } }) ∧
    (s.dec.phase ≠ .failed → t.dec.phase = .failed →
      ∃ e, t = { s with dec := { s.dec with phase := .failed, err := some e } })

/-- R244: a FAILED side ignores every word of its side, legal or not, but its own INIT. -/
def Obligations.FailedSideIgnoresAllButInit : Prop :=
  ∀ (s : State) (cw : Word),
    (sideOfWord cw = .encode → s.enc.phase = .failed → decode cw ≠ .ok .encInit → issue cw s = .next s) ∧
    (sideOfWord cw = .decode → s.dec.phase = .failed → decode cw ≠ .ok .decInit → issue cw s = .next s)

/-- R245: only the side's INIT and reset leave FAILED, and both clear ERR and start from the seed. -/
def Obligations.OnlyInitAndResetLeaveFailed : Prop :=
  ∀ s t : State, step s = .next t →
    (s.enc.phase = .failed → t.enc.phase ≠ .failed →
      ((∃ cw rest, s.port = .command cw :: rest ∧ decode cw = .ok .encInit) ∨
        (∃ rest, s.port = .reset :: rest)) ∧
      t.enc.err = none ∧ t.enc.next = 256 ∧ t.enc.width = 9 ∧ t.enc.cur = none ∧ t.enc.pkq = [] ∧
      (∀ c b, child t.enc.trie (.code c) b = none)) ∧
    (s.dec.phase = .failed → t.dec.phase ≠ .failed →
      ((∃ cw rest, s.port = .command cw :: rest ∧ decode cw = .ok .decInit) ∨
        (∃ rest, s.port = .reset :: rest)) ∧
      t.dec.err = none ∧ t.dec.size = 256 ∧ t.dec.width = 9 ∧ t.dec.prev = none ∧ t.dec.upq = [] ∧
      (∀ c, 256 ≤ c → tableAt t.dec.table c = none))

/-! ## Whole-machine rules -/

/-- The invariants of 10_state.md section 7 hold after reset, for every MAX_WIDTH an instance may
have. -/
def Obligations.InvHoldsAtReset : Prop :=
  ∀ mw : Nat, 9 ≤ mw → mw ≤ 16 → Inv (State.resetWith mw)

/-- 10_state.md section 7: the invariants hold after every command, successful or not, from every
state that has them. -/
def Obligations.StepKeepsInv : Prop :=
  ∀ s t : State, Inv s → step s = .next t → Inv t

/-- R43, R45, R79: from a state with the invariants every step completes: the model's own stops (log 5,
log 6) are never reached, and no command is refused. -/
def Obligations.StepAlwaysCompletes : Prop :=
  ∀ s : State, Inv s → ∃ t, step s = .next t

/-- R65, R66: the width laws, as the number of binary digits. -/
def Obligations.WidthsFollowTheDictionarySizes : Prop :=
  ∀ s t : State, Inv s → step s = .next t →
    t.enc.width = Nat.size t.enc.next ∧ t.dec.width = Nat.size (t.dec.size + 1) ∧
    (∀ c, t.dec.prev = some c → c ≤ 2 ^ t.dec.width - 2)

/-- R81, R30, R49: a command reads nothing but its own side and MAX_WIDTH, and writes nothing but its
own side. -/
def Obligations.ACommandTouchesOnlyItsSide : Prop :=
  ∀ (s t : State) (cw : Word), issue cw s = .next t →
    t.maxWidth = s.maxWidth ∧ t.port = s.port ∧
    (sideOfWord cw = .encode → t.dec = s.dec ∧
      ∀ (d : DecSide) (p : List HostInput),
        issue cw { s with dec := d, port := p } = .next { t with dec := d, port := p }) ∧
    (sideOfWord cw = .decode → t.enc = s.enc ∧
      ∀ (e : EncSide) (p : List HostInput),
        issue cw { s with enc := e, port := p } = .next { t with enc := e, port := p })

/-- R81, R273: interleaving the command streams of the two sides in any order gives each side the same
results as issuing its commands alone. -/
def Obligations.InterleavingDoesNotMatter : Prop :=
  ∀ (cws : List Word) (s t : State), issueAll cws s = .next t →
    (∃ u, issueAll (cws.filter (fun cw => sideOfWord cw = .encode)) s = .next u ∧
      u.enc = t.enc ∧ u.dec = s.dec) ∧
    (∃ u, issueAll (cws.filter (fun cw => sideOfWord cw = .decode)) s = .next u ∧
      u.dec = t.dec ∧ u.enc = s.enc)

/-- R38, R48, R246: delivered bytes are never retracted, by no command and no error: whatever is no reset
only appends to OUT_E and OUT_D. R270: not by reset either: the bytes delivered before the last reset
(the model's own fields, log 3) followed by those since are what has been delivered. -/
def Obligations.OutputPortsOnlyGrow : Prop :=
  ∀ s t : State, step s = .next t →
    ((∀ rest, s.port ≠ .reset :: rest) →
      s.enc.out <+: t.enc.out ∧ t.enc.earlier = s.enc.earlier ∧
      s.dec.out <+: t.dec.out ∧ t.dec.earlier = s.dec.earlier) ∧
    s.enc.earlier ++ s.enc.out <+: t.enc.earlier ++ t.enc.out ∧
    s.dec.earlier ++ s.dec.out <+: t.dec.earlier ++ t.dec.out

/-- R49: no step changes MAX_WIDTH. -/
def Obligations.MaxWidthNeverChanges : Prop :=
  ∀ s t : State, step s = .next t → t.maxWidth = s.maxWidth

/-- R47: UP.RESP is written only by UP_GET (and by reset, which is no command). -/
def Obligations.RespIsWrittenOnlyByUpGet : Prop :=
  ∀ (s t : State) (cw : Word), issue cw s = .next t → (∀ w, decode cw ≠ .ok (.upGet w)) →
    t.dec.resp = s.dec.resp

/-- R42: D.SEEN is set by a DEC_BYTE or DEC_CODE that succeeds, cleared by DEC_INIT, and written by no
other command. -/
def Obligations.SeenIsSetByBytesAndCodes : Prop :=
  ∀ (s t : State) (i : Instr), exec i s = .next t →
    (i = .decInit → t.dec.seen = false) ∧
    (((∃ b, i = .decByte b) ∨ (∃ c, i = .decCode c)) → s.dec.phase = .active → t.dec.phase = .active →
      t.dec.seen = true) ∧
    (i ≠ .decInit → (∀ b, i ≠ .decByte b) → (∀ c, i ≠ .decCode c) → t.dec.seen = s.dec.seen)

/-- R43: entries of T are written only by decoding, each once, and never removed but by DEC_INIT. -/
def Obligations.TableEntriesAreNeverRewritten : Prop :=
  ∀ (s t : State) (i : Instr), exec i s = .next t → i ≠ .decInit →
    (∀ c, c < s.dec.size → tableAt t.dec.table c = tableAt s.dec.table c) ∧
    s.dec.size ≤ t.dec.size ∧
    ((∀ b, i ≠ .decByte b) → (∀ c, i ≠ .decCode c) →
      t.dec.table = s.dec.table ∧ t.dec.size = s.dec.size ∧ t.dec.width = s.dec.width ∧
      t.dec.prev = s.dec.prev)

/-- R36: `Child` is written only by ENC_BYTE, which adds at most one entry, with the next code, and
changes none. -/
def Obligations.TrieIsWrittenOnlyByEncByte : Prop :=
  ∀ (s t : State) (i : Instr), exec i s = .next t → i ≠ .encInit →
    (∀ c b n, child s.enc.trie (.code c) b = some n → child t.enc.trie (.code c) b = some n) ∧
    (∀ c b n, child t.enc.trie (.code c) b = some n → child s.enc.trie (.code c) b = some n ∨
      (i = .encByte b ∧ s.enc.cur = some c ∧ n = s.enc.next ∧ t.enc.next = s.enc.next + 1)) ∧
    ((∀ b, i ≠ .encByte b) → t.enc.trie = s.enc.trie ∧ t.enc.next = s.enc.next)

/-- R33, R39 with R184 and R212: a width changes only by its side's INIT, which sets 9, or by growth: by
one in an ENC_BYTE that makes E.NEXT 2^E.WIDTH and in a DEC_CODE that leaves D.SIZE 2^D.WIDTH - 1. A
DEC_BYTE that decodes several codes may grow more than once: its first growth is at the threshold of
the width before, its last at the threshold below the width after. -/
def Obligations.WidthsChangeOnlyByInitAndGrowth : Prop :=
  ∀ (s t : State) (i : Instr), exec i s = .next t →
    (t.enc.width ≠ s.enc.width →
      (i = .encInit ∧ t.enc.width = 9) ∨
      ((∃ b, i = .encByte b) ∧ t.enc.width = s.enc.width + 1 ∧ t.enc.next = 2 ^ s.enc.width)) ∧
    (t.dec.width ≠ s.dec.width →
      (i = .decInit ∧ t.dec.width = 9) ∨
      ((∃ c, i = .decCode c) ∧ t.dec.width = s.dec.width + 1 ∧ t.dec.size = 2 ^ s.dec.width - 1) ∨
      ((∃ b, i = .decByte b) ∧ s.dec.width < t.dec.width ∧
        s.dec.size ≤ 2 ^ s.dec.width - 1 ∧ 2 ^ (t.dec.width - 1) - 1 ≤ t.dec.size))

/-- R71, R72: no dictionary outgrows its storage. -/
def Obligations.DictionariesNeverOverflow : Prop :=
  ∀ s t : State, Inv s → step s = .next t →
    (∀ c b n, child t.enc.trie (.code c) b = some n → 256 ≤ n ∧ n ≤ 2 ^ t.maxWidth - 1) ∧
    (∀ c sq, tableAt t.dec.table c = some sq → c ≤ 2 ^ t.maxWidth - 2 ∧ sq ≠ [])

/-! ## Dictionaries -/

/-- R36, R67: every code below E.NEXT has a path; a path determines its code; every non-empty prefix of
a path is the path of a code. -/
def Obligations.PathsAreInjectiveAndPrefixClosed : Prop :=
  ∀ (mw : Nat) (e : EncSide), EncLaws mw e →
    (∀ c, c < e.next → ∃ sq, path e.trie c = some sq ∧ sq ≠ []) ∧
    (∀ c c' sq, c < e.next → c' < e.next → path e.trie c = some sq → path e.trie c' = some sq → c = c') ∧
    (∀ c sq k, c < e.next → path e.trie c = some sq → 1 ≤ k → k ≤ sq.length →
      ∃ c', c' < e.next ∧ path e.trie c' = some (sq.take k))

/-- R127 with R122 to R124: for a candidate `Path(c)`, containment of its extension is one child
lookup. -/
def Obligations.ExtensionIsOneChildLookup : Prop :=
  ∀ (mw : Nat) (e : EncSide) (c : Nat) (sq : Seq) (b : Byte), EncLaws mw e → c < e.next →
    path e.trie c = some sq →
    contains e.trie (sq ++ [b]) = .ok (child e.trie (.code c) b).isSome ∧
    (∀ n, child e.trie (.code c) b = some n → indexOf e.trie (sq ++ [b]) = .ok n) ∧
    (child e.trie (.code c) b = none → indexOf e.trie (sq ++ [b]) = .error .lookup)

/-- R125, R126: Add on an extension of an entry, on a known sequence, on the empty sequence, and
outside the case the arena represents. -/
def Obligations.AddInsertsOneByteExtensions : Prop :=
  ∀ (mw : Nat) (e : EncSide), EncLaws mw e →
    add [] e = .error .argument ∧
    (∀ c sq, c < e.next → path e.trie c = some sq → add sq e = .ok (e, c, false)) ∧
    (∀ c sq b, c < e.next → path e.trie c = some sq → child e.trie (.code c) b = none →
      ∃ e', add (sq ++ [b]) e = .ok (e', e.next, true) ∧ e'.next = e.next + 1 ∧
        path e'.trie e.next = some (sq ++ [b]) ∧ (∀ k, k < e.next → path e'.trie k = path e.trie k) ∧
        add (sq ++ [b]) e' = .ok (e', e.next, false)) ∧
    (∀ c sq b b' s', c < e.next → path e.trie c = some sq → child e.trie (.code c) b = none →
      add (sq ++ b :: b' :: s') e = .error .outsideArena)

/-- R128 to R131: the seed, Append, Lookup, and the first byte of every entry. -/
def Obligations.AppendAddsTheNextCode : Prop :=
  ∀ (mw : Nat) (d : DecSide) (sq : Seq), DecLaws mw d →
    ((append sq d).2 = d.size ∧ (append sq d).1.size = d.size + 1 ∧
      tableAt (append sq d).1.table d.size = some sq ∧
      ∀ c, c ≠ d.size → tableAt (append sq d).1.table c = tableAt d.table c) ∧
    (∀ c, c < d.size → lookup d c = tableAt d.table c ∧
      ∃ b rest, tableAt d.table c = some (b :: rest) ∧ firstByte (b :: rest) = some b) ∧
    (∀ c, d.size ≤ c → lookup d c = none) ∧
    ((seedTable d).size = 256 ∧ (∀ b : Byte, lookup (seedTable d) b.toNat = some [b]) ∧
      (∀ c, 256 ≤ c → tableAt (seedTable d).table c = none))

/-! ## The codec -/

/-- R189 with R180: a session over a non-empty input succeeds exactly when the dictionary it built leaves
a width for its last code (with m insertions, E.NEXT = 256 + m and m + 1 <= 2^MAX_WIDTH - 256); it fails
with CAPACITY and nothing else, its dictionary full. -/
def Obligations.EncodeSessionFailsOnlyForCapacity : Prop :=
  ∀ (x : Seq) (s t : State), Inv s → x ≠ [] → execAll (encodeSession x) s = .next t →
    (encodeSucceeded t ∧ (t.enc.next - 256) + 1 ≤ 2 ^ s.maxWidth - 256) ∨
    (t.enc.phase = .failed ∧ t.enc.err = some .capacity ∧ t.enc.next = 2 ^ s.maxWidth)

/-- R219: the round trip. Every non-empty sequence whose encode session succeeds, from any state with
the invariants, is decoded from the bytes that session delivered, and the decoder's table is then the
encoder's dictionary (R68). -/
def Obligations.RoundTrip : Prop :=
  ∀ (x : Seq) (s t : State), Inv s → x ≠ [] →
    execAll (encodeSession x) s = .next t → encodeSucceeded t →
    ∃ y : Seq, t.enc.out = s.enc.out ++ y ∧
      ∃ u, execAll (decodeSession y) t = .next u ∧ decodeSucceeded u ∧
        u.dec.out = t.dec.out ++ x ∧ u.dec.size = t.enc.next ∧
        (∀ c, c < u.dec.size → tableAt u.dec.table c = path t.enc.trie c)

/-! ## Register read port and assembler -/

/-- R50: an address that names no register reads 0. -/
def Obligations.UnlistedAddressesReadZero : Prop :=
  ∀ (addr : BitVec 8) (s : State),
    addr.toNat ∉ [0x00, 0x10, 0x11, 0x12, 0x13, 0x14, 0x20, 0x21, 0x22, 0x23, 0x24, 0x25, 0x26] →
    readRegister addr s = 0#32

/-- R51 to R56: the words of CONFIG and of the encode side's registers, bit for bit, with the numbers
of the phases (R31) and of the errors (R241), and their reset values. -/
def Obligations.EncodeSideRegistersShowTheState : Prop :=
  (∀ mw : Nat, 9 ≤ mw → mw ≤ 16 →
    (readRegister 0x00#8 (State.resetWith mw)).toNat = mw ∧
    readRegister 0x10#8 (State.resetWith mw) = 0x0#32 ∧
    readRegister 0x11#8 (State.resetWith mw) = 0x9#32 ∧
    readRegister 0x12#8 (State.resetWith mw) = 0x100#32 ∧
    readRegister 0x13#8 (State.resetWith mw) = 0x0#32 ∧
    readRegister 0x14#8 (State.resetWith mw) = 0x0#32) ∧
  ∀ s : State, Inv s →
    (readRegister 0x00#8 s).toNat = s.maxWidth ∧
    (readRegister 0x10#8 s).toNat =
      (match s.enc.phase with
        | .idle => 0
        | .active => 1
        | .failed => 2) +
      16 * (match s.enc.err with
        | none => 0
        | some .illegal => 1
        | some .notActive => 2
        | some .emptyInput => 3
        | some .widthOverflow => 4
        | some .format => 5
        | some .truncated => 6
        | some .capacity => 7
        | some .underflow => 8
        | some .queueFull => 9) ∧
    (readRegister 0x11#8 s).toNat = s.enc.width ∧
    (readRegister 0x12#8 s).toNat = s.enc.next ∧
    (s.enc.cur = none → readRegister 0x13#8 s = 0#32) ∧
    (∀ c, s.enc.cur = some c → (readRegister 0x13#8 s).toNat = 2 ^ 16 + c) ∧
    (∀ i, i < 32 → (readRegister 0x14#8 s).getLsbD i =
      if i < 3 then s.enc.pkq.length.testBit i
      else if 8 ≤ i ∧ i ≤ 15 then (s.enc.pkq[15 - i]?).getD false
      else false)

/-- R57 to R63: the words of the decode side's registers, bit for bit, with the numbers of the phases
(R31) and of the errors (R241), and their reset values. -/
def Obligations.DecodeSideRegistersShowTheState : Prop :=
  (∀ mw : Nat,
    readRegister 0x20#8 (State.resetWith mw) = 0x0#32 ∧
    readRegister 0x21#8 (State.resetWith mw) = 0x9#32 ∧
    readRegister 0x22#8 (State.resetWith mw) = 0x100#32 ∧
    readRegister 0x23#8 (State.resetWith mw) = 0x0#32 ∧
    readRegister 0x24#8 (State.resetWith mw) = 0x0#32 ∧
    readRegister 0x25#8 (State.resetWith mw) = 0x0#32 ∧
    readRegister 0x26#8 (State.resetWith mw) = 0x0#32) ∧
  ∀ s : State, Inv s →
    (readRegister 0x20#8 s).toNat =
      (match s.dec.phase with
        | .idle => 0
        | .active => 1
        | .failed => 2) +
      16 * (match s.dec.err with
        | none => 0
        | some .illegal => 1
        | some .notActive => 2
        | some .emptyInput => 3
        | some .widthOverflow => 4
        | some .format => 5
        | some .truncated => 6
        | some .capacity => 7
        | some .underflow => 8
        | some .queueFull => 9) +
      256 * (if s.dec.seen then 1 else 0) ∧
    (readRegister 0x21#8 s).toNat = s.dec.width ∧
    (readRegister 0x22#8 s).toNat = s.dec.size ∧
    (s.dec.prev = none → readRegister 0x23#8 s = 0#32) ∧
    (∀ c, s.dec.prev = some c → (readRegister 0x23#8 s).toNat = 2 ^ 16 + c) ∧
    (readRegister 0x24#8 s).toNat = s.dec.upq.length ∧
    (∀ i, i < 32 → (readRegister 0x25#8 s).getLsbD i = (s.dec.upq[31 - i]?).getD false) ∧
    readRegister 0x26#8 s = s.dec.resp

/-- R101: whatever a line assembles to, every command of it has its operands in range, so it has a
word, and that word decodes to it. -/
def Obligations.AssembledCommandsAreWellFormed : Prop :=
  ∀ (line : List Char) (is : List Instr), assembleLine line = .ok is → ∀ i ∈ is, i.WellFormed

/-- R103: each of the three pseudo-instructions, with byte and string operands in any mixture (a byte is
`inl`, a string of ASCII characters `inr`), assembles to its command of each byte in order, whatever line
its tokens are read from; without an operand it is an error; and no other name begins a line than the
eleven mnemonics and these three. Empty strings, on which the spec is silent (log 10), are left out. -/
def Obligations.PseudoInstructionsExpandByteByByte : Prop :=
  (∀ p ∈ ([("ENC_BYTES", .encByte), ("DEC_BYTES", .decByte), ("UP_PUTS", .upPut)] :
      List (String × (Byte → Instr))),
    (∀ (line : List Char) (ts : List AsmToken) (xs : List (Byte ⊕ List Char)),
      asmTokens .gap line = .ok (.word p.1.toList :: ts) →
      asmOperands ts = .ok (xs.map (Sum.elim (fun b => .number b.toNat) .text)) → xs ≠ [] →
      (∀ cs, .inr cs ∈ xs → cs ≠ [] ∧ ∀ c ∈ cs, c.toNat < 128) →
      assembleLine line = .ok ((xs.flatMap
        (Sum.elim (fun b => [b]) (fun cs => cs.map (fun c => BitVec.ofNat 8 c.toNat)))).map p.2)) ∧
    (∀ line : List Char, asmTokens .gap line = .ok [.word p.1.toList] →
      ∀ is, assembleLine line ≠ .ok is)) ∧
  assembleLine "ENC_BYTES 65, \"BC\", 'D', 0xFF ; five bytes".toList =
    .ok [.encByte 65#8, .encByte 66#8, .encByte 67#8, .encByte 68#8, .encByte 255#8] ∧
  assembleLine "DEC_BYTES 0x20, 0x90".toList = .ok [.decByte 0x20#8, .decByte 0x90#8] ∧
  assembleLine "UP_PUTS \"A\"".toList = .ok [.upPut 65#8] ∧
  (∀ m : List Char, (asmMnemonics.lookup m).isSome ↔
    m ∈ ["ENC_INIT", "ENC_BYTE", "ENC_END", "PK_PUT", "PK_FLUSH", "DEC_INIT", "DEC_BYTE", "DEC_END",
      "UP_PUT", "UP_GET", "DEC_CODE", "ENC_BYTES", "DEC_BYTES", "UP_PUTS"].map String.toList)
end

