-- ==== Sys2Proof/Laws/Operands.lean ====
section
/-!
SUPPORT. Laws of bit lists: lengths, `val` of an append, and that `val` and `bits_w` are inverse.
-/

namespace Sys2Proof.Machine

@[simp] theorem bitsOf_length (w v : Nat) : (bitsOf w v).length = w := by
  induction w with
  | zero => rfl
  | succ w ih => simp [bitsOf, ih]

theorem bitsOf_getElem? (w v i : Nat) (h : i < w) : (bitsOf w v)[i]? = some (v.testBit (w - 1 - i)) := by
  induction w generalizing i with
  | zero => omega
  | succ w ih =>
    cases i with
    | zero => simp [bitsOf]
    | succ i =>
      rw [bitsOf, List.getElem?_cons_succ, ih i (by omega)]
      congr 2
      omega

@[simp] theorem valOf_nil : valOf [] = 0 := rfl

theorem valOf_foldl (q : Bits) (a : Nat) :
    q.foldl (fun acc b => 2 * acc + b.toNat) a = a * 2 ^ q.length + valOf q := by
  induction q generalizing a with
  | nil => simp
  | cons b q ih =>
    have h : valOf (b :: q) = (2 * 0 + b.toNat) * 2 ^ q.length + valOf q := ih _
    rw [List.foldl_cons, ih, h, List.length_cons, pow_succ]
    ring

theorem valOf_cons (b : Bool) (q : Bits) : valOf (b :: q) = b.toNat * 2 ^ q.length + valOf q := by
  rw [valOf, List.foldl_cons, valOf_foldl]
  simp

theorem valOf_append (p q : Bits) : valOf (p ++ q) = valOf p * 2 ^ q.length + valOf q := by
  rw [valOf, List.foldl_append, valOf_foldl]
  rfl

theorem valOf_lt (q : Bits) : valOf q < 2 ^ q.length := by
  induction q with
  | nil => simp
  | cons b q ih =>
    rw [valOf_cons, List.length_cons, pow_succ]
    have : b.toNat ≤ 1 := Bool.toNat_le b
    nlinarith

/-- The value of `bits_w(v)` is the low `w` bits of `v`. -/
theorem valOf_bitsOf_mod (w v : Nat) : valOf (bitsOf w v) = v % 2 ^ w := by
  induction w with
  | zero => simp [bitsOf, Nat.mod_one]
  | succ w ih => rw [bitsOf, valOf_cons, bitsOf_length, ih, Nat.mod_pow_succ, Nat.toNat_testBit]; ring

theorem valOf_bitsOf (w v : Nat) (h : v < 2 ^ w) : valOf (bitsOf w v) = v := by
  rw [valOf_bitsOf_mod, Nat.mod_eq_of_lt h]

/-- `bits_w` reads only the low `w` bits. -/
theorem bitsOf_mod (w v k : Nat) (h : w ≤ k) : bitsOf w (v % 2 ^ k) = bitsOf w v := by
  induction w with
  | zero => rfl
  | succ w ih =>
    rw [bitsOf, bitsOf, ih (by omega), Nat.testBit_mod_two_pow]
    simp [show w < k by omega]

theorem bitsOf_add_mul (w v k : Nat) : bitsOf w (k * 2 ^ w + v) = bitsOf w v := by
  rw [← bitsOf_mod w (k * 2 ^ w + v) w le_rfl, ← bitsOf_mod w v w le_rfl]
  congr 1
  rw [Nat.add_mod, Nat.mul_mod_left, Nat.zero_add, Nat.mod_mod]

/-- A bit list is `bits_w` of its value. -/
theorem bitsOf_valOf (q : Bits) : bitsOf q.length (valOf q) = q := by
  induction q with
  | nil => rfl
  | cons b q ih =>
    rw [List.length_cons, bitsOf, valOf_cons]
    congr 1
    · have h : valOf q < 2 ^ q.length := valOf_lt q
      rw [Nat.testBit_eq_decide_div_mod_eq]
      rw [show b.toNat * 2 ^ q.length + valOf q = valOf q + 2 ^ q.length * b.toNat by ring]
      rw [Nat.add_mul_div_left _ _ (by positivity), Nat.div_eq_of_lt h]
      cases b <;> simp
    · rw [bitsOf_add_mul, ih]

theorem valOf_injective {p q : Bits} (hl : p.length = q.length) (hv : valOf p = valOf q) : p = q := by
  rw [← bitsOf_valOf p, ← bitsOf_valOf q, hl, hv]

@[simp] theorem byteBits_length (b : Byte) : (byteBits b).length = 8 := bitsOf_length _ _

@[simp] theorem byteOfBits_byteBits (b : Byte) : byteOfBits (byteBits b) = b := by
  apply BitVec.eq_of_toNat_eq
  rw [byteOfBits, byteBits, valOf_bitsOf _ _ b.isLt]
  simp

theorem byteBits_byteOfBits (q : Bits) (h : q.length = 8) : byteBits (byteOfBits q) = q := by
  have hv : valOf q < 2 ^ 8 := h ▸ valOf_lt q
  rw [byteBits, byteOfBits, BitVec.toNat_ofNat, Nat.mod_eq_of_lt hv, ← h, bitsOf_valOf]

@[simp] theorem flatMap_byteBits_length (ys : Seq) : (ys.flatMap byteBits).length = 8 * ys.length := by
  induction ys with
  | nil => rfl
  | cons y ys ih => simp [ih]; omega

/-- A packed stream's bytes are determined by its bits. -/
theorem flatMap_byteBits_injective {ys zs : Seq} (h : ys.flatMap byteBits = zs.flatMap byteBits) : ys = zs := by
  induction ys generalizing zs with
  | nil =>
    have := congrArg List.length h
    cases zs with
    | nil => rfl
    | cons z zs => simp at this; omega
  | cons y ys ih =>
    cases zs with
    | nil =>
      have := congrArg List.length h
      simp at this
    | cons z zs =>
      rw [List.flatMap_cons, List.flatMap_cons] at h
      obtain ⟨h1, h2⟩ := List.append_inj h (by simp)
      have : y = z := by rw [← byteOfBits_byteBits y, h1, byteOfBits_byteBits]
      rw [this, ih h2]

/-- `Bits(v, w)` succeeds exactly when the value fits (R150). -/
theorem encodeBits_ok {v w : Nat} (h : v < 2 ^ w) : encodeBits v w = .ok (bitsOf w v) := by
  simp [encodeBits, Nat.not_le.mpr h]

theorem encodeBits_error {v w : Nat} (h : 2 ^ w ≤ v) : encodeBits v w = .error .widthOverflow := by
  simp [encodeBits, h]

end Sys2Proof.Machine
end

