-- ==== Sys2Proof/Laws/State.lean ====
section
/-!
SUPPORT. One lemma per field per named update of the state, so that no proof unfolds an update.
-/

namespace Sys2Proof.Machine

/-! ## Error entry (R243) -/

@[simp] theorem takeError_encode (e : ErrCode) (s : State) :
    takeError .encode e s = { s with enc := { s.enc with phase := .failed, err := some e } } := rfl

@[simp] theorem takeError_decode (e : ErrCode) (s : State) :
    takeError .decode e s = { s with dec := { s.dec with phase := .failed, err := some e } } := rfl

@[simp] theorem phaseOf_encode (s : State) : phaseOf .encode s = s.enc.phase := rfl
@[simp] theorem phaseOf_decode (s : State) : phaseOf .decode s = s.dec.phase := rfl

/-! ## Seeds (R270, R181, R210) -/

section
variable (p : Phase) (r : Word) (e : EncSide) (d : DecSide)

@[simp] theorem seedEnc_phase : (seedEnc p e).phase = p := rfl
@[simp] theorem seedEnc_err : (seedEnc p e).err = none := rfl
@[simp] theorem seedEnc_width : (seedEnc p e).width = 9 := rfl
@[simp] theorem seedEnc_next : (seedEnc p e).next = 256 := rfl
@[simp] theorem seedEnc_cur : (seedEnc p e).cur = none := rfl
@[simp] theorem seedEnc_trie : (seedEnc p e).trie = [] := rfl
@[simp] theorem seedEnc_pkq : (seedEnc p e).pkq = [] := rfl
@[simp] theorem seedEnc_out : (seedEnc p e).out = e.out := rfl
@[simp] theorem seedEnc_earlier : (seedEnc p e).earlier = e.earlier := rfl
@[simp] theorem seedDec_phase : (seedDec p r d).phase = p := rfl
@[simp] theorem seedDec_err : (seedDec p r d).err = none := rfl
@[simp] theorem seedDec_width : (seedDec p r d).width = 9 := rfl
@[simp] theorem seedDec_size : (seedDec p r d).size = 256 := rfl
@[simp] theorem seedDec_prev : (seedDec p r d).prev = none := rfl
@[simp] theorem seedDec_seen : (seedDec p r d).seen = false := rfl
@[simp] theorem seedDec_table : (seedDec p r d).table = [] := rfl
@[simp] theorem seedDec_upq : (seedDec p r d).upq = [] := rfl
@[simp] theorem seedDec_resp : (seedDec p r d).resp = r := rfl
@[simp] theorem seedDec_out : (seedDec p r d).out = d.out := rfl
@[simp] theorem seedDec_earlier : (seedDec p r d).earlier = d.earlier := rfl
@[simp] theorem restartOutE_out : (restartOutE e).out = [] := rfl
@[simp] theorem restartOutE_earlier : (restartOutE e).earlier = e.earlier ++ e.out := rfl
@[simp] theorem restartOutD_out : (restartOutD d).out = [] := rfl
@[simp] theorem restartOutD_earlier : (restartOutD d).earlier = d.earlier ++ d.out := rfl
end

/-- R271: reset is the seed in phase IDLE. -/
theorem encReset_eq_seed : EncSide.reset = seedEnc .idle EncSide.reset := rfl
theorem decReset_eq_seed : DecSide.reset = seedDec .idle 0#32 DecSide.reset := rfl

section
variable (s : State) (mw : Nat)

@[simp] theorem resetWith_enc : (State.resetWith mw).enc = EncSide.reset := rfl
@[simp] theorem resetWith_dec : (State.resetWith mw).dec = DecSide.reset := rfl
@[simp] theorem resetWith_maxWidth : (State.resetWith mw).maxWidth = mw := rfl
@[simp] theorem resetWith_port : (State.resetWith mw).port = [] := rfl
@[simp] theorem applyReset_enc : (applyReset s).enc = seedEnc .idle (restartOutE s.enc) := rfl
@[simp] theorem applyReset_dec : (applyReset s).dec = seedDec .idle 0#32 (restartOutD s.dec) := rfl
@[simp] theorem applyReset_maxWidth : (applyReset s).maxWidth = s.maxWidth := rfl
@[simp] theorem applyReset_port : (applyReset s).port = s.port := rfl
end

/-! ## Dictionary updates -/

section
variable (c : Nat) (b : Byte) (e : EncSide) (sq : Seq) (d : DecSide)

@[simp] theorem insertChild_phase : (insertChild c b e).phase = e.phase := rfl
@[simp] theorem insertChild_err : (insertChild c b e).err = e.err := rfl
@[simp] theorem insertChild_width : (insertChild c b e).width = e.width := rfl
@[simp] theorem insertChild_next : (insertChild c b e).next = e.next + 1 := rfl
@[simp] theorem insertChild_cur : (insertChild c b e).cur = e.cur := rfl
@[simp] theorem insertChild_trie : (insertChild c b e).trie = setChild e.trie c b e.next := rfl
@[simp] theorem insertChild_pkq : (insertChild c b e).pkq = e.pkq := rfl
@[simp] theorem insertChild_out : (insertChild c b e).out = e.out := rfl
@[simp] theorem insertChild_earlier : (insertChild c b e).earlier = e.earlier := rfl

@[simp] theorem encGrow_phase : (encGrow e).phase = e.phase := rfl
@[simp] theorem encGrow_err : (encGrow e).err = e.err := rfl
@[simp] theorem encGrow_width : (encGrow e).width = encGrownWidth e.next e.width := rfl
@[simp] theorem encGrow_next : (encGrow e).next = e.next := rfl
@[simp] theorem encGrow_cur : (encGrow e).cur = e.cur := rfl
@[simp] theorem encGrow_trie : (encGrow e).trie = e.trie := rfl
@[simp] theorem encGrow_pkq : (encGrow e).pkq = e.pkq := rfl
@[simp] theorem encGrow_out : (encGrow e).out = e.out := rfl
@[simp] theorem encGrow_earlier : (encGrow e).earlier = e.earlier := rfl

@[simp] theorem append_code : (append sq d).2 = d.size := rfl
@[simp] theorem append_side : (append sq d).1 =
    { d with table := setTable d.table d.size sq, size := d.size + 1 } := rfl

@[simp] theorem emitEntry_phase : (emitEntry sq c d).phase = d.phase := rfl
@[simp] theorem emitEntry_err : (emitEntry sq c d).err = d.err := rfl
@[simp] theorem emitEntry_width : (emitEntry sq c d).width = d.width := rfl
@[simp] theorem emitEntry_size : (emitEntry sq c d).size = d.size := rfl
@[simp] theorem emitEntry_prev : (emitEntry sq c d).prev = some c := rfl
@[simp] theorem emitEntry_seen : (emitEntry sq c d).seen = d.seen := rfl
@[simp] theorem emitEntry_table : (emitEntry sq c d).table = d.table := rfl
@[simp] theorem emitEntry_upq : (emitEntry sq c d).upq = d.upq := rfl
@[simp] theorem emitEntry_resp : (emitEntry sq c d).resp = d.resp := rfl
@[simp] theorem emitEntry_out : (emitEntry sq c d).out = d.out ++ sq := rfl
@[simp] theorem emitEntry_earlier : (emitEntry sq c d).earlier = d.earlier := rfl

@[simp] theorem decGrow_phase : (decGrow d).phase = d.phase := rfl
@[simp] theorem decGrow_err : (decGrow d).err = d.err := rfl
@[simp] theorem decGrow_width : (decGrow d).width = decGrownWidth d.size d.width := rfl
@[simp] theorem decGrow_size : (decGrow d).size = d.size := rfl
@[simp] theorem decGrow_prev : (decGrow d).prev = d.prev := rfl
@[simp] theorem decGrow_seen : (decGrow d).seen = d.seen := rfl
@[simp] theorem decGrow_table : (decGrow d).table = d.table := rfl
@[simp] theorem decGrow_upq : (decGrow d).upq = d.upq := rfl
@[simp] theorem decGrow_resp : (decGrow d).resp = d.resp := rfl
@[simp] theorem decGrow_out : (decGrow d).out = d.out := rfl
@[simp] theorem decGrow_earlier : (decGrow d).earlier = d.earlier := rfl
end

/-! ## Command port -/

section
variable (s : State) (n w : Nat)

@[simp] theorem withFetchWord_enc : (s.withFetchWord n w).enc = s.enc := rfl
@[simp] theorem withFetchWord_dec : (s.withFetchWord n w).dec = s.dec := rfl
@[simp] theorem withFetchWord_maxWidth : (s.withFetchWord n w).maxWidth = s.maxWidth := rfl
@[simp] theorem withFetchWord_port : (s.withFetchWord n w).port =
    .command (BitVec.ofNat 32 (w % 2 ^ n)) :: s.port := rfl
end

end Sys2Proof.Machine
end

