-- ==== Sys2Proof/Laws/BitChannel.lean ====
section
/-!
SUPPORT. What the packer and the unpacker do, once: draining, packing, flushing, pushing, popping.
-/

namespace Sys2Proof.Machine

/-! ## Packer -/

/-- The loop of R152 moves whole bytes from the front of the queue and leaves less than one. -/
theorem drainLoop_spec (fuel : Nat) (q : Bits) (out : Seq) (h : q.length < 8 * (fuel + 1)) :
    Drained q out (drainLoop fuel q out).1 (drainLoop fuel q out).2 := by
  induction fuel generalizing q out with
  | zero => exact ⟨by simpa [drainLoop] using by omega, [], by simp [drainLoop]⟩
  | succ fuel ih =>
    by_cases hq : 8 ≤ q.length
    · obtain ⟨hl, ys, ho, hb⟩ := ih (q.drop 8) (out ++ [byteOfBits (q.take 8)]) (by simp; omega)
      simp only [drainLoop, hq, if_true]
      refine ⟨hl, byteOfBits (q.take 8) :: ys, by simp [ho], ?_⟩
      rw [List.flatMap_cons, List.append_assoc, hb, byteBits_byteOfBits _ (by simp [hq])]
      exact List.take_append_drop 8 q
    · simp only [drainLoop, hq, if_false]
      exact ⟨by omega, [], by simp⟩

/-- Draining is determined by the pending bits. -/
theorem Drained.unique {p q q' : Bits} {out o o' : Seq} (h : Drained p out q o) (h' : Drained p out q' o') :
    q = q' ∧ o = o' := by
  obtain ⟨hl, ys, rfl, hb⟩ := h
  obtain ⟨hl', zs, rfl, hb'⟩ := h'
  have e := hb.trans hb'.symm
  have hlen := congrArg List.length e
  simp only [List.length_append, flatMap_byteBits_length] at hlen
  obtain ⟨e1, e2⟩ := List.append_inj e (by simp only [flatMap_byteBits_length]; omega)
  exact ⟨e2, by rw [flatMap_byteBits_injective e1]⟩

/-- R152: draining changes the queue and the output only. -/
theorem drain_spec (e : EncSide) : ∃ q out, Drained e.pkq e.out q out ∧
    drain e = { e with pkq := q, out := out } :=
  ⟨_, _, drainLoop_spec e.pkq.length e.pkq e.out (by omega), rfl⟩

/-- R151: packing a value that fits. -/
theorem packBits_ok {v w : Nat} (h : v < 2 ^ w) (e : EncSide) : ∃ q out,
    Drained (e.pkq ++ bitsOf w v) e.out q out ∧ packBits v w e = .ok { e with pkq := q, out := out } := by
  obtain ⟨q, out, hd, he⟩ := drain_spec { e with pkq := e.pkq ++ bitsOf w v }
  exact ⟨q, out, hd, by rw [packBits, encodeBits_ok h]; exact congrArg Except.ok he⟩

theorem packBits_error {v w : Nat} (h : 2 ^ w ≤ v) (e : EncSide) :
    packBits v w e = .error (.error .widthOverflow) := by
  rw [packBits, encodeBits_error h]; rfl

/-- Everything R151 can do. -/
theorem packBits_cases (v w : Nat) (e : EncSide) :
    (∃ q out, Drained (e.pkq ++ bitsOf w v) e.out q out ∧ packBits v w e = .ok { e with pkq := q, out := out }) ∨
    (2 ^ w ≤ v ∧ packBits v w e = .error (.error .widthOverflow)) := by
  by_cases h : v < 2 ^ w
  · exact .inl (packBits_ok h e)
  · exact .inr ⟨by omega, packBits_error (by omega) e⟩

/-- R153: the partial byte is completed by zero bits; an empty queue delivers nothing. -/
theorem packFlush_spec (e : EncSide) (h : e.pkq.length ≤ 7) : ∃ ys : Seq,
    ys.flatMap byteBits = e.pkq ++ List.replicate ((8 - e.pkq.length % 8) % 8) false ∧
    packFlush e = { e with pkq := [], out := e.out ++ ys } := by
  by_cases h0 : 0 < e.pkq.length
  · obtain ⟨q, out, ⟨hl, ys, ho, hb⟩, he⟩ :=
      drain_spec { e with pkq := e.pkq ++ List.replicate (8 - e.pkq.length) false }
    have hlen := congrArg List.length hb
    simp only [List.length_append, flatMap_byteBits_length, List.length_replicate] at hlen
    have hq : q = [] := List.length_eq_zero_iff.mp (by omega)
    refine ⟨ys, ?_, ?_⟩
    · rw [show (8 - e.pkq.length % 8) % 8 = 8 - e.pkq.length by omega]
      simpa [hq] using hb
    · rw [packFlush, if_pos h0, he, hq, ho]
  · have hq : e.pkq = [] := List.length_eq_zero_iff.mp (by omega)
    exact ⟨[], by simp [hq], by rw [packFlush, if_neg h0]; simp [← hq]⟩

/-! ## Unpacker -/

theorem upPush_ok {d : DecSide} (b : Byte) (h : d.upq.length ≤ 24) :
    upPush b d = .ok { d with upq := d.upq ++ byteBits b } := by
  simp [upPush, Config.upQueueCapacity, show ¬ 32 < d.upq.length + 8 by omega]

theorem upPush_error {d : DecSide} (b : Byte) (h : 24 < d.upq.length) :
    upPush b d = .error (.error .queueFull) := by
  simp [upPush, Config.upQueueCapacity, raise, show 32 < d.upq.length + 8 by omega]

theorem upPop_ok {d : DecSide} {w : Nat} (h : w ≤ d.upq.length) :
    upPop w d = .ok (valOf (d.upq.take w), { d with upq := d.upq.drop w }) := by
  simp [upPop, show ¬ d.upq.length < w by omega]

theorem upPop_error {d : DecSide} {w : Nat} (h : d.upq.length < w) :
    upPop w d = .error (.error .underflow) := by
  simp [upPop, raise, h]

/-- The bits an UP_GET takes have a value below 2^w. -/
theorem valOf_take_lt (q : Bits) (w : Nat) : valOf (q.take w) < 2 ^ w :=
  lt_of_lt_of_le (valOf_lt _) (Nat.pow_le_pow_right (by decide) (by simp))

theorem upGetBody_ok {d : DecSide} {w : Nat} (h : w ≤ d.upq.length) :
    upGetBody w d = .ok { d with
      upq := d.upq.drop w, resp := BitVec.ofNat 32 (valOf (d.upq.take w)) } := by
  rw [upGetBody, upPop_ok h]

theorem upGetBody_error {d : DecSide} {w : Nat} (h : d.upq.length < w) :
    upGetBody w d = .error (.error .underflow) := by
  rw [upGetBody, upPop_error h]

end Sys2Proof.Machine
end

