-- ==== Sys2Proof/Laws/Decode.lean ====
section
/-!
SUPPORT. The fields of the word the encoder writes, and the decoder's checks as one equation each.
-/

namespace Sys2Proof

variable (op w imm : Nat)

/-- The word as a number: the fields at their places (R90). -/
theorem commandWord_toNat : (commandWord op w imm).toNat =
    (op % 2 ^ 4) * 2 ^ 28 + (w % 2 ^ 5) * 2 ^ 16 + imm % 2 ^ 16 := by
  have h1 : imm % 2 ^ 16 < 2 ^ 16 := Nat.mod_lt _ (by decide)
  have h2 : w % 2 ^ 5 < 2 ^ 5 := Nat.mod_lt _ (by decide)
  simp only [commandWord, BitVec.toNat_append, BitVec.toNat_ofNat, Nat.zero_mod, Nat.or_zero]
  rw [← Nat.shiftLeft_add_eq_or_of_lt h2, ← Nat.shiftLeft_add_eq_or_of_lt h1]
  simp only [Nat.shiftLeft_eq]
  omega

theorem fieldOp_commandWord (h : op < 16) : fieldOp (commandWord op w imm) = op := by
  simp only [fieldOp, BitVec.extractLsb'_toNat, commandWord_toNat, Nat.shiftRight_eq_div_pow]
  omega

theorem fieldRsv_commandWord : fieldRsv (commandWord op w imm) = 0 := by
  simp only [fieldRsv, BitVec.extractLsb'_toNat, commandWord_toNat, Nat.shiftRight_eq_div_pow]
  omega

theorem fieldW_commandWord (h : w < 2 ^ 5) : fieldW (commandWord op w imm) = w := by
  simp only [fieldW, BitVec.extractLsb'_toNat, commandWord_toNat, Nat.shiftRight_eq_div_pow]
  omega

theorem fieldImm_commandWord (h : imm < 2 ^ 16) : fieldImm (commandWord op w imm) = imm := by
  simp only [fieldImm, BitVec.extractLsb'_toNat, commandWord_toNat, Nat.shiftRight_eq_div_pow]
  omega

theorem fieldImmHigh_commandWord (h : imm < 2 ^ 8) : fieldImmHigh (commandWord op w imm) = 0 := by
  simp only [fieldImmHigh, BitVec.extractLsb'_toNat, commandWord_toNat, Nat.shiftRight_eq_div_pow]
  omega

theorem fieldByte_commandWord (b : Byte) : fieldByte (commandWord op w b.toNat) = b := by
  have := b.isLt
  apply BitVec.eq_of_toNat_eq
  simp only [fieldByte, BitVec.extractLsb'_toNat, commandWord_toNat, Nat.shiftRight_eq_div_pow]
  omega

/-- A word is its fields: the encoder's word of the decoder's fields, when RSV is 0. -/
theorem commandWord_fields (cw : Word) (h : fieldRsv cw = 0) :
    commandWord (fieldOp cw) (fieldW cw) (fieldImm cw) = cw := by
  have := cw.isLt
  apply BitVec.eq_of_toNat_eq
  rw [commandWord_toNat]
  simp only [fieldRsv, fieldOp, fieldW, fieldImm, BitVec.extractLsb'_toNat, Nat.shiftRight_eq_div_pow] at h ⊢
  omega

theorem fieldImm_eq_byte (cw : Word) (h : fieldImmHigh cw = 0) : fieldImm cw = (fieldByte cw).toNat := by
  have := cw.isLt
  simp only [fieldImmHigh, fieldImm, fieldByte, BitVec.extractLsb'_toNat, Nat.shiftRight_eq_div_pow] at h ⊢
  omega

theorem fieldW_lt (cw : Word) : fieldW cw < 2 ^ 5 := (cw.extractLsb' 16 5).isLt

theorem fieldImm_lt (cw : Word) : fieldImm cw < 2 ^ 16 := (cw.extractLsb' 0 16).isLt

/-- R91: bit 31 is bit 3 of OP. -/
theorem sideOfWord_eq (cw : Word) : sideOfWord cw = if 8 ≤ fieldOp cw then .decode else .encode := by
  have h := cw.isLt
  have : cw.getLsbD 31 = decide (8 ≤ fieldOp cw) := by
    rw [BitVec.getLsbD, Nat.testBit_eq_decide_div_mod_eq]
    simp only [fieldOp, BitVec.extractLsb'_toNat, Nat.shiftRight_eq_div_pow]
    congr 1
    apply propext
    omega
  rw [sideOfWord, this]
  simp

variable {cw : Word} {i : Instr}

theorem decodeBare_ok {j : Instr} : decodeBare cw j = .ok i ↔
    fieldRsv cw = 0 ∧ fieldW cw = 0 ∧ fieldImm cw = 0 ∧ j = i := by
  unfold decodeBare
  split_ifs <;> simp_all

theorem decodeWithByte_ok {f : Byte → Instr} : decodeWithByte cw f = .ok i ↔
    fieldRsv cw = 0 ∧ fieldW cw = 0 ∧ fieldImmHigh cw = 0 ∧ f (fieldByte cw) = i := by
  unfold decodeWithByte
  split_ifs <;> simp_all

theorem decodeWithWidthAndValue_ok {f : Nat → Nat → Instr} : decodeWithWidthAndValue cw f = .ok i ↔
    fieldRsv cw = 0 ∧ f (fieldW cw) (fieldImm cw) = i := by
  unfold decodeWithWidthAndValue
  split_ifs <;> simp_all

theorem decodeWithWidth_ok {f : Nat → Instr} : decodeWithWidth cw f = .ok i ↔
    fieldRsv cw = 0 ∧ fieldImm cw = 0 ∧ f (fieldW cw) = i := by
  unfold decodeWithWidth
  split_ifs <;> simp_all

theorem decodeWithCode_ok {f : Nat → Instr} : decodeWithCode cw f = .ok i ↔
    fieldRsv cw = 0 ∧ fieldW cw = 0 ∧ f (fieldImm cw) = i := by
  unfold decodeWithCode
  split_ifs <;> simp_all

/-- R91: a legal word is charged to its command's side. -/
theorem sideOfWord_of_decode (h : decode cw = .ok i) : sideOfWord cw = i.side := by
  rw [sideOfWord_eq]
  unfold decode at h
  split at h <;>
    simp_all only [decodeBare_ok, decodeWithByte_ok, decodeWithWidthAndValue_ok, decodeWithWidth_ok,
      decodeWithCode_ok, reduceCtorEq] <;>
    (obtain ⟨-, -, -, rfl⟩ := h; rfl)

end Sys2Proof
end

