-- ==== Sys2Proof/Laws/Ops.lean ====
section
/-!
SUPPORT. What the dispatch can do, once: `runEnc` and `runDec` by phase and by outcome, and `issue`
and `step` by what they are given.
-/

namespace Sys2Proof.Machine

/-! ## Gates (R242) -/

@[simp] theorem gate_anyPhase (p : Phase) : gate .anyPhase p = .run := rfl
@[simp] theorem gate_active_active : gate .active .active = .run := rfl
@[simp] theorem gate_active_idle : gate .active .idle = .refused .notActive := rfl
@[simp] theorem gate_active_failed : gate .active .failed = .ignored := rfl
@[simp] theorem gate_idleOrActive_failed : gate .idleOrActive .failed = .ignored := rfl

theorem gate_idleOrActive {p : Phase} (h : p ≠ .failed) : gate .idleOrActive p = .run := by
  cases p <;> simp_all [gate]

section
variable {n : Needs} {body : EncSide → Cmd EncSide} {s t : State}

theorem runEnc_ok {e : EncSide} (hg : gate n s.enc.phase = .run) (hb : body s.enc = .ok e) :
    runEnc n body s = .next { s with enc := e } := by
  simp [runEnc, hg, hb]

theorem runEnc_error {c : ErrCode} (hg : gate n s.enc.phase = .run)
    (hb : body s.enc = .error (.error c)) :
    runEnc n body s = .next { s with enc := { s.enc with phase := .failed, err := some c } } := by
  simp [runEnc, hg, hb]

theorem runEnc_refused {c : ErrCode} (hg : gate n s.enc.phase = .refused c) :
    runEnc n body s = .next { s with enc := { s.enc with phase := .failed, err := some c } } := by
  simp [runEnc, hg]

theorem runEnc_ignored (hg : gate n s.enc.phase = .ignored) : runEnc n body s = .next s := by
  simp [runEnc, hg]

/-- Everything an encode-side command can do when it answers a next state. -/
theorem runEnc_next (h : runEnc n body s = .next t) :
    (gate n s.enc.phase = .ignored ∧ t = s) ∨
    (∃ c, t = { s with enc := { s.enc with phase := .failed, err := some c } } ∧
      (gate n s.enc.phase = .refused c ∨
        gate n s.enc.phase = .run ∧ body s.enc = .error (.error c))) ∨
    (gate n s.enc.phase = .run ∧ ∃ e, body s.enc = .ok e ∧ t = { s with enc := e }) := by
  unfold runEnc at h
  split at h
  · exact .inl ⟨‹_›, by simpa using h.symm⟩
  · exact .inr (.inl ⟨_, by simpa using h.symm, .inl ‹_›⟩)
  · split at h
    · exact .inr (.inr ⟨‹_›, _, ‹_›, by simpa using h.symm⟩)
    · exact .inr (.inl ⟨_, by simpa using h.symm, .inr ⟨‹_›, ‹_›⟩⟩)
    · simp at h
end

section
variable {n : Needs} {body : DecSide → Cmd DecSide} {s t : State}

theorem runDec_ok {d : DecSide} (hg : gate n s.dec.phase = .run) (hb : body s.dec = .ok d) :
    runDec n body s = .next { s with dec := d } := by
  simp [runDec, hg, hb]

theorem runDec_error {c : ErrCode} (hg : gate n s.dec.phase = .run)
    (hb : body s.dec = .error (.error c)) :
    runDec n body s = .next { s with dec := { s.dec with phase := .failed, err := some c } } := by
  simp [runDec, hg, hb]

theorem runDec_refused {c : ErrCode} (hg : gate n s.dec.phase = .refused c) :
    runDec n body s = .next { s with dec := { s.dec with phase := .failed, err := some c } } := by
  simp [runDec, hg]

theorem runDec_ignored (hg : gate n s.dec.phase = .ignored) : runDec n body s = .next s := by
  simp [runDec, hg]

/-- Everything a decode-side command can do when it answers a next state. -/
theorem runDec_next (h : runDec n body s = .next t) :
    (gate n s.dec.phase = .ignored ∧ t = s) ∨
    (∃ c, t = { s with dec := { s.dec with phase := .failed, err := some c } } ∧
      (gate n s.dec.phase = .refused c ∨
        gate n s.dec.phase = .run ∧ body s.dec = .error (.error c))) ∨
    (gate n s.dec.phase = .run ∧ ∃ d, body s.dec = .ok d ∧ t = { s with dec := d }) := by
  unfold runDec at h
  split at h
  · exact .inl ⟨‹_›, by simpa using h.symm⟩
  · exact .inr (.inl ⟨_, by simpa using h.symm, .inl ‹_›⟩)
  · split at h
    · exact .inr (.inr ⟨‹_›, _, ‹_›, by simpa using h.symm⟩)
    · exact .inr (.inl ⟨_, by simpa using h.symm, .inr ⟨‹_›, ‹_›⟩⟩)
    · simp at h
end

/-! ## The pseudocode behind each command -/

/-- The phase an encode-side command needs and its pseudocode (R97); none for the other side. -/
def encCommand (maxWidth : Nat) : Instr → Option (Needs × (EncSide → Cmd EncSide))
  | .encInit => some (.anyPhase, fun e => .ok (seedEnc .active e))
  | .encByte b => some (.active, encByteBody maxWidth b)
  | .encEnd => some (.active, encEndBody maxWidth)
  | .pkPut w v => some (.idleOrActive, packBits v w)
  | .pkFlush => some (.idleOrActive, fun e => .ok (packFlush e))
  | _ => none

/-- The phase a decode-side command needs and its pseudocode (R97); none for the other side. -/
def decCommand (maxWidth : Nat) : Instr → Option (Needs × (DecSide → Cmd DecSide))
  | .decInit => some (.anyPhase, fun d => .ok (seedDec .active d.resp d))
  | .decByte b => some (.active, decByteBody maxWidth b)
  | .decEnd => some (.active, decEndBody)
  | .upPut b => some (.idleOrActive, upPush b)
  | .upGet w => some (.idleOrActive, upGetBody w)
  | .decCode c => some (.active, decCodeBody maxWidth c)
  | _ => none

section
variable (s : State)

theorem exec_encInit : exec .encInit s = runEnc .anyPhase (fun e => .ok (seedEnc .active e)) s := rfl
theorem exec_encByte (b : Byte) : exec (.encByte b) s = runEnc .active (encByteBody s.maxWidth b) s := rfl
theorem exec_encEnd : exec .encEnd s = runEnc .active (encEndBody s.maxWidth) s := rfl
theorem exec_pkPut (w v : Nat) : exec (.pkPut w v) s = runEnc .idleOrActive (packBits v w) s := rfl
theorem exec_pkFlush : exec .pkFlush s = runEnc .idleOrActive (fun e => .ok (packFlush e)) s := rfl
theorem exec_decInit : exec .decInit s = runDec .anyPhase (fun d => .ok (seedDec .active d.resp d)) s := rfl
theorem exec_decByte (b : Byte) : exec (.decByte b) s = runDec .active (decByteBody s.maxWidth b) s := rfl
theorem exec_decEnd : exec .decEnd s = runDec .active decEndBody s := rfl
theorem exec_upPut (b : Byte) : exec (.upPut b) s = runDec .idleOrActive (upPush b) s := rfl
theorem exec_upGet (w : Nat) : exec (.upGet w) s = runDec .idleOrActive (upGetBody w) s := rfl
theorem exec_decCode (c : Nat) : exec (.decCode c) s = runDec .active (decCodeBody s.maxWidth c) s := rfl
end

/-- Every command is its side's dispatch of its pseudocode. -/
theorem exec_eq (i : Instr) (s : State) :
    (∃ n body, encCommand s.maxWidth i = some (n, body) ∧ exec i s = runEnc n body s ∧ i.side = .encode) ∨
    (∃ n body, decCommand s.maxWidth i = some (n, body) ∧ exec i s = runDec n body s ∧ i.side = .decode) := by
  cases i
  case encInit => exact .inl ⟨_, _, rfl, rfl, rfl⟩
  case encByte => exact .inl ⟨_, _, rfl, rfl, rfl⟩
  case encEnd => exact .inl ⟨_, _, rfl, rfl, rfl⟩
  case pkPut => exact .inl ⟨_, _, rfl, rfl, rfl⟩
  case pkFlush => exact .inl ⟨_, _, rfl, rfl, rfl⟩
  case decInit => exact .inr ⟨_, _, rfl, rfl, rfl⟩
  case decByte => exact .inr ⟨_, _, rfl, rfl, rfl⟩
  case decEnd => exact .inr ⟨_, _, rfl, rfl, rfl⟩
  case upPut => exact .inr ⟨_, _, rfl, rfl, rfl⟩
  case upGet => exact .inr ⟨_, _, rfl, rfl, rfl⟩
  case decCode => exact .inr ⟨_, _, rfl, rfl, rfl⟩

/-! ## Words and inputs -/

theorem issue_of_decode {cw : Word} {i : Instr} (h : decode cw = .ok i) (s : State) :
    issue cw s = exec i s := by
  simp [issue, h]

theorem issue_of_illegal {cw : Word} (h : ∀ i, decode cw ≠ .ok i) (s : State) :
    issue cw s = execIllegal (sideOfWord cw) s := by
  unfold issue
  split
  · exact absurd ‹_› (h _)
  · rfl

theorem execIllegal_failed {side : Side} {s : State} (h : phaseOf side s = .failed) :
    execIllegal side s = .next s := by
  simp [execIllegal, h]

theorem execIllegal_raises {side : Side} {s : State} (h : phaseOf side s ≠ .failed) :
    execIllegal side s = .next (takeError side .illegal s) := by
  unfold execIllegal
  split <;> simp_all

theorem step_command {s : State} {cw : Word} {rest : List HostInput}
    (h : s.port = .command cw :: rest) : step s = issue cw { s with port := rest } := by
  simp [step, h, takeInput]

theorem step_reset {s : State} {rest : List HostInput} (h : s.port = .reset :: rest) :
    step s = .next (applyReset { s with port := rest }) := by
  simp [step, h, takeInput]

/-- Everything a step is: a wait, a reset, or a word. -/
theorem step_cases (s : State) :
    (s.port = [] ∧ step s = .next s) ∨
    (∃ rest, s.port = .reset :: rest ∧ step s = .next (applyReset { s with port := rest })) ∨
    (∃ cw rest, s.port = .command cw :: rest ∧ step s = issue cw { s with port := rest }) := by
  rcases h : s.port with _ | ⟨x, rest⟩
  · exact .inl ⟨rfl, by simp [step, h]⟩
  · cases x with
    | command cw => exact .inr (.inr ⟨cw, rest, rfl, step_command h⟩)
    | reset => exact .inr (.inl ⟨rest, rfl, step_reset h⟩)

end Sys2Proof.Machine
end

