-- ==== Sys2Proof/Laws/Storage.lean ====
section
/-!
SUPPORT. Laws of the finite maps, of the child map and of the code table: read after write, and the
canonical form is kept.
-/

namespace Sys2Proof.Machine

variable {α : Type}

theorem natMapGet_put_self (m : NatMap α) (q : Nat) (x : α) : natMapGet (natMapPut m q x) q = some x := by
  induction m with
  | nil => simp [natMapPut, natMapGet]
  | cons y m ih =>
    obtain ⟨k, v⟩ := y
    by_cases h : q < k
    · simp [natMapPut, natMapGet, h]
    · by_cases h' : q = k
      · simp [natMapPut, natMapGet, h']
      · simp [natMapPut, natMapGet, h, h', Ne.symm h', ih]

theorem natMapGet_put_of_ne (m : NatMap α) {q r : Nat} (x : α) (hne : r ≠ q) :
    natMapGet (natMapPut m q x) r = natMapGet m r := by
  induction m with
  | nil => simp [natMapPut, natMapGet, Ne.symm hne]
  | cons y m ih =>
    obtain ⟨k, v⟩ := y
    by_cases h : q < k
    · simp [natMapPut, natMapGet, h, Ne.symm hne]
    · by_cases h' : q = k
      · subst h'
        simp [natMapPut, natMapGet, Ne.symm hne]
      · simp [natMapPut, natMapGet, h, h', ih]

/-- The keys after a write: the old keys and the written one. -/
theorem mem_keys_put (m : NatMap α) (q : Nat) (x : α) (k : Nat) :
    k ∈ (natMapPut m q x).map Prod.fst ↔ k = q ∨ k ∈ m.map Prod.fst := by
  induction m with
  | nil => simp [natMapPut]
  | cons y m ih =>
    obtain ⟨j, v⟩ := y
    by_cases h : q < j
    · simp [natMapPut, h]
    · by_cases h' : q = j
      · subst h'; simp [natMapPut]
      · simp only [natMapPut, h, h', if_false, List.map_cons, List.mem_cons, ih]
        tauto

/-- A write keeps the canonical form. -/
theorem natMapPut_canonical (m : NatMap α) (q : Nat) (x : α) (h : NatMapCanonical m) :
    NatMapCanonical (natMapPut m q x) := by
  induction m with
  | nil => simp [natMapPut, NatMapCanonical]
  | cons y m ih =>
    obtain ⟨j, v⟩ := y
    have hj := List.pairwise_cons.mp h
    by_cases h1 : q < j
    · simp only [NatMapCanonical, natMapPut, h1, if_true, List.map_cons]
      refine List.pairwise_cons.mpr ⟨fun a ha => ?_, h⟩
      rcases List.mem_cons.mp ha with rfl | ha
      · exact h1
      · exact lt_trans h1 (hj.1 a ha)
    · by_cases h2 : q = j
      · subst h2
        simpa [NatMapCanonical, natMapPut] using h
      · simp only [NatMapCanonical, natMapPut, h1, h2, if_false, List.map_cons]
        refine List.pairwise_cons.mpr ⟨fun a ha => ?_, ih hj.2⟩
        rcases (mem_keys_put m q x a).mp ha with rfl | ha
        · omega
        · exact hj.1 a ha

/-- In canonical form a key has one entry, and reading finds it. -/
theorem natMapGet_eq_some_iff (m : NatMap α) (h : NatMapCanonical m) (k : Nat) (v : α) :
    natMapGet m k = some v ↔ (k, v) ∈ m := by
  induction m with
  | nil => simp [natMapGet]
  | cons y m ih =>
    obtain ⟨j, u⟩ := y
    have hj := List.pairwise_cons.mp h
    by_cases h1 : j = k
    · subst h1
      have : ∀ v', (j, v') ∉ m := fun v' hv =>
        absurd (hj.1 j (List.mem_map.mpr ⟨_, hv, rfl⟩)) (lt_irrefl _)
      simp [natMapGet, this, eq_comm]
    · simp [natMapGet, h1, ih hj.2, Ne.symm h1]

theorem natMapGet_eq_none_iff (m : NatMap α) (k : Nat) :
    natMapGet m k = none ↔ k ∉ m.map Prod.fst := by
  induction m with
  | nil => simp [natMapGet]
  | cons y m ih =>
    obtain ⟨j, u⟩ := y
    by_cases h1 : j = k
    · simp [natMapGet, h1]
    · simp only [natMapGet, h1, if_false, ih, List.map_cons, List.mem_cons, not_or]
      tauto

/-- The entries after a write at a new key. -/
theorem natMapPut_perm (m : NatMap α) (q : Nat) (x : α) (h : natMapGet m q = none) :
    (natMapPut m q x).Perm ((q, x) :: m) := by
  induction m with
  | nil => simp [natMapPut]
  | cons y m ih =>
    obtain ⟨j, v⟩ := y
    by_cases h1 : q < j
    · simp [natMapPut, h1]
    · by_cases h2 : q = j
      · simp [natMapGet, h2] at h
      · have h3 : natMapGet m q = none := by simpa [natMapGet, Ne.symm h2] using h
        simp only [natMapPut, h1, h2, if_false]
        exact ((ih h3).cons _).trans (List.Perm.swap _ _ _)

/-- A write above every key goes to the end. -/
theorem natMapPut_append (m : NatMap α) (q : Nat) (x : α) (h : ∀ k ∈ m.map Prod.fst, k < q) :
    natMapPut m q x = m ++ [(q, x)] := by
  induction m with
  | nil => simp [natMapPut]
  | cons y m ih =>
    obtain ⟨j, v⟩ := y
    have h1 : j < q := h j (by simp)
    have h2 : ∀ k ∈ m.map Prod.fst, k < q := fun k hk => h k (List.mem_cons_of_mem _ hk)
    simp [natMapPut, show ¬ q < j by omega, show ¬ q = j by omega, ih h2]

/-! ## Child map -/

theorem childKey_inj {c c' : Nat} {b b' : Byte} (h : childKey c b = childKey c' b') : c = c' ∧ b = b' := by
  have h1 := b.isLt
  have h2 := b'.isLt
  unfold childKey at h
  exact ⟨by omega, BitVec.eq_of_toNat_eq (by omega)⟩

@[simp] theorem keyParent_childKey (c : Nat) (b : Byte) : keyParent (childKey c b) = c := by
  have := b.isLt
  unfold keyParent childKey
  omega

@[simp] theorem keyByte_childKey (c : Nat) (b : Byte) : keyByte (childKey c b) = b := by
  have := b.isLt
  apply BitVec.eq_of_toNat_eq
  simp only [keyByte, childKey, BitVec.toNat_ofNat]
  omega

theorem childKey_keyParent_keyByte (k : Nat) : childKey (keyParent k) (keyByte k) = k := by
  simp only [childKey, keyParent, keyByte, BitVec.toNat_ofNat]
  omega

@[simp] theorem child_root (t : Trie) (b : Byte) : child t .root b = some b.toNat := rfl

@[simp] theorem child_nil (c : Nat) (b : Byte) : child [] (.code c) b = none := rfl

theorem child_setChild_self (t : Trie) (c : Nat) (b : Byte) (n : Nat) :
    child (setChild t c b n) (.code c) b = some n := natMapGet_put_self _ _ _

theorem child_setChild_of_ne (t : Trie) {c c' : Nat} {b b' : Byte} (n : Nat) (h : (c', b') ≠ (c, b)) :
    child (setChild t c b n) (.code c') b' = child t (.code c') b' := by
  apply natMapGet_put_of_ne
  intro hk
  obtain ⟨rfl, rfl⟩ := childKey_inj hk
  exact h rfl

theorem setChild_canonical (t : Trie) (c : Nat) (b : Byte) (n : Nat) (h : NatMapCanonical t) :
    NatMapCanonical (setChild t c b n) := natMapPut_canonical _ _ _ h

/-! ## Code table -/

theorem tableAt_byte (t : CodeTable) (b : Byte) : tableAt t b.toNat = some [b] := by
  have := b.isLt
  simp [tableAt, Config.alphabet, this]

theorem tableAt_setTable_self (t : CodeTable) (c : Nat) (s : Seq) (h : 256 ≤ c) :
    tableAt (setTable t c s) c = some s := by
  simp only [tableAt, Config.alphabet, show ¬ c < 256 by omega, if_false]
  exact natMapGet_put_self _ _ _

theorem tableAt_setTable_of_ne (t : CodeTable) {c k : Nat} (s : Seq) (h : k ≠ c) :
    tableAt (setTable t c s) k = tableAt t k := by
  unfold tableAt
  split
  · rfl
  · exact natMapGet_put_of_ne _ _ h

theorem setTable_canonical (t : CodeTable) (c : Nat) (s : Seq) (h : NatMapCanonical t) :
    NatMapCanonical (setTable t c s) := natMapPut_canonical _ _ _ h

end Sys2Proof.Machine
end

