-- ==== Sys2Proof/Laws/Decoder.lean ====
section
/-!
SUPPORT. What decoding a code can do, once, and DEC_BYTE's loop by its passes.
-/

namespace Sys2Proof.Machine

/-- The side after an entry is emitted without an append (the first code of a session). -/
def emitted (d : DecSide) (c : Nat) (sq : Seq) : DecSide :=
  { d with out := d.out ++ sq, prev := some c, width := decGrownWidth d.size d.width }

/-- The side after entry `x` is appended and `sq` is emitted as the entry of `c`. -/
def learned (d : DecSide) (c : Nat) (sq x : Seq) : DecSide :=
  { d with
    table := setTable d.table d.size x, size := d.size + 1, out := d.out ++ sq, prev := some c,
    width := decGrownWidth (d.size + 1) d.width }

theorem decodeCode_first {d : DecSide} {c : Nat} {sq : Seq} (hc : c < d.size) (hp : d.prev = none)
    (ht : tableAt d.table c = some sq) : decodeCode c d = .ok (emitted d c sq) := by
  simp [decodeCode, decodeEntry, decodePresent, lookup, hc, hp, ht, emitted, emitEntry, decGrow]

theorem decodeCode_present {d : DecSide} {c p : Nat} {sq sp : Seq} {f : Byte} (hc : c < d.size)
    (hp : d.prev = some p) (ht : tableAt d.table c = some sq) (hf : sq.head? = some f)
    (hs : tableAt d.table p = some sp) : decodeCode c d = .ok (learned d c sq (sp ++ [f])) := by
  simp [decodeCode, decodeEntry, decodePresent, lookup, hc, hp, ht, hs, extended, firstByte, hf, learned,
    emitEntry, decGrow]

theorem decodeCode_symmetric {d : DecSide} {p : Nat} {sp : Seq} {f : Byte} (hp : d.prev = some p)
    (hs : tableAt d.table p = some sp) (hf : sp.head? = some f) :
    decodeCode d.size d = .ok (learned d d.size (sp ++ [f]) (sp ++ [f])) := by
  simp [decodeCode, decodeEntry, decodeSymmetric, hp, hs, extended, firstByte, hf, learned, emitEntry, decGrow]

theorem decodeCode_format {d : DecSide} {c : Nat} (h : d.size < c ∨ (d.size = c ∧ d.prev = none)) :
    decodeCode c d = .error (.error .format) := by
  rcases h with h | ⟨h, hp⟩
  · have h1 : ¬ c < d.size := by omega
    have h2 : ¬ c = d.size := by omega
    rcases hp : d.prev with _ | p <;> simp [decodeCode, decodeEntry, h1, h2, hp, raise]
  · have h1 : ¬ c < d.size := by omega
    simp [decodeCode, decodeEntry, h1, hp, raise]

/-- Everything decoding a code can do when it succeeds, and which error it can raise (R211). -/
theorem decodeCode_cases (c : Nat) (d : DecSide) :
    (∃ sq, c < d.size ∧ d.prev = none ∧ tableAt d.table c = some sq ∧ decodeCode c d = .ok (emitted d c sq)) ∨
    (∃ p sp sq f, c < d.size ∧ d.prev = some p ∧ tableAt d.table p = some sp ∧
      tableAt d.table c = some sq ∧ sq.head? = some f ∧ decodeCode c d = .ok (learned d c sq (sp ++ [f]))) ∨
    (∃ p sp f, c = d.size ∧ d.prev = some p ∧ tableAt d.table p = some sp ∧ sp.head? = some f ∧
      decodeCode c d = .ok (learned d c (sp ++ [f]) (sp ++ [f]))) ∨
    ((d.size < c ∨ (d.size = c ∧ d.prev = none)) ∧ decodeCode c d = .error (.error .format)) ∨
    decodeCode c d = .error (.fault .tableHole) := by
  have hole : ∀ {x : Cmd DecSide}, decodeEntry c d = x → x = stop .tableHole →
      decodeCode c d = .error (.fault .tableHole) := by
    intro x hx h
    simp [decodeCode, hx, h, stop]
  by_cases hc : c < d.size
  · rcases ht : tableAt d.table c with _ | sq
    · exact .inr (.inr (.inr (.inr (hole rfl (by simp [decodeEntry, decodePresent, lookup, hc, ht])))))
    · rcases hp : d.prev with _ | p
      · exact .inl ⟨sq, hc, rfl, rfl, decodeCode_first hc hp ht⟩
      · rcases hs : tableAt d.table p with _ | sp
        · exact .inr (.inr (.inr (.inr (hole rfl
            (by simp [decodeEntry, decodePresent, lookup, hc, ht, hp, extended, hs])))))
        · rcases hf : sq.head? with _ | f
          · exact .inr (.inr (.inr (.inr (hole rfl
              (by simp [decodeEntry, decodePresent, lookup, hc, ht, hp, extended, hs, firstByte, hf])))))
          · exact .inr (.inl ⟨p, sp, sq, f, hc, rfl, hs, rfl, hf, decodeCode_present hc hp ht hf hs⟩)
  · by_cases he : c = d.size
    · rcases hp : d.prev with _ | p
      · exact .inr (.inr (.inr (.inl ⟨.inr ⟨he.symm, rfl⟩, decodeCode_format (.inr ⟨he.symm, hp⟩)⟩)))
      · rcases hs : tableAt d.table p with _ | sp
        · exact .inr (.inr (.inr (.inr (hole rfl (by simp [decodeEntry, hp, he, decodeSymmetric, hs])))))
        · rcases hf : sp.head? with _ | f
          · exact .inr (.inr (.inr (.inr (hole rfl
              (by simp [decodeEntry, hp, he, decodeSymmetric, hs, extended, firstByte, hf])))))
          · exact .inr (.inr (.inl ⟨p, sp, f, he, rfl, hs, hf, by rw [he]; exact decodeCode_symmetric hp hs hf⟩))
    · exact .inr (.inr (.inr (.inl ⟨.inl (by omega), decodeCode_format (.inl (by omega))⟩)))

/-! ## DEC_CODE (R214) -/

theorem decCodeBody_fits {mw c : Nat} {d : DecSide} (h : d.width ≤ mw) :
    decCodeBody mw c d = decodeCode c { d with seen := true } := by
  simp [decCodeBody, show ¬ mw < d.width by omega]

theorem decCodeBody_capacity {mw c : Nat} {d : DecSide} (h : mw < d.width) :
    decCodeBody mw c d = .error (.error .capacity) := by
  simp [decCodeBody, h, raise]

/-! ## The loop of DEC_BYTE (R213) -/

/-- One pass: the code at the front of the queue, and the side without its bits. -/
def frontCode (d : DecSide) : Nat := valOf (d.upq.take d.width)
def withoutFront (d : DecSide) : DecSide := { d with upq := d.upq.drop d.width }

theorem decodeQueued_stops {mw fuel : Nat} {d : DecSide} (h : d.upq.length < d.width) :
    decodeQueued mw (fuel + 1) d = .ok d := by
  simp [decodeQueued, show ¬ d.width ≤ d.upq.length by omega]

theorem decodeQueued_capacity {mw fuel : Nat} {d : DecSide} (h : d.width ≤ d.upq.length) (hw : mw < d.width) :
    decodeQueued mw (fuel + 1) d = .error (.error .capacity) := by
  simp [decodeQueued, h, hw, raise]

theorem decodeQueued_pass {mw fuel : Nat} {d : DecSide} (h : d.width ≤ d.upq.length) (hw : d.width ≤ mw) :
    decodeQueued mw (fuel + 1) d =
      match decodeCode (frontCode d) (withoutFront d) with
      | .error x => .error x
      | .ok d' => decodeQueued mw fuel d' := by
  rw [decodeQueued, if_pos h, if_neg (show ¬ mw < d.width by omega), upPop_ok h]
  rfl

/-- Decoding a code leaves the queue alone and never lowers the width. -/
theorem decodeCode_queue {c : Nat} {d d' : DecSide} (h : decodeCode c d = .ok d') :
    d'.upq = d.upq ∧ d.width ≤ d'.width := by
  rcases decodeCode_cases c d with ⟨sq, -, -, -, e⟩ | ⟨p, sp, sq, f, -, -, -, -, -, e⟩ |
    ⟨p, sp, f, -, -, -, -, e⟩ | ⟨-, e⟩ | e <;> rw [e] at h <;> cases h
  all_goals
    refine ⟨rfl, ?_⟩
    simp only [emitted, learned, decGrownWidth]
    split <;> omega

/-- With width 1 or more, fuel above the queue's length is enough: more changes nothing. -/
theorem decodeQueued_fuel (mw : Nat) : ∀ (fuel fuel' : Nat) (d : DecSide), 1 ≤ d.width →
    d.upq.length < fuel → d.upq.length < fuel' → decodeQueued mw fuel d = decodeQueued mw fuel' d := by
  intro fuel
  induction fuel with
  | zero => intro fuel' d _ h; omega
  | succ fuel ih =>
    intro fuel' d hw h h'
    obtain ⟨k, rfl⟩ : ∃ k, fuel' = k + 1 := ⟨fuel' - 1, by omega⟩
    by_cases hq : d.width ≤ d.upq.length
    · by_cases hm : mw < d.width
      · rw [decodeQueued_capacity hq hm, decodeQueued_capacity hq hm]
      · rw [decodeQueued_pass hq (by omega), decodeQueued_pass hq (by omega)]
        rcases hd : decodeCode (frontCode d) (withoutFront d) with x | d'
        · rfl
        · obtain ⟨e1, e2⟩ := decodeCode_queue hd
          simp only [withoutFront] at e1 e2
          have hlen : d'.upq.length < d.upq.length := by rw [e1, List.length_drop]; omega
          exact ih k d' (by omega) (by omega) (by omega)
    · rw [decodeQueued_stops (by omega), decodeQueued_stops (by omega)]

/-- The side after a byte of the packed stream has joined the queue. -/
def pushed (b : Byte) (d : DecSide) : DecSide := { d with upq := d.upq ++ byteBits b, seen := true }

@[simp] theorem pushed_width (b : Byte) (d : DecSide) : (pushed b d).width = d.width := rfl
@[simp] theorem pushed_seen (b : Byte) (d : DecSide) : (pushed b d).seen = true := rfl
@[simp] theorem pushed_phase (b : Byte) (d : DecSide) : (pushed b d).phase = d.phase := rfl
@[simp] theorem pushed_upq (b : Byte) (d : DecSide) : (pushed b d).upq = d.upq ++ byteBits b := rfl
theorem pushed_length (b : Byte) (d : DecSide) : (pushed b d).upq.length = d.upq.length + 8 := by simp

theorem decByteBody_push {mw : Nat} {d : DecSide} (b : Byte) (h : d.upq.length ≤ 24) :
    decByteBody mw b d = decodeQueued mw (d.upq.length + 9) (pushed b d) := by
  rw [decByteBody, upPush_ok b h]
  simp [pushed]

theorem decByteBody_full {mw : Nat} {d : DecSide} (b : Byte) (h : 24 < d.upq.length) :
    decByteBody mw b d = .error (.error .queueFull) := by
  rw [decByteBody, upPush_error b h]

theorem decGrownWidth_le (n w : Nat) : w ≤ decGrownWidth n w ∧ decGrownWidth n w ≤ w + 1 := by
  unfold decGrownWidth
  split <;> omega

/-- Width growth keeps the width law (R66). -/
theorem decGrownWidth_law {n w : Nat} (hw : 1 ≤ w) (h : 2 ^ (w - 1) - 1 ≤ n ∧ n < 2 ^ w - 1) :
    2 ^ (decGrownWidth (n + 1) w - 1) - 1 ≤ n + 1 ∧ n + 1 < 2 ^ decGrownWidth (n + 1) w - 1 := by
  obtain ⟨k, rfl⟩ : ∃ k, w = k + 1 := ⟨w - 1, by omega⟩
  have e1 : 2 ^ (k + 1) = 2 * 2 ^ k := by rw [pow_succ]; ring
  have e2 : 2 ^ (k + 1 + 1) = 4 * 2 ^ k := by rw [pow_succ, pow_succ]; ring
  have hp : 0 < 2 ^ k := by positivity
  unfold decGrownWidth
  simp only [Nat.add_sub_cancel] at h
  split
  · simp only [Nat.add_sub_cancel]
    omega
  · simp only [Nat.add_sub_cancel]
    omega

/-- The first code of a session triggers no growth (R212). -/
theorem decGrownWidth_same {n w : Nat} (h : n < 2 ^ w - 1) : decGrownWidth n w = w := by
  simp [decGrownWidth, show ¬ n = 2 ^ w - 1 by omega]

end Sys2Proof.Machine
end

