-- ==== Sys2Proof/Laws/Encoder.lean ====
section
/-!
SUPPORT. What ENC_BYTE and ENC_END can do, once, and what the laws of the encode side give them.
-/

namespace Sys2Proof.Machine

theorem packCode_capacity {mw c w : Nat} (h : mw < w) (e : EncSide) :
    packCode mw c w e = .error (.error .capacity) := by
  simp [packCode, h, raise]

theorem packCode_fits {mw c w : Nat} (h : w ≤ mw) (e : EncSide) : packCode mw c w e = packBits c w e := by
  simp [packCode, show ¬ mw < w by omega]

/-- Everything ENC_BYTE's pseudocode can do (R182). -/
theorem encByteBody_cases (mw : Nat) (b : Byte) (e : EncSide) :
    (e.cur = none ∧ encByteBody mw b e = .ok { e with cur := some b.toNat }) ∨
    (∃ c n, e.cur = some c ∧ child e.trie (.code c) b = some n ∧
      encByteBody mw b e = .ok { e with cur := some n }) ∨
    (∃ c, e.cur = some c ∧ child e.trie (.code c) b = none ∧
      ((mw < e.width ∧ encByteBody mw b e = .error (.error .capacity)) ∨
       (e.width ≤ mw ∧ 2 ^ e.width ≤ c ∧ encByteBody mw b e = .error (.error .widthOverflow)) ∨
       (e.width ≤ mw ∧ c < 2 ^ e.width ∧ ∃ q out,
        Drained (e.pkq ++ bitsOf e.width c) e.out q out ∧
        encByteBody mw b e = .ok { e with
          pkq := q, out := out, trie := setChild e.trie c b e.next, next := e.next + 1,
          cur := some b.toNat, width := encGrownWidth (e.next + 1) e.width }))) := by
  rcases hc : e.cur with _ | c
  · exact .inl ⟨rfl, by simp [encByteBody, hc]⟩
  · rcases hn : child e.trie (.code c) b with _ | n
    · refine .inr (.inr ⟨c, rfl, hn, ?_⟩)
      by_cases hw : mw < e.width
      · exact .inl ⟨hw, by simp only [encByteBody, hc, hn, packCode_capacity hw]⟩
      · refine .inr ?_
        by_cases hv : c < 2 ^ e.width
        · obtain ⟨q, out, hd, hp⟩ := packBits_ok hv e
          exact .inr ⟨by omega, hv, q, out, hd,
            by simp only [encByteBody, hc, hn, packCode_fits (Nat.not_lt.mp hw), hp]; rfl⟩
        · exact .inl ⟨by omega, by omega,
            by simp only [encByteBody, hc, hn, packCode_fits (Nat.not_lt.mp hw),
              packBits_error (Nat.not_lt.mp hv)]⟩
    · exact .inr (.inl ⟨c, n, rfl, hn, by simp [encByteBody, hc, hn]⟩)

/-- Everything ENC_END's pseudocode can do (R183). -/
theorem encEndBody_cases (mw : Nat) (e : EncSide) :
    (e.cur = none ∧ encEndBody mw e = .error (.error .emptyInput)) ∨
    (∃ c, e.cur = some c ∧
      ((mw < e.width ∧ encEndBody mw e = .error (.error .capacity)) ∨
       (e.width ≤ mw ∧ 2 ^ e.width ≤ c ∧ encEndBody mw e = .error (.error .widthOverflow)) ∨
       (e.width ≤ mw ∧ c < 2 ^ e.width ∧ ∃ ys : Seq,
        ys.flatMap byteBits = e.pkq ++ bitsOf e.width c ++
          List.replicate ((8 - (e.pkq.length + e.width) % 8) % 8) false ∧
        encEndBody mw e = .ok { e with pkq := [], out := e.out ++ ys, cur := none, phase := .idle }))) := by
  rcases hc : e.cur with _ | c
  · exact .inl ⟨rfl, by simp [encEndBody, hc, raise]⟩
  · refine .inr ⟨c, rfl, ?_⟩
    by_cases hw : mw < e.width
    · exact .inl ⟨hw, by simp only [encEndBody, hc, packCode_capacity hw]⟩
    · refine .inr ?_
      by_cases hv : c < 2 ^ e.width
      · refine .inr ⟨by omega, hv, ?_⟩
        obtain ⟨q, out, ⟨hl, ys, ho, hb⟩, hp⟩ := packBits_ok hv e
        obtain ⟨zs, hz, hf⟩ := packFlush_spec { e with pkq := q, out := out } hl
        simp only at hz
        have hlen := congrArg List.length hb
        simp only [List.length_append, flatMap_byteBits_length, bitsOf_length] at hlen
        refine ⟨ys ++ zs, ?_, ?_⟩
        · rw [List.flatMap_append, hz, ← List.append_assoc, hb]
          congr 3
          omega
        · unfold encEndBody
          rw [hc]
          simp only
          rw [packCode_fits (Nat.not_lt.mp hw), hp]
          simp only
          rw [hf]
          simp only [ho, List.append_assoc]
      · exact .inl ⟨by omega, by omega,
          by simp only [encEndBody, hc, packCode_fits (Nat.not_lt.mp hw), packBits_error (Nat.not_lt.mp hv)]⟩

/-! ## Under the laws -/

theorem EncLaws.cur_fits {mw : Nat} {e : EncSide} (h : EncLaws mw e) {c : Nat} (hc : e.cur = some c) :
    c < 2 ^ e.width :=
  lt_trans (h.cur_known c hc) h.width_law.2

/-- Width growth keeps the width law (R65). -/
theorem encGrownWidth_law {n w : Nat} (hw : 1 ≤ w) (h : 2 ^ (w - 1) ≤ n ∧ n < 2 ^ w) :
    2 ^ (encGrownWidth (n + 1) w - 1) ≤ n + 1 ∧ n + 1 < 2 ^ encGrownWidth (n + 1) w := by
  obtain ⟨k, rfl⟩ : ∃ k, w = k + 1 := ⟨w - 1, by omega⟩
  have e1 : 2 ^ (k + 1) = 2 * 2 ^ k := by rw [pow_succ]; ring
  have e2 : 2 ^ (k + 1 + 1) = 4 * 2 ^ k := by rw [pow_succ, pow_succ]; ring
  have hp : 0 < 2 ^ k := by positivity
  unfold encGrownWidth
  simp only [Nat.add_sub_cancel] at h
  split
  · rename_i hn
    simp only [Nat.add_sub_cancel]
    omega
  · simp only [Nat.add_sub_cancel]
    omega

theorem encGrownWidth_le (n w : Nat) : w ≤ encGrownWidth n w ∧ encGrownWidth n w ≤ w + 1 := by
  unfold encGrownWidth
  split <;> omega

end Sys2Proof.Machine
end

