-- ==== Sys2Proof/Laws/Invariants.lean ====
section
/-!
SUPPORT. What the laws of a side give: every code below D.SIZE has a non-empty entry, every code below
E.NEXT is a child of one pair, and updates that touch no law field keep the laws.
-/

namespace Sys2Proof.Machine

/-! ## Decode side -/

section
variable {mw : Nat} {d : DecSide}

theorem DecLaws.mem_keys (h : DecLaws mw d) (k : Nat) :
    k ∈ d.table.map Prod.fst ↔ 256 ≤ k ∧ k < d.size := by
  have := h.size_range.1
  rw [h.table_keys, List.mem_range'_1]
  omega

theorem DecLaws.canonical (h : DecLaws mw d) : NatMapCanonical d.table := by
  unfold NatMapCanonical
  rw [h.table_keys]
  exact List.pairwise_lt_range'

/-- R43, R68: a code below D.SIZE has a non-empty entry. -/
theorem DecLaws.entry (h : DecLaws mw d) {c : Nat} (hc : c < d.size) :
    ∃ f rest, tableAt d.table c = some (f :: rest) := by
  by_cases hb : c < 256
  · exact ⟨BitVec.ofNat 8 c, [], by simp [tableAt, Config.alphabet, hb]⟩
  · obtain ⟨⟨k, sq⟩, hm, rfl⟩ := List.mem_map.mp ((h.mem_keys c).mpr ⟨by omega, hc⟩)
    have hl := (h.table_entries _ hm).1
    simp only at hl hb
    obtain ⟨f, rest, rfl⟩ := List.exists_cons_of_length_pos (show 0 < sq.length by omega)
    refine ⟨f, rest, ?_⟩
    simp only [tableAt, Config.alphabet, hb, if_false]
    exact (natMapGet_eq_some_iff _ h.canonical _ _).mpr hm

/-- R43: a code from D.SIZE on has no entry. -/
theorem DecLaws.no_entry (h : DecLaws mw d) {c : Nat} (hc : d.size ≤ c) : tableAt d.table c = none := by
  have := h.size_range.1
  simp only [tableAt, Config.alphabet, show ¬ c < 256 by omega, if_false]
  rw [natMapGet_eq_none_iff, h.mem_keys]
  omega

/-- Under the laws decoding a code stops only with FORMAT. -/
theorem DecLaws.decodeCode (h : DecLaws mw d) (c : Nat) :
    (∃ f rest, c < d.size ∧ d.prev = none ∧ tableAt d.table c = some (f :: rest) ∧
      decodeCode c d = .ok (emitted d c (f :: rest))) ∨
    (∃ p sp f rest, c < d.size ∧ d.prev = some p ∧ tableAt d.table p = some sp ∧ sp ≠ [] ∧ p < d.size ∧
      tableAt d.table c = some (f :: rest) ∧ decodeCode c d = .ok (learned d c (f :: rest) (sp ++ [f]))) ∨
    (∃ p f rest, c = d.size ∧ d.prev = some p ∧ p < d.size ∧ tableAt d.table p = some (f :: rest) ∧
      decodeCode c d = .ok (learned d c (f :: rest ++ [f]) (f :: rest ++ [f]))) ∨
    ((d.size < c ∨ (d.size = c ∧ d.prev = none)) ∧ decodeCode c d = .error (.error .format)) := by
  by_cases hc : c < d.size
  · obtain ⟨f, rest, ht⟩ := h.entry hc
    rcases hp : d.prev with _ | p
    · exact .inl ⟨f, rest, hc, rfl, ht, decodeCode_first hc hp ht⟩
    · have hlt := h.prev_known p hp
      obtain ⟨f', rest', hs⟩ := h.entry hlt
      exact .inr (.inl ⟨p, _, f, rest, hc, rfl, hs, by simp, hlt, ht, decodeCode_present hc hp ht rfl hs⟩)
  · by_cases he : c = d.size
    · rcases hp : d.prev with _ | p
      · exact .inr (.inr (.inr ⟨.inr ⟨he.symm, rfl⟩, decodeCode_format (.inr ⟨he.symm, hp⟩)⟩))
      · have hlt := h.prev_known p hp
        obtain ⟨f, rest, hs⟩ := h.entry hlt
        exact .inr (.inr (.inl ⟨p, f, rest, he, rfl, hlt, hs, by rw [he]; exact decodeCode_symmetric hp hs rfl⟩))
    · exact .inr (.inr (.inr ⟨.inl (by omega), decodeCode_format (.inl (by omega))⟩))

/-- Laws do not see the queue (as long as it is short), SEEN (once set), UP.RESP or OUT_D. -/
theorem DecLaws.with_queue (h : DecLaws mw d) {q : Bits} (hq : q.length ≤ 32) (r : Word) (o : Seq) :
    DecLaws mw { d with upq := q, seen := true, resp := r, out := o } :=
  ⟨h.err_iff_failed, h.width_range, h.size_range, h.width_law, h.prev_known, h.prev_set, fun _ => rfl,
    h.table_keys, h.table_entries, hq⟩

theorem DecLaws.pushed (h : DecLaws mw d) (b : Byte) (hq : d.upq.length ≤ 24) : DecLaws mw (pushed b d) :=
  h.with_queue (by simp; omega) _ _

theorem DecLaws.err_none (h : DecLaws mw d) (hp : d.phase ≠ .failed) : d.err = none := by
  by_contra h0
  exact hp (h.err_iff_failed.mp h0)

/-- Emitting the first code keeps the laws. -/
theorem DecLaws.emitted (h : DecLaws mw d) {c : Nat} (hc : c < d.size) (hs : d.seen = true) (sq : Seq) :
    DecLaws mw (emitted d c sq) := by
  have e : decGrownWidth d.size d.width = d.width := decGrownWidth_same h.width_law.2
  refine ⟨h.err_iff_failed, ?_, h.size_range, ?_, ?_, fun _ => by simp [Machine.emitted], fun _ => hs,
    h.table_keys, h.table_entries, h.queue_short⟩
  · simp only [Machine.emitted, e]; exact h.width_range
  · simp only [Machine.emitted, e]; exact h.width_law
  · rintro k ⟨⟩; exact hc

/-- Appending an entry that extends an older one keeps the laws, when the width is one a code may be
decoded at. -/
theorem DecLaws.learned (h : DecLaws mw d) {c p : Nat} (hc : c ≤ d.size) (hs : d.seen = true)
    (hw : d.width ≤ mw) (hp : p < d.size) {sp : Seq} (ht : tableAt d.table p = some sp) (hne : sp ≠ [])
    (sq : Seq) (f : Byte) : DecLaws mw (learned d c sq (sp ++ [f])) := by
  have h256 := h.size_range.1
  have hwl := decGrownWidth_law (by have := h.width_range.1; omega) h.width_law
  have hwb := decGrownWidth_le (d.size + 1) d.width
  have hpow : 2 ^ d.width ≤ 2 ^ mw := Nat.pow_le_pow_right (by decide) hw
  have hl := h.width_law.2
  have hrange := h.width_range
  have hput : setTable d.table d.size (sp ++ [f]) = d.table ++ [(d.size, sp ++ [f])] :=
    natMapPut_append _ _ _ fun k hk => ((h.mem_keys k).mp hk).2
  refine ⟨h.err_iff_failed, ?_, ?_, hwl, ?_, fun _ => by simp [Machine.learned], fun _ => hs, ?_, ?_,
    h.queue_short⟩
  · simp only [Machine.learned]; omega
  · simp only [Machine.learned]; omega
  · rintro k ⟨⟩; simp only [Machine.learned]; omega
  · simp only [Machine.learned, hput, List.map_append, h.table_keys, List.map_cons, List.map_nil]
    rw [show d.size + 1 - 256 = (d.size - 256) + 1 by omega, List.range'_concat]
    simp only [Nat.one_mul]
    rw [show 256 + (d.size - 256) = d.size by omega]
  · intro x hx
    simp only [Machine.learned, hput, List.mem_append, List.mem_singleton] at hx
    have keep : ∀ q, q < d.size → tableAt (setTable d.table d.size (sp ++ [f])) q = tableAt d.table q :=
      fun q hq => tableAt_setTable_of_ne _ _ (by omega)
    rcases hx with hx | rfl
    · obtain ⟨h1, q, hq, hqt⟩ := h.table_entries x hx
      have hk := (h.mem_keys x.1).mp (List.mem_map.mpr ⟨x, hx, rfl⟩)
      exact ⟨h1, q, hq, (keep q (by omega)).trans hqt⟩
    · refine ⟨?_, p, hp, (keep p hp).trans (by simpa using ht)⟩
      have := List.length_pos_iff.mpr hne
      simp only [List.length_append, List.length_singleton]
      omega

/-- Decoding a code keeps the laws. -/
theorem DecLaws.decodeCode_ok (h : DecLaws mw d) (hs : d.seen = true) (hw : d.width ≤ mw) {c : Nat}
    {d' : DecSide} (he : Machine.decodeCode c d = .ok d') :
    DecLaws mw d' ∧ d'.seen = true ∧ d'.phase = d.phase := by
  rcases h.decodeCode c with ⟨f, rest, hc, -, -, e⟩ | ⟨p, sp, f, rest, hc, -, ht, hne, hlt, -, e⟩ |
    ⟨p, f, rest, hc, -, hlt, ht, e⟩ | ⟨-, e⟩ <;> rw [e] at he <;> cases he
  · exact ⟨h.emitted hc hs _, hs, rfl⟩
  · exact ⟨h.learned (by omega) hs hw hlt ht hne _ _, hs, rfl⟩
  · exact ⟨h.learned (by omega) hs hw hlt ht (by simp) _ _, hs, rfl⟩

/-- DEC_BYTE's loop keeps the laws, and stops only with an error of LZWC. -/
theorem DecLaws.decodeQueued (fuel : Nat) : ∀ {d : DecSide}, DecLaws mw d → d.seen = true →
    d.upq.length < fuel →
    (∃ d', Machine.decodeQueued mw fuel d = .ok d' ∧ DecLaws mw d' ∧ d'.seen = true ∧
      d'.phase = d.phase ∧ d'.upq.length < d'.width) ∨
    (∃ c, Machine.decodeQueued mw fuel d = .error (.error c)) := by
  induction fuel with
  | zero => intro d _ _ h; omega
  | succ fuel ih =>
    intro d h hs hl
    have hr := h.width_range
    by_cases hq : d.width ≤ d.upq.length
    · by_cases hm : mw < d.width
      · exact .inr ⟨_, decodeQueued_capacity hq hm⟩
      · rw [decodeQueued_pass hq (by omega)]
        have h' : DecLaws mw (withoutFront d) := by
          have h1 := h.with_queue (q := d.upq.drop d.width)
            (by have := h.queue_short; rw [List.length_drop]; omega) d.resp d.out
          simpa [withoutFront, hs] using h1
        rcases he : Machine.decodeCode (frontCode d) (withoutFront d) with x | d'
        · rcases h'.decodeCode (frontCode d) with ⟨f, rest, -, -, -, e⟩ | ⟨p, sp, f, rest, -, -, -, -, -, -, e⟩ |
            ⟨p, f, rest, -, -, -, -, e⟩ | ⟨-, e⟩ <;> rw [e] at he <;> cases he
          exact .inr ⟨_, rfl⟩
        · obtain ⟨hd, hsd, hpd⟩ := h'.decodeCode_ok hs (by simpa [withoutFront] using Nat.not_lt.mp hm) he
          have hqd := (decodeCode_queue he).1
          have hlen : d'.upq.length < fuel := by
            rw [hqd]; simp only [withoutFront, List.length_drop]; omega
          rcases ih hd hsd hlen with ⟨d'', e, hd'', hs'', hp'', hq''⟩ | ⟨c, e⟩
          · exact .inl ⟨d'', e, hd'', hs'', hp''.trans hpd, hq''⟩
          · exact .inr ⟨c, e⟩
    · exact .inl ⟨d, decodeQueued_stops (by omega), h, hs, rfl, by omega⟩

end

/-! ## Encode side -/

section
variable {mw : Nat} {e : EncSide}

theorem EncLaws.err_none (h : EncLaws mw e) (hp : e.phase ≠ .failed) : e.err = none := by
  by_contra h0
  exact hp (h.err_iff_failed.mp h0)

theorem EncLaws.child_codes (h : EncLaws mw e) {c n : Nat} {b : Byte} (hn : child e.trie (.code c) b = some n) :
    256 ≤ n ∧ n < e.next ∧ c < n := by
  have hm := (natMapGet_eq_some_iff _ h.trie_canonical _ _).mp hn
  simpa using h.trie_codes _ hm

end

end Sys2Proof.Machine
end

