-- ==== Sys2Proof/Laws/Commands.lean ====
section
/-!
SUPPORT. Everything a command can do when it answers a next state, once: nothing, take an error on its
side, or run its pseudocode; and what each side's pseudocode keeps.
-/

namespace Sys2Proof.Machine

/-! ## One command -/

/-- Everything a legal command can do. -/
theorem exec_cases {i : Instr} {s t : State} (h : exec i s = .next t) :
    (t = s ∧ ((i.side = .encode ∧ i ≠ .encInit ∧ s.enc.phase = .failed) ∨
      (i.side = .decode ∧ i ≠ .decInit ∧ s.dec.phase = .failed))) ∨
    (i.side = .encode ∧ i ≠ .encInit ∧ s.enc.phase ≠ .failed ∧
      ∃ c, t = { s with enc := { s.enc with phase := .failed, err := some c } }) ∨
    (i.side = .decode ∧ i ≠ .decInit ∧ s.dec.phase ≠ .failed ∧
      ∃ c, t = { s with dec := { s.dec with phase := .failed, err := some c } }) ∨
    (i.side = .encode ∧ (s.enc.phase = .failed → i = .encInit) ∧
      ∃ n body e, encCommand s.maxWidth i = some (n, body) ∧ body s.enc = .ok e ∧ t = { s with enc := e }) ∨
    (i.side = .decode ∧ (s.dec.phase = .failed → i = .decInit) ∧
      ∃ n body d, decCommand s.maxWidth i = some (n, body) ∧ body s.dec = .ok d ∧ t = { s with dec := d }) := by
  rcases exec_eq i s with ⟨n, body, hi, he, hs⟩ | ⟨n, body, hi, he, hs⟩ <;> rw [he] at h
  · have hn : i = .encInit ∧ n = .anyPhase ∧ (∀ e c, body e ≠ .error c) ∨
        i ≠ .encInit ∧ gate n .failed = .ignored := by
      cases i <;> simp only [encCommand, Option.some.injEq, Prod.mk.injEq, reduceCtorEq] at hi
      all_goals obtain ⟨rfl, rfl⟩ := hi
      all_goals simp
    rcases hn with ⟨rfl, rfl, hb⟩ | ⟨hi', hf⟩
    · rcases runEnc_next h with ⟨hg, -⟩ | ⟨c, -, hg | ⟨-, hg⟩⟩ | ⟨-, e, hb, rfl⟩
      · cases hg
      · cases hg
      · exact absurd hg (hb _ _)
      · exact .inr (.inr (.inr (.inl ⟨hs, fun _ => rfl, _, body, e, hi, hb, rfl⟩)))
    · rcases runEnc_next h with ⟨hg, rfl⟩ | ⟨c, rfl, hg⟩ | ⟨hg, e, hb, rfl⟩
      · refine .inl ⟨rfl, .inl ⟨hs, hi', ?_⟩⟩
        cases n <;> cases hp : t.enc.phase <;> simp_all [gate]
      · refine .inr (.inl ⟨hs, hi', fun hp => ?_, c, rfl⟩)
        rw [hp, hf] at hg
        simp at hg
      · refine .inr (.inr (.inr (.inl ⟨hs, fun hp => ?_, n, body, e, hi, hb, rfl⟩)))
        rw [hp, hf] at hg
        cases hg
  · have hn : i = .decInit ∧ n = .anyPhase ∧ (∀ d c, body d ≠ .error c) ∨
        i ≠ .decInit ∧ gate n .failed = .ignored := by
      cases i <;> simp only [decCommand, Option.some.injEq, Prod.mk.injEq, reduceCtorEq] at hi
      all_goals obtain ⟨rfl, rfl⟩ := hi
      all_goals simp
    rcases hn with ⟨rfl, rfl, hb⟩ | ⟨hi', hf⟩
    · rcases runDec_next h with ⟨hg, -⟩ | ⟨c, -, hg | ⟨-, hg⟩⟩ | ⟨-, d, hb, rfl⟩
      · cases hg
      · cases hg
      · exact absurd hg (hb _ _)
      · exact .inr (.inr (.inr (.inr ⟨hs, fun _ => rfl, _, body, d, hi, hb, rfl⟩)))
    · rcases runDec_next h with ⟨hg, rfl⟩ | ⟨c, rfl, hg⟩ | ⟨hg, d, hb, rfl⟩
      · refine .inl ⟨rfl, .inr ⟨hs, hi', ?_⟩⟩
        cases n <;> cases hp : t.dec.phase <;> simp_all [gate]
      · refine .inr (.inr (.inl ⟨hs, hi', fun hp => ?_, c, rfl⟩))
        rw [hp, hf] at hg
        simp at hg
      · refine .inr (.inr (.inr (.inr ⟨hs, fun hp => ?_, n, body, d, hi, hb, rfl⟩)))
        rw [hp, hf] at hg
        cases hg

/-- Everything a word, legal or not, can do: nothing (its side is FAILED), an error on its side, or its
command. -/
theorem issue_cases {cw : Word} {s t : State} (h : issue cw s = .next t) :
    (∃ i, decode cw = .ok i ∧ sideOfWord cw = i.side ∧ exec i s = .next t) ∨
    ((∀ i, decode cw ≠ .ok i) ∧
      ((t = s ∧ phaseOf (sideOfWord cw) s = .failed) ∨
       (t = takeError (sideOfWord cw) .illegal s ∧ phaseOf (sideOfWord cw) s ≠ .failed))) := by
  rcases hd : decode cw with x | i
  · refine .inr ⟨fun i => by simp, ?_⟩
    rw [issue_of_illegal (by simp [hd])] at h
    by_cases hp : phaseOf (sideOfWord cw) s = .failed
    · rw [execIllegal_failed hp] at h
      exact .inl ⟨by simpa using h.symm, hp⟩
    · rw [execIllegal_raises hp] at h
      exact .inr ⟨by simpa using h.symm, hp⟩
  · exact .inl ⟨i, rfl, sideOfWord_of_decode hd, by rwa [issue_of_decode hd] at h⟩

/-! ## What the encode side's pseudocode keeps -/

theorem packFlush_keeps (e : EncSide) : ∃ q ys, (e.pkq.length ≤ 7 → q = []) ∧
    packFlush e = { e with pkq := q, out := e.out ++ ys } := by
  by_cases h7 : e.pkq.length ≤ 7
  · obtain ⟨ys, -, h⟩ := packFlush_spec e h7
    exact ⟨[], ys, fun _ => rfl, h⟩
  · obtain ⟨q, out, ⟨-, ys, rfl, -⟩, h⟩ :=
      drain_spec { e with pkq := e.pkq ++ List.replicate (8 - e.pkq.length) false }
    exact ⟨q, ys, fun h' => absurd h' h7, by rw [packFlush, if_pos (by omega), h]⟩

/-- What an encode-side command that runs leaves: the seed (ENC_INIT), a new candidate, an insertion
(the only one that changes TRIE, E.NEXT and E.WIDTH), the end of the session, or only bits packed. -/
theorem encCommand_ok {mw : Nat} {i : Instr} {n : Needs} {body : EncSide → Cmd EncSide} {e e' : EncSide}
    (hi : encCommand mw i = some (n, body)) (hb : body e = .ok e') :
    (i = .encInit ∧ e' = seedEnc .active e) ∨
    (∃ b, i = .encByte b ∧ e.cur = none ∧ e' = { e with cur := some b.toNat }) ∨
    (∃ b c k, i = .encByte b ∧ e.cur = some c ∧ child e.trie (.code c) b = some k ∧
      e' = { e with cur := some k }) ∨
    (∃ b c q ys, i = .encByte b ∧ e.cur = some c ∧ child e.trie (.code c) b = none ∧ e.width ≤ mw ∧
      Drained (e.pkq ++ bitsOf e.width c) e.out q (e.out ++ ys) ∧
      e' = { e with
        pkq := q, out := e.out ++ ys, trie := setChild e.trie c b e.next, next := e.next + 1,
        cur := some b.toNat, width := encGrownWidth (e.next + 1) e.width }) ∨
    (∃ c ys, i = .encEnd ∧ e.cur = some c ∧
      e' = { e with pkq := [], out := e.out ++ ys, cur := none, phase := .idle }) ∨
    (∃ q ys, ((∃ w v, i = .pkPut w v ∧ q.length ≤ 7) ∨ (i = .pkFlush ∧ (e.pkq.length ≤ 7 → q = []))) ∧
      e' = { e with pkq := q, out := e.out ++ ys }) := by
  cases i <;> simp only [encCommand, Option.some.injEq, Prod.mk.injEq, reduceCtorEq] at hi
  case encInit =>
    obtain ⟨-, rfl⟩ := hi
    exact .inl ⟨rfl, by simpa using hb.symm⟩
  case encByte b =>
    obtain ⟨-, rfl⟩ := hi
    rcases encByteBody_cases mw b e with ⟨hc, h⟩ | ⟨c, k, hc, hk, h⟩ |
      ⟨c, hc, hk, ⟨-, h⟩ | ⟨-, -, h⟩ | ⟨hw, -, q, out, hd, h⟩⟩ <;> rw [h] at hb <;> cases hb
    · exact .inr (.inl ⟨b, rfl, hc, rfl⟩)
    · exact .inr (.inr (.inl ⟨b, c, k, rfl, hc, hk, rfl⟩))
    · obtain ⟨-, ys, rfl, -⟩ := id hd
      exact .inr (.inr (.inr (.inl ⟨b, c, q, ys, rfl, hc, hk, hw, hd, rfl⟩)))
  case encEnd =>
    obtain ⟨-, rfl⟩ := hi
    rcases encEndBody_cases mw e with ⟨-, h⟩ | ⟨c, hc, ⟨-, h⟩ | ⟨-, -, h⟩ | ⟨-, -, ys, -, h⟩⟩ <;>
      rw [h] at hb <;> cases hb
    exact .inr (.inr (.inr (.inr (.inl ⟨c, ys, rfl, hc, rfl⟩))))
  case pkPut w v =>
    obtain ⟨-, rfl⟩ := hi
    rcases packBits_cases v w e with ⟨q, out, ⟨hl, ys, rfl, -⟩, h⟩ | ⟨-, h⟩ <;> rw [h] at hb <;> cases hb
    exact .inr (.inr (.inr (.inr (.inr ⟨q, ys, .inl ⟨w, v, rfl, hl⟩, rfl⟩))))
  case pkFlush =>
    obtain ⟨-, rfl⟩ := hi
    simp only [Except.ok.injEq] at hb
    subst hb
    obtain ⟨q, ys, hq, h⟩ := packFlush_keeps e
    exact .inr (.inr (.inr (.inr (.inr ⟨q, ys, .inr ⟨rfl, hq⟩, h⟩))))

/-! ## What the decode side's pseudocode keeps -/

/-- What decoding codes from the queue, or one given, keeps. -/
structure Decoded (d d' : DecSide) : Prop where
  phase : d'.phase = d.phase
  err : d'.err = d.err
  out : d.out <+: d'.out
  earlier : d'.earlier = d.earlier
  resp : d'.resp = d.resp
  seen : d'.seen = d.seen
  size : d.size ≤ d'.size
  width : d.width ≤ d'.width
  growth : d'.width = d.width ∨ (d.size ≤ 2 ^ d.width - 1 ∧ 2 ^ (d'.width - 1) - 1 ≤ d'.size)
  table : ∀ c, c < d.size → tableAt d'.table c = tableAt d.table c

theorem Decoded.refl (d : DecSide) : Decoded d d :=
  ⟨rfl, rfl, List.prefix_refl _, rfl, rfl, rfl, Nat.le_refl _, Nat.le_refl _, .inl rfl, fun _ _ => rfl⟩

theorem Decoded.trans {d d' d'' : DecSide} (h : Decoded d d') (h' : Decoded d' d'') : Decoded d d'' :=
  ⟨h'.phase.trans h.phase, h'.err.trans h.err, h.out.trans h'.out, h'.earlier.trans h.earlier,
    h'.resp.trans h.resp, h'.seen.trans h.seen, h.size.trans h'.size, h.width.trans h'.width,
    by
      have s1 := h.size
      have s2 := h'.size
      rcases h.growth with g | g <;> rcases h'.growth with g' | g'
      · exact .inl (g'.trans g)
      · rw [g] at g'; exact .inr ⟨by omega, g'.2⟩
      · rw [g']; exact .inr ⟨g.1, by omega⟩
      · exact .inr ⟨g.1, g'.2⟩,
    fun c hc => (h'.table c (lt_of_lt_of_le hc h.size)).trans (h.table c hc)⟩

/-- R212: one decoded code grows the width by one exactly when the table then reaches the threshold. -/
theorem decodeCode_growth {c : Nat} {d d' : DecSide} (h : decodeCode c d = .ok d') :
    (d'.size = 2 ^ d.width - 1 ∧ d'.width = d.width + 1) ∨ (d'.size ≠ 2 ^ d.width - 1 ∧ d'.width = d.width) := by
  have key : d'.width = decGrownWidth d'.size d.width := by
    rcases decodeCode_cases c d with ⟨sq, -, -, -, e⟩ | ⟨p, sp, sq, f, -, -, -, -, -, e⟩ |
      ⟨p, sp, f, -, -, -, -, e⟩ | ⟨-, e⟩ | e <;> rw [e] at h <;> cases h <;> rfl
  rw [key]
  unfold decGrownWidth
  split
  · exact .inl ⟨‹_›, rfl⟩
  · exact .inr ⟨‹_›, rfl⟩

theorem decodeCode_decoded {c : Nat} {d d' : DecSide} (h : decodeCode c d = .ok d') : Decoded d d' := by
  have size : d.size ≤ d'.size := by
    rcases decodeCode_cases c d with ⟨sq, -, -, -, e⟩ | ⟨p, sp, sq, f, -, -, -, -, -, e⟩ |
      ⟨p, sp, f, -, -, -, -, e⟩ | ⟨-, e⟩ | e <;> rw [e] at h <;> cases h <;> simp [emitted, learned]
  have growth : d'.width = d.width ∨ (d.size ≤ 2 ^ d.width - 1 ∧ 2 ^ (d'.width - 1) - 1 ≤ d'.size) := by
    rcases decodeCode_growth h with ⟨hs, hw⟩ | ⟨-, hw⟩
    · exact .inr ⟨by omega, by rw [hw, Nat.add_sub_cancel]; omega⟩
    · exact .inl hw
  rcases decodeCode_cases c d with ⟨sq, -, -, -, e⟩ | ⟨p, sp, sq, f, -, -, -, -, -, e⟩ |
    ⟨p, sp, f, -, -, -, -, e⟩ | ⟨-, e⟩ | e <;> rw [e] at h <;> cases h
  · exact ⟨rfl, rfl, List.prefix_append _ _, rfl, rfl, rfl, size, (decGrownWidth_le _ _).1, growth, fun _ _ => rfl⟩
  all_goals exact ⟨rfl, rfl, List.prefix_append _ _, rfl, rfl, rfl, size, (decGrownWidth_le _ _).1, growth,
    fun k hk => tableAt_setTable_of_ne _ _ (Nat.ne_of_lt hk)⟩

theorem decodeQueued_decoded {mw : Nat} : ∀ (fuel : Nat) {d d' : DecSide},
    decodeQueued mw fuel d = .ok d' → Decoded d d' := by
  intro fuel
  induction fuel with
  | zero => intro d d' h; cases h
  | succ fuel ih =>
    intro d d' h
    by_cases hq : d.width ≤ d.upq.length
    · by_cases hm : mw < d.width
      · rw [decodeQueued_capacity hq hm] at h; cases h
      · rw [decodeQueued_pass hq (by omega)] at h
        rcases he : decodeCode (frontCode d) (withoutFront d) with x | d1 <;> rw [he] at h
        · cases h
        · have h' := decodeCode_decoded he
          exact Decoded.trans ⟨h'.phase, h'.err, h'.out, h'.earlier, h'.resp, h'.seen, h'.size, h'.width,
            h'.growth, h'.table⟩ (ih h)
    · rw [decodeQueued_stops (by omega)] at h
      cases h
      exact Decoded.refl _

/-- What a decode-side command that runs leaves: the seed (DEC_INIT), codes decoded after D.SEEN is set
(DEC_BYTE, DEC_CODE), the end of the session, or only the queue (and UP.RESP, UP_GET) changed. -/
theorem decCommand_ok {mw : Nat} {i : Instr} {n : Needs} {body : DecSide → Cmd DecSide} {d d' : DecSide}
    (hi : decCommand mw i = some (n, body)) (hb : body d = .ok d') :
    (i = .decInit ∧ d' = seedDec .active d.resp d) ∨
    (∃ q, ((∃ b, i = .decByte b) ∨ ∃ c, i = .decCode c) ∧ Decoded { d with upq := q, seen := true } d') ∨
    (i = .decEnd ∧ d' = { d with upq := [], phase := .idle }) ∨
    (∃ b, i = .upPut b ∧ d' = { d with upq := d.upq ++ byteBits b }) ∨
    (∃ w, i = .upGet w ∧
      d' = { d with upq := d.upq.drop w, resp := BitVec.ofNat 32 (valOf (d.upq.take w)) }) := by
  cases i <;> simp only [decCommand, Option.some.injEq, Prod.mk.injEq, reduceCtorEq] at hi
  case decInit =>
    obtain ⟨-, rfl⟩ := hi
    exact .inl ⟨rfl, by simpa using hb.symm⟩
  case decByte b =>
    obtain ⟨-, rfl⟩ := hi
    by_cases h24 : d.upq.length ≤ 24
    · rw [decByteBody_push b h24] at hb
      exact .inr (.inl ⟨_, .inl ⟨b, rfl⟩, decodeQueued_decoded _ hb⟩)
    · rw [decByteBody_full b (by omega)] at hb; cases hb
  case decEnd =>
    obtain ⟨-, rfl⟩ := hi
    unfold decEndBody at hb
    split at hb
    · cases hb
    · split at hb <;> cases hb
      exact .inr (.inr (.inl ⟨rfl, rfl⟩))
  case upPut b =>
    obtain ⟨-, rfl⟩ := hi
    unfold upPush at hb
    split at hb <;> cases hb
    exact .inr (.inr (.inr (.inl ⟨b, rfl, rfl⟩)))
  case upGet w =>
    obtain ⟨-, rfl⟩ := hi
    by_cases h : w ≤ d.upq.length
    · rw [upGetBody_ok h] at hb; cases hb
      exact .inr (.inr (.inr (.inr ⟨w, rfl, rfl⟩)))
    · rw [upGetBody_error (by omega)] at hb; cases hb
  case decCode c =>
    obtain ⟨-, rfl⟩ := hi
    by_cases hm : mw < d.width
    · rw [decCodeBody_capacity hm] at hb; cases hb
    · rw [decCodeBody_fits (by omega)] at hb
      exact .inr (.inl ⟨d.upq, .inr ⟨c, rfl⟩, decodeCode_decoded hb⟩)

end Sys2Proof.Machine
end

