-- ==== Sys2Proof/Laws/PerInstr.lean ====
section
/-!
SUPPORT. Facts about every command as syntax, one lemma per constructor: the opcode field of its word,
and that the word is charged to the command's side (R91, R97).
-/

namespace Sys2Proof.Laws

/-- R97: the OP field of a command's word is the command's opcode. -/
def OpcodeField.Statement (i : Instr) : Prop := fieldOp (encode i) = i.opcode

theorem OpcodeField.encInit : OpcodeField.Statement .encInit := fieldOp_commandWord _ _ _ (by decide)
theorem OpcodeField.encByte (b : Byte) : OpcodeField.Statement (.encByte b) := fieldOp_commandWord _ _ _ (by simp [Instr.opcode])
theorem OpcodeField.encEnd : OpcodeField.Statement .encEnd := fieldOp_commandWord _ _ _ (by decide)
theorem OpcodeField.pkPut (w v : Nat) : OpcodeField.Statement (.pkPut w v) := fieldOp_commandWord _ _ _ (by simp [Instr.opcode])
theorem OpcodeField.pkFlush : OpcodeField.Statement .pkFlush := fieldOp_commandWord _ _ _ (by decide)
theorem OpcodeField.decInit : OpcodeField.Statement .decInit := fieldOp_commandWord _ _ _ (by decide)
theorem OpcodeField.decByte (b : Byte) : OpcodeField.Statement (.decByte b) := fieldOp_commandWord _ _ _ (by simp [Instr.opcode])
theorem OpcodeField.decEnd : OpcodeField.Statement .decEnd := fieldOp_commandWord _ _ _ (by decide)
theorem OpcodeField.upPut (b : Byte) : OpcodeField.Statement (.upPut b) := fieldOp_commandWord _ _ _ (by simp [Instr.opcode])
theorem OpcodeField.upGet (w : Nat) : OpcodeField.Statement (.upGet w) := fieldOp_commandWord _ _ _ (by simp [Instr.opcode])
theorem OpcodeField.decCode (c : Nat) : OpcodeField.Statement (.decCode c) := fieldOp_commandWord _ _ _ (by simp [Instr.opcode])

/-- R91: the word of a command is charged to the command's side. -/
def WordSide.Statement (i : Instr) : Prop := sideOfWord (encode i) = i.side

/-- The side of a word whose opcode field is known. -/
theorem WordSide.of_opcode (i : Instr) (h : OpcodeField.Statement i)
    (hs : (if 8 ≤ i.opcode then Side.decode else .encode) = i.side) : WordSide.Statement i := by
  unfold WordSide.Statement
  rw [sideOfWord_eq, h, hs]

theorem WordSide.encInit : WordSide.Statement .encInit := WordSide.of_opcode _ OpcodeField.encInit rfl
theorem WordSide.encByte (b : Byte) : WordSide.Statement (.encByte b) := WordSide.of_opcode _ (OpcodeField.encByte b) rfl
theorem WordSide.encEnd : WordSide.Statement .encEnd := WordSide.of_opcode _ OpcodeField.encEnd rfl
theorem WordSide.pkPut (w v : Nat) : WordSide.Statement (.pkPut w v) := WordSide.of_opcode _ (OpcodeField.pkPut w v) rfl
theorem WordSide.pkFlush : WordSide.Statement .pkFlush := WordSide.of_opcode _ OpcodeField.pkFlush rfl
theorem WordSide.decInit : WordSide.Statement .decInit := WordSide.of_opcode _ OpcodeField.decInit rfl
theorem WordSide.decByte (b : Byte) : WordSide.Statement (.decByte b) := WordSide.of_opcode _ (OpcodeField.decByte b) rfl
theorem WordSide.decEnd : WordSide.Statement .decEnd := WordSide.of_opcode _ OpcodeField.decEnd rfl
theorem WordSide.upPut (b : Byte) : WordSide.Statement (.upPut b) := WordSide.of_opcode _ (OpcodeField.upPut b) rfl
theorem WordSide.upGet (w : Nat) : WordSide.Statement (.upGet w) := WordSide.of_opcode _ (OpcodeField.upGet w) rfl
theorem WordSide.decCode (c : Nat) : WordSide.Statement (.decCode c) := WordSide.of_opcode _ (OpcodeField.decCode c) rfl

end Sys2Proof.Laws
end

