-- ==== Sys2Proof/Tests/Slice0.lean ====
section
/-!
SUPPORT. The model's own tests. Expected values are from the spec: the command words are written out
from its format and opcode map (30_encoding.md R90, R97), the results are the vectors of
95_test_vectors.md named in each comment. Last, for each statement that has hypotheses, a state and
operands that meet them, at the ends of their ranges.
-/

namespace Sys2Proof.Tests
open Sys2Proof Sys2Proof.Machine

/-! ## WellFormed refuses ill-formed commands -/

theorem test_pkPut_width_refused : ¬ (Instr.pkPut 32 0).WellFormed := by decide
theorem test_pkPut_value_refused : ¬ (Instr.pkPut 0 65536).WellFormed := by decide
theorem test_upGet_width_refused : ¬ (Instr.upGet 32).WellFormed := by decide
theorem test_decCode_code_refused : ¬ (Instr.decCode 65536).WellFormed := by decide
theorem test_wellFormedB_refuses :
    [Instr.pkPut 32 0, .pkPut 0 65536, .upGet 32, .decCode 65536].map Instr.wellFormedB =
      [false, false, false, false] := by decide
theorem test_greatest_operands_wellFormed :
    (Instr.pkPut 31 65535).WellFormed ∧ (Instr.upGet 31).WellFormed ∧ (Instr.decCode 65535).WellFormed := by
  decide

/-! ## Words written out bit by bit: OP, RSV, W, IMM -/

theorem test_decode_encInit : decode 0b0001_0000000_00000_0000000000000000#32 = .ok .encInit := by decide
theorem test_decode_encByte : decode 0b0010_0000000_00000_0000000010100101#32 = .ok (.encByte 0xA5#8) := by decide
theorem test_decode_encEnd : decode 0b0011_0000000_00000_0000000000000000#32 = .ok .encEnd := by decide
theorem test_decode_pkPut : decode 0b0100_0000000_10100_1010101111001101#32 = .ok (.pkPut 20 0xABCD) := by decide
theorem test_decode_pkFlush : decode 0b0101_0000000_00000_0000000000000000#32 = .ok .pkFlush := by decide
theorem test_decode_decInit : decode 0b1001_0000000_00000_0000000000000000#32 = .ok .decInit := by decide
theorem test_decode_decByte : decode 0b1010_0000000_00000_0000000010000001#32 = .ok (.decByte 0x81#8) := by decide
theorem test_decode_decEnd : decode 0b1011_0000000_00000_0000000000000000#32 = .ok .decEnd := by decide
theorem test_decode_upPut : decode 0b1100_0000000_00000_0000000011011110#32 = .ok (.upPut 0xDE#8) := by decide
theorem test_decode_upGet : decode 0b1101_0000000_11110_0000000000000000#32 = .ok (.upGet 30) := by decide
theorem test_decode_decCode : decode 0b1110_0000000_00000_1000000000000001#32 = .ok (.decCode 32769) := by decide

/-- The five kinds of illegal word, and the reserved opcodes of R99. -/
theorem test_illegal_words :
    decode 0b0001_0000001_00000_0000000000000000#32 = .error .rsvNotZero ∧
    decode 0b1010_0000000_10000_0000000000000000#32 = .error .widthNotZero ∧
    decode 0b0101_0000000_00000_0000000000000001#32 = .error .immNotZero ∧
    decode 0b1101_0000000_01001_1000000000000000#32 = .error .immNotZero ∧
    decode 0b0010_0000000_00000_0000000100000000#32 = .error .immHighNotZero ∧
    [0x00000000#32, 0x60000000#32, 0x70000000#32, 0x80000000#32, 0xF0000000#32].all
      (fun cw => decode cw == .error .reservedOpcode) = true := by decide

/-- decodeTableWord and withFetchWord: a 32-bit table word, and what the first step makes of it. -/
theorem test_tableWord : decodeTableWord 32 0x40090041 = some (.pkPut 9 0x41) := by decide
theorem test_first_step : step (State.reset.withFetchWord 32 0x10000000) =
    .next { State.reset with enc := { EncSide.reset with phase := .active } } := rfl

/-! ## Sample states -/

/-- A MAX_WIDTH = 16 block in the given sides. -/
def block (e : EncSide) (d : DecSide) : State := { enc := e, dec := d, maxWidth := 16, port := [] }

/-- An encode session with no byte yet (after ENC_INIT), with bits already queued by PK_PUT. -/
def encOpen (q : Bits) : EncSide := { EncSide.reset with phase := .active, pkq := q }

/-- A decode session with no code yet (after DEC_INIT), with bits queued by UP_PUT. -/
def decOpen (q : Bits) : DecSide := { DecSide.reset with phase := .active, upq := q }

/-- P1 after its third ENC_BYTE: codes 65 and 66 packed, AB = 256 and BA = 257 learned. -/
def encMid : EncSide :=
  { phase := .active, err := none, width := 9, next := 258, cur := some 65,
    trie := [(childKey 65 0x42#8, 256), (childKey 66 0x41#8, 257)], pkq := [true, false],
    out := [0x20#8, 0x90#8], earlier := [] }

/-- P2 after its third DEC_BYTE: codes 65 and 66 decoded, AB = 256 learned. -/
def decMid : DecSide :=
  { phase := .active, err := none, width := 9, size := 257, prev := some 66, seen := true,
    table := [(256, [0x41#8, 0x42#8])], upq := [true, false, false, false, false, false], resp := 0#32,
    out := [0x41#8, 0x42#8], earlier := [] }

def mid : State := block encMid decMid
def opened : State := block (encOpen []) (decOpen [])

/-- The encode side FAILED (E17) and the decode side FAILED (D23). -/
def failed : State :=
  block { EncSide.reset with phase := .failed, err := some .notActive }
    { DecSide.reset with phase := .failed, err := some .notActive }

/-- E12's dictionary after n insertions: Child(i, i + 1) = 256 + i. -/
def longTrie (n : Nat) : Trie := (List.range n).map fun i => (childKey i (BitVec.ofNat 8 (i + 1)), 256 + i)

/-- The table of the same input after n insertions. -/
def longTable (n : Nat) : CodeTable :=
  (List.range n).map fun i => (256 + i, [BitVec.ofNat 8 i, BitVec.ofNat 8 (i + 1)])

/-- MAX_WIDTH = 9: E15 (all of E12's input read) and D10 one code before its end. -/
def nearlyFull : State :=
  { enc := { EncSide.reset with
      phase := .active, next := 511, cur := some 510, trie := longTrie 255, pkq := List.replicate 7 true }
    dec := { DecSide.reset with
      phase := .active, size := 510, prev := some 254, seen := true, table := longTable 254 }
    maxWidth := 9, port := [] }

/-- MAX_WIDTH = 9: E20 before its ENC_END, and D29 before its last byte: no code fits any more. -/
def full : State :=
  { enc := { EncSide.reset with
      phase := .active, width := 10, next := 512, cur := some 0, trie := longTrie 256 }
    dec := { DecSide.reset with
      phase := .active, width := 10, size := 511, prev := some 255, seen := true, table := longTable 255,
      upq := [true, true] }
    maxWidth := 9, port := [] }

/-! ## Results (95_test_vectors.md) -/

def idle : State := State.resetWith 16

/-- B1 -/
theorem test_pkPut : exec (.pkPut 9 0x41) idle =
    .next { idle with enc := { idle.enc with out := [0x20#8], pkq := [true] } } := rfl
/-- B8 -/
theorem test_pkPut_wide : exec (.pkPut 20 0xABCD) idle =
    .next { idle with enc := { idle.enc with out := [0x0A#8, 0xBC#8], pkq := [true, true, false, true] } } := rfl
/-- B2 -/
theorem test_pkFlush : exec .pkFlush { idle with enc := { idle.enc with out := [0x20#8], pkq := [true] } } =
    .next { idle with enc := { idle.enc with out := [0x20#8, 0x80#8] } } := rfl
/-- B12 -/
theorem test_upPut : exec (.upPut 0x20#8) idle = .next { idle with dec := { idle.dec with
    upq := [false, false, true, false, false, false, false, false] } } := rfl
/-- B19: UP_GET 3 on A5. -/
theorem test_upGet : exec (.upGet 3) { idle with dec := { idle.dec with upq := byteBits 0xA5#8 } } =
    .next { idle with dec := { idle.dec with upq := [false, false, true, false, true], resp := 5#32 } } := rfl
/-- B20 -/
theorem test_encInit : exec .encInit { idle with enc := { idle.enc with pkq := [true, false, true] } } =
    .next { idle with enc := { idle.enc with phase := .active } } := rfl
/-- P1, fourth ENC_BYTE: a hit. -/
theorem test_encByte_hit : exec (.encByte 0x42#8) mid =
    .next { mid with enc := { mid.enc with cur := some 256 } } := rfl
/-- P1, second ENC_BYTE: a miss. -/
theorem test_encByte_miss :
    exec (.encByte 0x42#8) { idle with enc := { encOpen [] with cur := some 65 } } =
      .next { idle with enc := { encOpen [] with
        cur := some 66, next := 257, trie := [(childKey 65 0x42#8, 256)], pkq := [true], out := [0x20#8] } } := rfl
/-- E1: the end of the session over one byte. -/
theorem test_encEnd : exec .encEnd { idle with enc := { encOpen [] with cur := some 65 } } =
    .next { idle with enc := { idle.enc with out := [0x20#8, 0x80#8] } } := rfl
/-- E19 -/
theorem test_encEnd_empty : exec .encEnd { idle with enc := encOpen [] } =
    .next { idle with enc := { encOpen [] with phase := .failed, err := some .emptyInput } } := rfl
/-- B21: UP.RESP is kept. -/
theorem test_decInit : exec .decInit { idle with dec := { idle.dec with upq := [true], resp := 5#32 } } =
    .next { idle with dec := { idle.dec with phase := .active, resp := 5#32 } } := rfl
/-- P2, second DEC_BYTE: one code is complete. -/
theorem test_decByte : exec (.decByte 0x90#8) { idle with dec := { decOpen (byteBits 0x20#8) with seen := true } } =
    .next { idle with dec := { decOpen [false, false, true, false, false, false, false] with
      seen := true, prev := some 65, out := [0x41#8] } } := rfl
/-- D27: three codes in one command. -/
theorem test_decByte_three :
    exec (.decByte 0x10#8) { idle with dec := decOpen ([0x20#8, 0x90#8, 0xA0#8].flatMap byteBits) } =
    .next { idle with dec := { decOpen [true, false, false, false, false] with
      seen := true, prev := some 256, size := 258,
      table := [(256, [0x41#8, 0x42#8]), (257, [0x42#8, 0x41#8])],
      out := [0x41#8, 0x42#8, 0x41#8, 0x42#8] } } := rfl
/-- D15: the symmetric case. -/
theorem test_decCode_symmetric :
    exec (.decCode 256) { idle with dec := { decOpen [] with seen := true, prev := some 65, out := [0x41#8] } } =
    .next { idle with dec := { decOpen [] with
      seen := true, prev := some 256, size := 257, table := [(256, [0x41#8, 0x41#8])],
      out := [0x41#8, 0x41#8, 0x41#8] } } := rfl
/-- D17: D.SEEN is restored. -/
theorem test_decCode_format : exec (.decCode 256) { idle with dec := decOpen [] } =
    .next { idle with dec := { decOpen [] with phase := .failed, err := some .format } } := rfl
/-- D26's end: queued padding is discarded. -/
theorem test_decEnd : exec .decEnd mid = .next { mid with dec := { mid.dec with phase := .idle, upq := [] } } := rfl
/-- D21 -/
theorem test_decEnd_truncated :
    exec .decEnd { idle with dec := { decOpen (byteBits 0x20#8) with seen := true } } =
    .next { idle with dec := { decOpen (byteBits 0x20#8) with
      seen := true, phase := .failed, err := some .truncated } } := rfl
/-- I1, I3: an illegal word is charged to the side of its bit 31. -/
theorem test_illegal_encode : issue 0x00000000#32 idle =
    .next { idle with enc := { idle.enc with phase := .failed, err := some .illegal } } := rfl
theorem test_illegal_decode : issue 0x80000000#32 idle =
    .next { idle with dec := { idle.dec with phase := .failed, err := some .illegal } } := rfl
/-- R270 on a running block: the lists count from reset, and what was delivered stays delivered. -/
theorem test_reset_restarts_ports : step { mid with port := [.reset] } =
    .next { block { EncSide.reset with earlier := [0x20#8, 0x90#8] }
      { DecSide.reset with earlier := [0x41#8, 0x42#8] } with port := [] } := rfl
/-- The register words of B8, D27 and I15. -/
theorem test_registers :
    readRegister 0x14#8 (block { EncSide.reset with pkq := [true, true, false, true] } DecSide.reset) =
      0xD004#32 ∧
    readRegister 0x25#8 (block EncSide.reset (decOpen [true, false, false, false, false])) = 0x80000000#32 ∧
    readRegister 0x10#8 failed = 0x22#32 ∧ readRegister 0x20#8 mid = 0x101#32 ∧
    readRegister 0x23#8 (block EncSide.reset { decMid with prev := some 65 }) = 0x10041#32 := by decide

/-! ## Assembly (R101 to R103) -/

theorem test_asm_bytes : assembleLine "  ENC_BYTES \"AB\", 'C', 0x44, 69 ; and a comment".toList =
    .ok [.encByte 0x41#8, .encByte 0x42#8, .encByte 0x43#8, .encByte 0x44#8, .encByte 0x45#8] := by rfl
/-- The model's choice (log 10): an empty string is no byte, and no byte at all is an error. -/
theorem test_asm_empty_string : assembleLine "UP_PUTS \"\", 65".toList = .ok [.upPut 65#8] ∧
    assembleLine "UP_PUTS \"\"".toList = .error .badOperands := ⟨by rfl, by rfl⟩
theorem test_asm_out_of_range : assembleLine "PK_PUT 32, 0".toList = .error .outOfRange := by rfl

/-! ## States that meet the hypotheses of the statements -/

theorem encSeed_laws : EncLaws 16 (encOpen []) :=
  ⟨by decide, by decide, by decide, by decide, by decide, by decide, by decide, by decide, by decide, by decide,
    by decide, by decide⟩

theorem decSeed_laws : DecLaws 16 (decOpen []) :=
  ⟨by decide, by decide, by decide, by decide, by decide, by decide, by decide, by decide, by decide, by decide⟩

theorem open_inv (p q : Bits) (hp : p.length ≤ 7) (hq : q.length ≤ 32) :
    Inv (block (encOpen p) (decOpen q)) :=
  ⟨by simp [block], { encSeed_laws with queue_short := hp }, { decSeed_laws with queue_short := hq }⟩

theorem idle_inv : Inv idle :=
  ⟨by decide,
    ⟨by decide, by decide, by decide, by decide, by decide, by decide, by decide, by decide, by decide,
      by decide, by decide, by decide⟩,
    ⟨by decide, by decide, by decide, by decide, by decide, by decide, by decide, by decide, by decide,
      by decide⟩⟩

theorem encMid_laws : EncLaws 16 encMid :=
  ⟨by decide, by decide, by decide, by decide, by decide, by decide, by decide, by decide, by decide, by decide,
    by decide, by decide⟩

theorem decMid_laws : DecLaws 16 decMid :=
  ⟨by decide, by decide, by decide, by decide, by decide, by decide, by decide, by decide,
    by simp only [decMid, List.mem_singleton, forall_eq]; exact ⟨by decide, 65, by decide, by rfl⟩, by decide⟩

theorem mid_inv : Inv mid := ⟨by decide, encMid_laws, decMid_laws⟩

theorem failed_inv : Inv failed :=
  ⟨by decide,
    ⟨by decide, by decide, by decide, by decide, by decide, by decide, by decide, by decide, by decide,
      by decide, by decide, by decide⟩,
    ⟨by decide, by decide, by decide, by decide, by decide, by decide, by decide, by decide, by decide,
      by decide⟩⟩

theorem longTrie_canonical (n : Nat) : NatMapCanonical (longTrie n) := by
  unfold NatMapCanonical longTrie
  rw [List.map_map, List.pairwise_map]
  refine List.pairwise_lt_range.imp fun {i j} h => ?_
  simp only [Function.comp, childKey, BitVec.toNat_ofNat]
  omega

theorem longTrie_codes (n : Nat) : ∀ x ∈ longTrie n, 256 ≤ x.2 ∧ x.2 < 256 + n ∧ keyParent x.1 < x.2 := by
  intro x hx
  obtain ⟨i, hi, rfl⟩ := List.mem_map.mp hx
  have := List.mem_range.mp hi
  simp only [keyParent_childKey]
  omega

theorem longTrie_injective (n : Nat) : ((longTrie n).map Prod.snd).Nodup := by
  unfold longTrie
  rw [List.map_map]
  exact List.Nodup.map (fun i j h => by simpa using h) List.nodup_range

/-- A pair that is no child in that dictionary. -/
theorem longTrie_no_child (n c : Nat) (b : Byte) (h : c < n → b ≠ BitVec.ofNat 8 (c + 1)) :
    child (longTrie n) (.code c) b = none := by
  refine (natMapGet_eq_none_iff _ _).mpr fun hm => ?_
  obtain ⟨x, hx, he⟩ := List.mem_map.mp hm
  obtain ⟨i, hi, rfl⟩ := List.mem_map.mp hx
  obtain ⟨rfl, hb⟩ := childKey_inj he
  exact h (List.mem_range.mp hi) hb.symm

theorem longTable_keys (n : Nat) : (longTable n).map Prod.fst = List.range' 256 n := by
  unfold longTable
  rw [List.map_map, List.range'_eq_map_range]
  rfl

theorem longTable_entries (n : Nat) (h : n ≤ 256) : ∀ x ∈ longTable n, 2 ≤ x.2.length ∧
    ∃ p < x.1, tableAt (longTable n) p = some x.2.dropLast := by
  intro x hx
  obtain ⟨i, hi, rfl⟩ := List.mem_map.mp hx
  have := List.mem_range.mp hi
  exact ⟨by simp, i, by simp only; omega, by simp [tableAt, Config.alphabet, show i < 256 by omega]⟩

theorem nearlyFull_inv : Inv nearlyFull :=
  ⟨by decide,
    ⟨by decide, by decide, by decide, by decide, by decide, by decide, by decide, longTrie_canonical _,
      longTrie_codes 255, longTrie_injective _, by simp [nearlyFull, longTrie], by decide⟩,
    ⟨by decide, by decide, by decide, by decide, by decide, by decide, by decide, longTable_keys 254,
      longTable_entries 254 (by decide), by decide⟩⟩

theorem full_inv : Inv full :=
  ⟨by decide,
    ⟨by decide, by decide, by decide, by decide, by decide, by decide, by decide, longTrie_canonical _,
      longTrie_codes 256, longTrie_injective _, by simp [full, longTrie], by decide⟩,
    ⟨by decide, by decide, by decide, by decide, by decide, by decide, by decide, longTable_keys 255,
      longTable_entries 255 (by decide), by decide⟩⟩

/-! ### Reset, the step, the encoding -/

theorem hyp_ResetLeavesBothSidesSeededAndIdle : 256 ≤ 256 := by decide

theorem hyp_ResetInputRestoresResetValues :
    ({ mid with port := [.reset] } : State).port = .reset :: [] := rfl

theorem hyp_AfterResetOnlyRawCommandsAndInitsRun :
    0 < 2 ^ 0 ∧ 65535 < 2 ^ 16 ∧ (∃ b : Byte, Instr.encByte 255#8 = .encByte b) ∧
    (∃ b : Byte, Instr.decByte 0#8 = .decByte b) ∧ (∃ c : Nat, Instr.decCode 65535 = .decCode c) :=
  ⟨by decide, by decide, ⟨_, rfl⟩, ⟨_, rfl⟩, ⟨_, rfl⟩⟩

theorem hyp_StepExecutesTheDecodedCommand :
    ({ mid with port := [.command 0xD01F0000#32] } : State).port = .command 0xD01F0000#32 :: [] ∧
    decode 0xD01F0000#32 = .ok (.upGet 31) := ⟨rfl, by decide⟩

theorem illegal_of_error {cw : Word} {x : IllegalWord} (h : decode cw = .error x) (i : Instr) :
    decode cw ≠ .ok i := by simp [h]

theorem hyp_IllegalWordIsChargedToItsSide :
    (∀ i, decode 0x7FFFFFFF#32 ≠ .ok i) ∧ (∀ i, decode 0x80000000#32 ≠ .ok i) ∧
    (0x7FFFFFFF#32).getLsbD 31 = false ∧ (0x80000000#32).getLsbD 31 = true ∧
    opened.enc.phase ≠ .failed ∧ opened.dec.phase ≠ .failed ∧ failed.enc.phase = .failed ∧
    failed.dec.phase = .failed :=
  ⟨illegal_of_error (x := .reservedOpcode) (by decide), illegal_of_error (x := .reservedOpcode) (by decide),
    by decide⟩

theorem hyp_NothingIssuedNothingChanges : mid.port = [] := rfl

theorem hyp_DecodeOfEncodeIsTheCommand :
    (Instr.pkPut 31 65535).WellFormed ∧ (Instr.upGet 31).WellFormed ∧ (Instr.decCode 65535).WellFormed ∧
    (Instr.encByte 255#8).WellFormed ∧ Instr.encInit.WellFormed := by decide

theorem hyp_EncodeOfDecodeIsTheWord :
    decode 0x401FFFFF#32 = .ok (.pkPut 31 65535) ∧ decode 0x10000000#32 = .ok .encInit := by decide

theorem hyp_LegalExactlyByTheOpcodeMap :
    (⟨0x40000000#32, 0xFFE00000#32⟩ : OpcodeRow) ∈ opcodeRows ∧
    0x401FFFFF#32 &&& 0xFFE00000#32 = 0x40000000#32 := by decide

theorem hyp_BitListsReadMostSignificantFirst : 0 < 2 ^ 0 ∧ 511 < 2 ^ 9 ∧ 8 < 9 := by decide

/-! ### Bit channel -/

theorem hyp_PkPutPacksAValue :
    mid.enc.phase ≠ .failed ∧ 0 < 2 ^ 0 ∧ 2 ^ 0 ≤ 1 ∧ 511 < 2 ^ 9 ∧ 2 ^ 9 ≤ 512 := by decide

theorem hyp_PkFlushCompletesTheByte :
    opened.enc.phase ≠ .failed ∧ opened.enc.pkq = [] ∧ nearlyFull.enc.phase ≠ .failed ∧
    nearlyFull.enc.pkq ≠ [] ∧ nearlyFull.enc.pkq.length = 7 := by decide

theorem hyp_UpPutQueuesAByte :
    (decOpen (List.replicate 24 true)).phase ≠ .failed ∧ (decOpen (List.replicate 24 true)).upq.length ≤ 24 ∧
    (decOpen (List.replicate 25 true)).phase ≠ .failed ∧ 24 < (decOpen (List.replicate 25 true)).upq.length := by
  decide

theorem hyp_UpGetDequeuesBits :
    (decOpen (List.replicate 31 true)).phase ≠ .failed ∧ 31 ≤ 31 ∧
    31 ≤ (decOpen (List.replicate 31 true)).upq.length ∧
    (decOpen (List.replicate 30 true)).phase ≠ .failed ∧ (decOpen (List.replicate 30 true)).upq.length < 31 := by
  decide

theorem hyp_PackingLaw :
    opened.enc.phase ≠ .failed ∧ opened.enc.pkq = [] ∧ ∀ x ∈ ([(3, 5), (9, 511), (0, 0)] : List (Nat × Nat)), x.2 < 2 ^ x.1 := by
  decide

/-- B13, with the packed values its bytes carry: 65 at width 9. -/
theorem hyp_UnpackingLaw :
    opened.dec.upq = [] ∧ opened.dec.phase ≠ .failed ∧
    (∀ n, (.inr n : Byte ⊕ Nat) ∈ [.inl 0x20#8, .inr 3, .inl 0x80#8] → n ≤ 31) ∧ 6 ≤ 31 ∧
    (∃ t, execAll ([.inl 0x20#8, .inr 3, .inl 0x80#8].map (Sum.elim .upPut .upGet) ++ [.upGet 6]) opened =
      .next t ∧ t.dec.phase ≠ .failed) ∧
    (∀ x ∈ ([(3, 1)] : List (Nat × Nat)), x.2 < 2 ^ x.1) ∧ 1 < 2 ^ 6 ∧
    ([.inl 0x20#8, .inr 3, .inl 0x80#8] : List (Byte ⊕ Nat)).filterMap Sum.getRight? = [(3, 1)].map Prod.fst ∧
    ([.inl 0x20#8, .inr 3, .inl 0x80#8] : List (Byte ⊕ Nat)).flatMap (Sum.elim byteBits (fun _ => [])) <+:
      ([(3, 1)] ++ (6, 1) :: []).flatMap (fun x : Nat × Nat => bitsOf x.1 x.2) ++ List.replicate 7 false :=
  ⟨by decide, by decide, by simp, by decide, ⟨_, rfl, by decide⟩, by decide, by decide, by decide, by decide⟩

/-! ### Encoder -/

theorem hyp_EncByteExtendsTheCandidate :
    (EncLaws opened.maxWidth opened.enc ∧ opened.enc.phase = .active ∧ opened.enc.cur = none) ∧
    (EncLaws mid.maxWidth mid.enc ∧ mid.enc.phase = .active ∧ mid.enc.cur = some 65 ∧
      child mid.enc.trie (.code 65) 0x42#8 = some 256) ∧
    (child mid.enc.trie (.code 65) 0x41#8 = none ∧ mid.enc.width ≤ mid.maxWidth) ∧
    (EncLaws nearlyFull.maxWidth nearlyFull.enc ∧ nearlyFull.enc.phase = .active ∧
      nearlyFull.enc.cur = some 510 ∧ child nearlyFull.enc.trie (.code 510) 0#8 = none ∧
      nearlyFull.enc.width ≤ nearlyFull.maxWidth) ∧
    (EncLaws full.maxWidth full.enc ∧ full.enc.phase = .active ∧ full.enc.cur = some 0 ∧
      child full.enc.trie (.code 0) 0#8 = none ∧ full.maxWidth < full.enc.width) ∧
    (EncLaws idle.maxWidth idle.enc ∧ idle.enc.phase = .idle) :=
  ⟨⟨encSeed_laws, by decide⟩, ⟨encMid_laws, by decide⟩, by decide,
    ⟨nearlyFull_inv.enc, rfl, rfl, longTrie_no_child _ _ _ (by decide), by decide⟩,
    ⟨full_inv.enc, rfl, rfl, longTrie_no_child _ _ _ (by decide), by decide⟩,
    ⟨idle_inv.enc, rfl⟩⟩

theorem hyp_EncEndPacksAndFlushes :
    (EncLaws nearlyFull.maxWidth nearlyFull.enc ∧ nearlyFull.enc.phase = .active ∧
      nearlyFull.enc.cur = some 510 ∧ nearlyFull.enc.width ≤ nearlyFull.maxWidth) ∧
    (EncLaws opened.maxWidth opened.enc ∧ opened.enc.phase = .active ∧ opened.enc.cur = none) ∧
    (EncLaws full.maxWidth full.enc ∧ full.enc.phase = .active ∧ full.enc.cur = some 0 ∧
      full.maxWidth < full.enc.width) ∧
    (EncLaws idle.maxWidth idle.enc ∧ idle.enc.phase = .idle) :=
  ⟨⟨nearlyFull_inv.enc, rfl, rfl, by decide⟩, ⟨encSeed_laws, by decide⟩, ⟨full_inv.enc, rfl, rfl, by decide⟩,
    ⟨idle_inv.enc, rfl⟩⟩

theorem hyp_EncoderCodesFitTheirWidth :
    EncLaws nearlyFull.maxWidth nearlyFull.enc ∧ nearlyFull.enc.cur = some (2 ^ nearlyFull.enc.width - 2) ∧
    EncLaws mid.maxWidth mid.enc ∧ mid.enc.err ≠ some .widthOverflow ∧ (∃ t, exec .encEnd mid = .next t) ∧
    (∃ t, exec (.encByte 0x41#8) mid = .next t) :=
  ⟨nearlyFull_inv.enc, rfl, encMid_laws, by decide, ⟨_, rfl⟩, ⟨_, rfl⟩⟩

theorem hyp_OneByteSessionDeliversOneCode : 9 ≤ nearlyFull.maxWidth := by decide

/-! ### Decoder -/

theorem hyp_DecCodeDecodesOneCode :
    (DecLaws opened.maxWidth opened.dec ∧ opened.dec.phase = .active ∧ opened.dec.width ≤ opened.maxWidth ∧
      255 < opened.dec.size ∧ opened.dec.prev = none) ∧
    (DecLaws mid.maxWidth mid.dec ∧ mid.dec.phase = .active ∧ mid.dec.width ≤ mid.maxWidth ∧
      256 < mid.dec.size ∧ mid.dec.prev = some 66) ∧
    257 = mid.dec.size ∧ mid.dec.size < 258 ∧ opened.dec.size = 256 ∧
    (DecLaws nearlyFull.maxWidth nearlyFull.dec ∧ nearlyFull.dec.phase = .active ∧
      nearlyFull.dec.width ≤ nearlyFull.maxWidth ∧ nearlyFull.dec.prev = some 254 ∧
      510 = nearlyFull.dec.size) ∧
    (DecLaws full.maxWidth full.dec ∧ full.dec.phase = .active ∧ full.maxWidth < full.dec.width) ∧
    (DecLaws idle.maxWidth idle.dec ∧ idle.dec.phase = .idle) :=
  ⟨⟨decSeed_laws, by decide⟩, ⟨decMid_laws, by decide⟩, rfl, by decide, rfl,
    ⟨nearlyFull_inv.dec, rfl, by decide, rfl, rfl⟩, ⟨full_inv.dec, rfl, by decide⟩, ⟨idle_inv.dec, rfl⟩⟩

/-- A block in an encode and a decode session with the given bits queued. -/
def queued (q : Bits) : State := block (encOpen []) (decOpen q)

/-- Clauses 1 to 3 and 5: no code completed, no room for the byte, no room for the code, no session. -/
theorem hyp_DecByteDecodesEveryCompleteCode :
    (Inv (queued []) ∧ (queued []).dec.phase = .active ∧ (queued []).dec.upq.length + 8 < (queued []).dec.width) ∧
    (Inv (queued (List.replicate 25 true)) ∧ (queued (List.replicate 25 true)).dec.phase = .active ∧
      24 < (queued (List.replicate 25 true)).dec.upq.length) ∧
    (Inv full ∧ full.dec.phase = .active ∧ full.dec.upq.length ≤ 24 ∧
      full.dec.width ≤ full.dec.upq.length + 8 ∧ full.maxWidth < full.dec.width) ∧
    (Inv idle ∧ idle.dec.phase = .idle) :=
  ⟨⟨open_inv _ _ (by decide) (by decide), by decide⟩, ⟨open_inv _ _ (by decide) (by decide), by decide⟩,
    ⟨full_inv, rfl, by decide, by decide, by decide⟩, ⟨idle_inv, rfl⟩⟩

/-- Clause 4: one code completed exactly (bit 0 and byte 41), a format error (bit 1 and byte FF), and
three codes (D27). -/
theorem hyp_DecByteDecodesEveryCompleteCode_decodes :
    (Inv (queued [false]) ∧ (queued [false]).dec.phase = .active ∧
      (queued [false]).dec.upq.length ≤ 24 ∧ (queued [false]).dec.width ≤ (queued [false]).dec.upq.length + 8 ∧
      (queued [false]).dec.width ≤ (queued [false]).maxWidth ∧
      ∃ t, exec (.decCode (valOf (([false] ++ byteBits 0x41#8).take 9))) (queued []) = .next t ∧
        t.dec.err = none ∧ t.dec.upq.length < t.dec.width) ∧
    (∃ t, exec (.decCode (valOf (([true] ++ byteBits 0xFF#8).take 9))) (queued []) = .next t ∧
      t.dec.err = some .format) ∧
    (Inv (queued ([0x20#8, 0x90#8, 0xA0#8].flatMap byteBits)) ∧
      ∃ t, exec (.decCode 65) (queued (([0x20#8, 0x90#8, 0xA0#8, 0x10#8].flatMap byteBits).drop 9)) = .next t ∧
        t.dec.err = none ∧ t.dec.width ≤ t.dec.upq.length) :=
  ⟨⟨open_inv _ _ (by decide) (by decide), by decide, by decide, by decide, by decide, _, rfl, by decide⟩,
    ⟨_, rfl, by decide⟩, open_inv _ _ (by decide) (by decide), _, rfl, by decide⟩

theorem hyp_DecEndClosesTheSession :
    (decMid.phase = .active ∧ decMid.seen = true ∧ decMid.upq.length ≤ 7) ∧
    ({ decOpen (byteBits 0x20#8) with seen := true }.phase = Phase.active ∧
      8 ≤ ({ decOpen (byteBits 0x20#8) with seen := true } : DecSide).upq.length) ∧
    ((decOpen []).phase = .active ∧ (decOpen []).seen = false) ∧ idle.dec.phase = .idle := by decide

theorem hyp_ValidCodesAreThoseUpToTheTableSize :
    (DecLaws mid.maxWidth mid.dec ∧ mid.dec.phase = .active ∧ mid.dec.width ≤ mid.maxWidth ∧
      ∃ t, exec (.decCode 257) mid = .next t ∧ t.dec.err = none) ∧
    (∃ t, exec (.decCode 258) mid = .next t ∧ t.dec.err ≠ none) ∧
    (∃ t, exec (.decCode (2 ^ mid.dec.width - 1)) mid = .next t) ∧
    (DecLaws opened.maxWidth opened.dec ∧ ∃ t, exec (.decCode 256) opened = .next t ∧ t.dec.err ≠ none) :=
  ⟨⟨decMid_laws, rfl, by decide, _, rfl, by decide⟩, ⟨_, rfl, by decide⟩, ⟨_, rfl⟩, decSeed_laws, _, rfl,
    by decide⟩

theorem hyp_OneCodePerByteAtMost :
    (DecLaws mid.maxWidth mid.dec ∧ ∃ t, exec .decInit mid = .next t) ∧
    (mid.dec.phase = .active ∧ QueueBelowWidth mid ∧ ∃ t, exec (.decCode 66) mid = .next t ∧ t.dec.err = none) ∧
    (∃ t, exec (.decByte 0x10#8) mid = .next t ∧ t.dec.err = none) ∧
    (DecLaws (queued (List.replicate 8 false)).maxWidth (queued (List.replicate 8 false)).dec ∧
      QueueBelowWidth (queued (List.replicate 8 false)) ∧
      ∃ t, exec (.decByte 0x41#8) (queued (List.replicate 8 false)) = .next t ∧ t.dec.err = none) :=
  ⟨⟨decMid_laws, _, rfl⟩, ⟨rfl, by unfold QueueBelowWidth; decide, _, rfl, by decide⟩, ⟨_, rfl, by decide⟩,
    (open_inv [] _ (by decide) (by decide)).dec, by unfold QueueBelowWidth; decide, _, rfl, by decide⟩

/-! ### Errors and whole-machine rules -/

theorem hyp_ErrorsAreAllOrNothing :
    (∃ t, issue 0x30000000#32 opened = .next t ∧ opened.enc.phase ≠ .failed ∧ t.enc.phase = .failed) ∧
    (∃ t, issue 0xE0000100#32 opened = .next t ∧ opened.dec.phase ≠ .failed ∧ t.dec.phase = .failed) ∧
    (∃ t, issue 0x00000000#32 opened = .next t ∧ t.enc.phase = .failed) :=
  ⟨⟨_, rfl, by decide, by decide⟩, ⟨_, rfl, by decide, by decide⟩, _, rfl, by decide⟩

theorem hyp_FailedSideIgnoresAllButInit :
    sideOfWord 0x00000000#32 = .encode ∧ failed.enc.phase = .failed ∧
    decode 0x00000000#32 ≠ .ok .encInit ∧ decode 0x20000041#32 ≠ .ok .encInit ∧
    sideOfWord 0xFFFFFFFF#32 = .decode ∧ failed.dec.phase = .failed ∧
    decode 0xFFFFFFFF#32 ≠ .ok .decInit ∧ decode 0xB0000000#32 ≠ .ok .decInit := by decide

theorem hyp_OnlyInitAndResetLeaveFailed :
    (∃ t, step { failed with port := [.command 0x10000000#32] } = .next t ∧
      failed.enc.phase = .failed ∧ t.enc.phase ≠ .failed) ∧
    (∃ t, step { failed with port := [.command 0x90000000#32] } = .next t ∧
      failed.dec.phase = .failed ∧ t.dec.phase ≠ .failed) ∧
    (∃ t, step { failed with port := [.reset] } = .next t ∧ t.enc.phase ≠ .failed ∧ t.dec.phase ≠ .failed) :=
  ⟨⟨_, rfl, by decide⟩, ⟨_, rfl, by decide⟩, _, rfl, by decide⟩

theorem hyp_InvHoldsAtReset : 9 ≤ 9 ∧ 9 ≤ 16 ∧ 16 ≤ 16 := by decide

theorem inv_with_port {s : State} (h : Inv s) (p : List HostInput) : Inv { s with port := p } :=
  ⟨h.max_width_range, h.enc, h.dec⟩

/-- Also the hypotheses of StepAlwaysCompletes, WidthsFollowTheDictionarySizes and
DictionariesNeverOverflow: a hit, a step that learns a code, one that fails, and one that is ignored. -/
theorem hyp_StepKeepsInv :
    (Inv { mid with port := [.command 0x20000042#32] } ∧
      ∃ t, step { mid with port := [.command 0x20000042#32] } = .next t) ∧
    (Inv { mid with port := [.command 0xE0000101#32] } ∧
      ∃ t, step { mid with port := [.command 0xE0000101#32] } = .next t) ∧
    (Inv { full with port := [.command 0x30000000#32] } ∧
      ∃ t, step { full with port := [.command 0x30000000#32] } = .next t) ∧
    (Inv { failed with port := [.command 0x20000042#32] } ∧
      ∃ t, step { failed with port := [.command 0x20000042#32] } = .next t) :=
  ⟨⟨inv_with_port mid_inv _, _, rfl⟩, ⟨inv_with_port mid_inv _, _, rfl⟩, ⟨inv_with_port full_inv _, _, rfl⟩,
    inv_with_port failed_inv _, _, rfl⟩

theorem hyp_DictionariesNeverOverflow :
    (∃ t, step { mid with port := [.command 0x20000041#32] } = .next t ∧
      child t.enc.trie (.code 65) 0x41#8 = some 258) ∧
    (∃ t, step { mid with port := [.command 0xE0000101#32] } = .next t ∧ t.dec.prev = some 257 ∧
      tableAt t.dec.table 257 = some [0x42#8, 0x42#8]) :=
  ⟨⟨_, rfl, by decide⟩, _, rfl, by decide⟩

theorem hyp_ACommandTouchesOnlyItsSide :
    (∃ t, issue 0x20000041#32 mid = .next t) ∧ sideOfWord 0x20000041#32 = .encode ∧
    (∃ t, issue 0xFFFFFFFF#32 mid = .next t) ∧ sideOfWord 0xFFFFFFFF#32 = .decode :=
  ⟨⟨_, rfl⟩, rfl, ⟨_, rfl⟩, rfl⟩

/-- The first commands of P5. -/
theorem hyp_InterleavingDoesNotMatter :
    ∃ t, issueAll [0x20000041#32, 0xA0000020#32, 0x20000042#32, 0xA0000090#32] opened = .next t := ⟨_, rfl⟩

/-- Also the hypotheses of MaxWidthNeverChanges. -/
theorem hyp_OutputPortsOnlyGrow :
    (∃ t, step { mid with port := [.command 0x20000041#32] } = .next t ∧ t.enc.out ≠ mid.enc.out ∧
      ∀ rest, ({ mid with port := [.command 0x20000041#32] } : State).port ≠ .reset :: rest) ∧
    (∃ t, step { mid with port := [.reset] } = .next t ∧ t.enc.out = [] ∧ t.enc.earlier = mid.enc.out) :=
  ⟨⟨_, rfl, by decide, by simp⟩, _, rfl, by decide⟩

theorem hyp_RespIsWrittenOnlyByUpGet :
    (∃ t, issue 0x90000000#32 { mid with dec := { mid.dec with resp := 5#32 } } = .next t) ∧
    (∀ w, decode 0x90000000#32 ≠ .ok (.upGet w)) :=
  ⟨⟨_, rfl⟩, fun w => by rw [show decode 0x90000000#32 = .ok .decInit by decide]; simp⟩

theorem hyp_SeenIsSetByBytesAndCodes :
    (∃ t, exec .decInit mid = .next t) ∧
    (∃ t, exec (.decByte 0x20#8) opened = .next t ∧ opened.dec.phase = .active ∧ t.dec.phase = .active) ∧
    (∃ t, exec (.decCode 0) opened = .next t ∧ t.dec.phase = .active) ∧
    (∃ t, exec (.upPut 0x20#8) opened = .next t) :=
  ⟨⟨_, rfl⟩, ⟨_, rfl, by decide⟩, ⟨_, rfl, by decide⟩, _, rfl⟩

theorem hyp_TableEntriesAreNeverRewritten :
    (∃ t, exec (.decCode 256) mid = .next t ∧ t.dec.table ≠ mid.dec.table) ∧ 256 < mid.dec.size ∧
    (∃ t, exec .decEnd mid = .next t) := ⟨⟨_, rfl, by decide⟩, by decide, _, rfl⟩

theorem hyp_TrieIsWrittenOnlyByEncByte :
    (∃ t, exec (.encByte 0x41#8) mid = .next t ∧ child t.enc.trie (.code 65) 0x41#8 = some 258) ∧
    child mid.enc.trie (.code 65) 0x42#8 = some 256 ∧ (∃ t, exec .encEnd mid = .next t) :=
  ⟨⟨_, rfl, by decide⟩, rfl, _, rfl⟩

set_option maxRecDepth 20000 in
/-- The growth that E16 shows, the decoder's at the same point (D10), and an INIT from width 10. -/
theorem hyp_WidthsChangeOnlyByInitAndGrowth :
    (∃ t, exec (.encByte 0#8) nearlyFull = .next t ∧ t.enc.width ≠ nearlyFull.enc.width) ∧
    (∃ t, exec (.decCode 255) nearlyFull = .next t ∧ t.dec.width ≠ nearlyFull.dec.width) ∧
    (∃ t, exec (.decByte 0xFF#8) { nearlyFull with dec := { nearlyFull.dec with upq := [false] } } = .next t ∧
      t.dec.width ≠ nearlyFull.dec.width) ∧
    (∃ t, exec .encInit full = .next t ∧ t.enc.width ≠ full.enc.width) ∧
    (∃ t, exec .decInit full = .next t ∧ t.dec.width ≠ full.dec.width) :=
  ⟨⟨_, rfl, by decide⟩, ⟨_, rfl, by decide⟩, ⟨_, rfl, by decide⟩, ⟨_, rfl, by decide⟩, _, rfl, by decide⟩

/-! ### Dictionaries, the codec, the assembler -/

theorem hyp_PathsAreInjectiveAndPrefixClosed :
    EncLaws 16 encMid ∧ 257 < encMid.next ∧ path encMid.trie 257 = some [0x42#8, 0x41#8] ∧
    1 ≤ [0x42#8, 0x41#8].length := ⟨encMid_laws, by decide, rfl, by decide⟩

/-- Also the hypotheses of AddInsertsOneByteExtensions. -/
theorem hyp_ExtensionIsOneChildLookup :
    EncLaws 16 encMid ∧ (0 : Nat) < encMid.next ∧ 257 < encMid.next ∧
    path encMid.trie 65 = some [0x41#8] ∧ child encMid.trie (.code 65) 0x42#8 = some 256 ∧
    path encMid.trie 257 = some [0x42#8, 0x41#8] ∧ child encMid.trie (.code 257) 0x42#8 = none :=
  ⟨encMid_laws, by decide, by decide, rfl, rfl, rfl, rfl⟩

theorem hyp_AppendAddsTheNextCode :
    DecLaws 16 decMid ∧ 256 < decMid.size ∧ decMid.size ≤ 257 ∧ 256 ≠ decMid.size :=
  ⟨decMid_laws, by decide, by decide, by decide⟩

/-- E3: "AAA", which decodes through the symmetric case. -/
theorem hyp_RoundTrip :
    Inv idle ∧ [0x41#8, 0x41#8, 0x41#8] ≠ ([] : Seq) ∧
    ∃ t, execAll (encodeSession [0x41#8, 0x41#8, 0x41#8]) idle = .next t ∧ encodeSucceeded t :=
  ⟨idle_inv, by decide, _, rfl, rfl, rfl⟩

/-- E3 succeeds at MAX_WIDTH 16. -/
theorem hyp_EncodeSessionFailsOnlyForCapacity :
    Inv idle ∧ [0x41#8, 0x41#8, 0x41#8] ≠ ([] : Seq) ∧
    ∃ t, execAll (encodeSession [0x41#8, 0x41#8, 0x41#8]) idle = .next t ∧ t.enc.next = 257 :=
  ⟨idle_inv, by decide, _, rfl, rfl⟩

theorem hyp_UnlistedAddressesReadZero :
    (0x15#8).toNat ∉ [0x00, 0x10, 0x11, 0x12, 0x13, 0x14, 0x20, 0x21, 0x22, 0x23, 0x24, 0x25, 0x26] ∧
    (0xFF#8).toNat ∉ [0x00, 0x10, 0x11, 0x12, 0x13, 0x14, 0x20, 0x21, 0x22, 0x23, 0x24, 0x25, 0x26] := by decide

/-- Also the hypotheses of DecodeSideRegistersShowTheState. -/
theorem hyp_EncodeSideRegistersShowTheState :
    (9 ≤ 9 ∧ 9 ≤ 16 ∧ 16 ≤ 16) ∧
    (Inv mid ∧ mid.enc.cur = some 65 ∧ mid.dec.prev = some 66) ∧
    (Inv idle ∧ idle.enc.cur = none ∧ idle.dec.prev = none) ∧
    (Inv nearlyFull ∧ nearlyFull.enc.cur = some 510 ∧ 31 < 32) :=
  ⟨by decide, ⟨mid_inv, rfl, rfl⟩, ⟨idle_inv, rfl, rfl⟩, nearlyFull_inv, rfl, by decide⟩

theorem hyp_AssembledCommandsAreWellFormed :
    assembleLine "PK_PUT 31, 0xFFFF".toList = .ok [.pkPut 31 65535] ∧
    Instr.pkPut 31 65535 ∈ [Instr.pkPut 31 65535] := ⟨by rfl, by simp⟩

/-- UP_PUTS over a byte and a string, and ENC_BYTES without an operand. -/
theorem hyp_PseudoInstructionsExpandByteByByte :
    asmTokens .gap "UP_PUTS 255, \"AB\"".toList =
      .ok (.word "UP_PUTS".toList :: [.word "255".toList, .comma, .text ['A', 'B']]) ∧
    asmOperands [.word "255".toList, .comma, .text ['A', 'B']] =
      .ok (([.inl 255#8, .inr ['A', 'B']] : List (Byte ⊕ List Char)).map
        (Sum.elim (fun b => .number b.toNat) .text)) ∧
    (∀ cs, (.inr cs : Byte ⊕ List Char) ∈ [.inl 255#8, .inr ['A', 'B']] →
      cs ≠ [] ∧ ∀ c ∈ cs, c.toNat < 128) ∧
    asmTokens .gap "ENC_BYTES ; none".toList = .ok [.word "ENC_BYTES".toList] :=
  ⟨by rfl, by rfl, by simp, by rfl⟩

end Sys2Proof.Tests
end

section
/-!
PROOFS. The family `00_scope.md`: the bit lists of R15.
-/

namespace Sys2Proof.Proofs
open Sys2Proof.Machine

/-- Settles O11, from the laws of `bits_w` and `val`: length, entries, round trip and the value of a cons. -/
theorem bitListsReadMostSignificantFirst : Obligations.BitListsReadMostSignificantFirst :=
  ⟨fun w v hv => ⟨bitsOf_length w v, bitsOf_getElem? w v, valOf_bitsOf w v hv⟩, rfl, valOf_nil, valOf_cons⟩

end Sys2Proof.Proofs
end

section
/-!
PROOFS. The family `10_state.md`, first part: the invariants are inductive, and the width laws.
-/

namespace Sys2Proof.Proofs
open Sys2Proof.Machine

/-! ## The laws of the encode side under the updates the commands make -/

theorem encLaws_seed {mw : Nat} (hmw : 9 ≤ mw) {p : Phase} (hp : p ≠ .failed) (e : EncSide) :
    EncLaws mw (seedEnc p e) where
  err_iff_failed := by simpa using hp
  width_range := by simp only [seedEnc_width]; omega
  next_range := ⟨le_rfl, (Nat.pow_le_pow_right (by decide) (by omega) : 2 ^ 8 ≤ 2 ^ mw)⟩
  width_law := by simp
  cur_known := by simp
  cur_idle := fun _ => rfl
  cur_active := by simp
  trie_canonical := List.Pairwise.nil
  trie_codes := by simp
  trie_injective := List.nodup_nil
  trie_complete := rfl
  queue_short := Nat.zero_le _

section
variable {mw : Nat} {e : EncSide} (h : EncLaws mw e)
include h

theorem encLaws_failed (x : ErrCode) : EncLaws mw { e with phase := .failed, err := some x } :=
  { h with
    err_iff_failed := by simp
    cur_idle := nofun
    cur_active := nofun }

theorem encLaws_candidate (hp : e.phase = .active) {c : Nat} (hc : c < e.next) :
    EncLaws mw { e with cur := some c } :=
  { h with
    cur_known := by rintro _ ⟨⟩; exact hc
    cur_idle := by simp [hp]
    cur_active := by simp }

theorem encLaws_queue {q : Bits} (hq : q.length ≤ 7) (o : Seq) :
    EncLaws mw { e with pkq := q, out := o } :=
  { h with queue_short := hq }

theorem encLaws_closed (hp : e.phase = .active) (o : Seq) :
    EncLaws mw { e with pkq := [], out := o, cur := none, phase := .idle } :=
  { h with
    err_iff_failed := by simp [h.err_none (by simp [hp])]
    cur_known := by simp
    cur_idle := fun _ => rfl
    cur_active := nofun
    queue_short := Nat.zero_le _ }

/-- R182: a new child, one growth step and the byte as the new candidate. -/
theorem encLaws_inserted (hp : e.phase = .active) {c : Nat} {b : Byte} (hc : e.cur = some c)
    (hn : child e.trie (.code c) b = none) (hw : e.width ≤ mw) {q : Bits} (hq : q.length ≤ 7) (o : Seq) :
    EncLaws mw { e with
      pkq := q, out := o, trie := setChild e.trie c b e.next, next := e.next + 1,
      cur := some b.toNat, width := encGrownWidth (e.next + 1) e.width } := by
  obtain ⟨h9, -⟩ := h.width_range
  obtain ⟨h256, -⟩ := h.next_range
  have hperm : (setChild e.trie c b e.next).Perm ((childKey c b, e.next) :: e.trie) := natMapPut_perm _ _ _ hn
  have hpow : 2 ^ e.width ≤ 2 ^ mw := Nat.pow_le_pow_right (by decide) hw
  have hlaw := h.width_law.2
  have hgrow := encGrownWidth_le (e.next + 1) e.width
  have hb := b.isLt
  exact {
    err_iff_failed := h.err_iff_failed
    width_range := ⟨by dsimp only; omega, by dsimp only; omega⟩
    next_range := ⟨by dsimp only; omega, by dsimp only; omega⟩
    width_law := encGrownWidth_law (by omega) h.width_law
    cur_known := by rintro _ ⟨⟩; dsimp only; omega
    cur_idle := by simp [hp]
    cur_active := by simp
    trie_canonical := setChild_canonical _ _ _ _ h.trie_canonical
    trie_codes := by
      intro x hx
      rcases List.mem_cons.mp (hperm.mem_iff.mp hx) with rfl | hx
      · have := h.cur_known c hc
        simp only [keyParent_childKey]
        omega
      · obtain ⟨h1, h2, h3⟩ := h.trie_codes x hx
        exact ⟨h1, Nat.lt_succ_of_lt h2, h3⟩
    trie_injective := by
      refine (hperm.map Prod.snd).nodup_iff.mpr (List.nodup_cons.mpr ⟨fun hm => ?_, h.trie_injective⟩)
      obtain ⟨x, hx, hxn⟩ := List.mem_map.mp hm
      have := (h.trie_codes x hx).2.1
      omega
    trie_complete := by
      have := h.trie_complete
      simp only [hperm.length_eq, List.length_cons]
      omega
    queue_short := hq }
end

/-! ## The laws of the decode side likewise -/

theorem decLaws_seed {mw : Nat} (hmw : 9 ≤ mw) {p : Phase} (hp : p ≠ .failed) (r : Word) (d : DecSide) :
    DecLaws mw (seedDec p r d) where
  err_iff_failed := by simpa using hp
  width_range := by simp only [seedDec_width]; omega
  size_range := by
    have : 2 ^ 9 ≤ 2 ^ mw := Nat.pow_le_pow_right (by decide) hmw
    simp only [seedDec_size]
    omega
  width_law := by simp
  prev_known := by simp
  prev_set := by simp
  prev_seen := by simp
  table_keys := by simp
  table_entries := by simp
  queue_short := Nat.zero_le _

section
variable {mw : Nat} {d : DecSide} (h : DecLaws mw d)
include h

theorem decLaws_failed (x : ErrCode) : DecLaws mw { d with phase := .failed, err := some x } :=
  { h with err_iff_failed := by simp }

theorem decLaws_queue {q : Bits} (hq : q.length ≤ 32) (r : Word) : DecLaws mw { d with upq := q, resp := r } :=
  { h with queue_short := hq }

theorem decLaws_closed (hp : d.phase = .active) : DecLaws mw { d with upq := [], phase := .idle } :=
  { h with
    err_iff_failed := by simp [h.err_none (by simp [hp])]
    queue_short := Nat.zero_le _ }
end

/-! ## Under the laws a command's pseudocode keeps them or raises an error -/

theorem phase_active_of_gate {p : Phase} (h : gate .active p = .run) : p = .active := by
  cases p <;> simp at h ⊢

theorem encCommand_laws {mw : Nat} {i : Instr} {n : Needs} {body : EncSide → Cmd EncSide} {e : EncSide}
    (hmw : 9 ≤ mw) (hi : encCommand mw i = some (n, body)) (hg : gate n e.phase = .run) (h : EncLaws mw e) :
    (∃ e', body e = .ok e' ∧ EncLaws mw e') ∨ ∃ x, body e = .error (.error x) := by
  have h256 := h.next_range.1
  cases i <;> simp only [encCommand, Option.some.injEq, Prod.mk.injEq, reduceCtorEq] at hi <;>
    obtain ⟨rfl, rfl⟩ := hi
  case encInit => exact .inl ⟨_, rfl, encLaws_seed hmw (by decide) e⟩
  case encByte b =>
    have hp := phase_active_of_gate hg
    have hb := b.isLt
    rcases encByteBody_cases mw b e with ⟨-, he⟩ | ⟨c, k, -, hk, he⟩ |
      ⟨c, hc, hk, ⟨-, he⟩ | ⟨-, -, he⟩ | ⟨hw, -, q, out, ⟨hq, -⟩, he⟩⟩
    · exact .inl ⟨_, he, encLaws_candidate h hp (by omega)⟩
    · exact .inl ⟨_, he, encLaws_candidate h hp (h.child_codes hk).2.1⟩
    · exact .inr ⟨_, he⟩
    · exact .inr ⟨_, he⟩
    · exact .inl ⟨_, he, encLaws_inserted h hp hc hk hw hq out⟩
  case encEnd =>
    rcases encEndBody_cases mw e with ⟨-, he⟩ | ⟨c, -, ⟨-, he⟩ | ⟨-, -, he⟩ | ⟨-, -, ys, -, he⟩⟩
    · exact .inr ⟨_, he⟩
    · exact .inr ⟨_, he⟩
    · exact .inr ⟨_, he⟩
    · exact .inl ⟨_, he, encLaws_closed h (phase_active_of_gate hg) _⟩
  case pkPut w v =>
    rcases packBits_cases v w e with ⟨q, out, ⟨hq, -⟩, he⟩ | ⟨-, he⟩
    · exact .inl ⟨_, he, encLaws_queue h hq out⟩
    · exact .inr ⟨_, he⟩
  case pkFlush =>
    obtain ⟨ys, -, he⟩ := packFlush_spec e h.queue_short
    exact .inl ⟨_, congrArg Except.ok he, encLaws_queue h (Nat.zero_le _) _⟩

theorem decCommand_laws {mw : Nat} {i : Instr} {n : Needs} {body : DecSide → Cmd DecSide} {d : DecSide}
    (hmw : 9 ≤ mw) (hi : decCommand mw i = some (n, body)) (hg : gate n d.phase = .run) (h : DecLaws mw d) :
    (∃ d', body d = .ok d' ∧ DecLaws mw d') ∨ ∃ x, body d = .error (.error x) := by
  have h32 := h.queue_short
  cases i <;> simp only [decCommand, Option.some.injEq, Prod.mk.injEq, reduceCtorEq] at hi <;>
    obtain ⟨rfl, rfl⟩ := hi
  case decInit => exact .inl ⟨_, rfl, decLaws_seed hmw (by decide) _ d⟩
  case decByte b =>
    by_cases hq : d.upq.length ≤ 24
    · rw [decByteBody_push b hq]
      rcases (h.pushed b hq).decodeQueued (d.upq.length + 9) rfl (by simp) with ⟨d', hd, hl, -⟩ | ⟨x, hx⟩
      · exact .inl ⟨d', hd, hl⟩
      · exact .inr ⟨x, hx⟩
    · exact .inr ⟨_, decByteBody_full b (by omega)⟩
  case decEnd =>
    unfold decEndBody
    split_ifs
    · exact .inr ⟨_, rfl⟩
    · exact .inr ⟨_, rfl⟩
    · exact .inl ⟨_, rfl, decLaws_closed h (phase_active_of_gate hg)⟩
  case upPut b =>
    by_cases hq : d.upq.length ≤ 24
    · exact .inl ⟨_, upPush_ok b hq, decLaws_queue h (by simp; omega) d.resp⟩
    · exact .inr ⟨_, upPush_error b (by omega)⟩
  case upGet w =>
    by_cases hw : w ≤ d.upq.length
    · exact .inl ⟨_, upGetBody_ok hw, decLaws_queue h (by simp; omega) _⟩
    · exact .inr ⟨_, upGetBody_error (by omega)⟩
  case decCode c =>
    by_cases hw : d.width ≤ mw
    · rw [decCodeBody_fits hw]
      have hs : DecLaws mw { d with seen := true } := h.with_queue h32 d.resp d.out
      rcases hs.decodeCode c with ⟨f, rest, -, -, -, he⟩ | ⟨p, sp, f, rest, -, -, -, -, -, -, he⟩ |
        ⟨p, f, rest, -, -, -, -, he⟩ | ⟨-, he⟩
      · exact .inl ⟨_, he, (hs.decodeCode_ok rfl hw he).1⟩
      · exact .inl ⟨_, he, (hs.decodeCode_ok rfl hw he).1⟩
      · exact .inl ⟨_, he, (hs.decodeCode_ok rfl hw he).1⟩
      · exact .inr ⟨_, he⟩
    · exact .inr ⟨_, decCodeBody_capacity (by omega)⟩

/-! ## Commands, words and steps complete and keep the invariants -/

theorem takeError_inv {s : State} (h : Inv s) (side : Side) (x : ErrCode) : Inv (takeError side x s) := by
  cases side
  · exact { h with enc := encLaws_failed h.enc x }
  · exact { h with dec := decLaws_failed h.dec x }

theorem exec_next_inv (i : Instr) {s : State} (h : Inv s) : ∃ t, exec i s = .next t ∧ Inv t := by
  have hmw := h.max_width_range.1
  rcases exec_eq i s with ⟨n, body, hi, he, -⟩ | ⟨n, body, hi, he, -⟩ <;> rw [he]
  · rcases hg : gate n s.enc.phase with _ | _ | x
    · rcases encCommand_laws hmw hi hg h.enc with ⟨e', hb, hl⟩ | ⟨x, hb⟩
      · exact ⟨_, runEnc_ok hg hb, { h with enc := hl }⟩
      · exact ⟨_, runEnc_error hg hb, takeError_inv h .encode x⟩
    · exact ⟨s, runEnc_ignored hg, h⟩
    · exact ⟨_, runEnc_refused hg, takeError_inv h .encode x⟩
  · rcases hg : gate n s.dec.phase with _ | _ | x
    · rcases decCommand_laws hmw hi hg h.dec with ⟨d', hb, hl⟩ | ⟨x, hb⟩
      · exact ⟨_, runDec_ok hg hb, { h with dec := hl }⟩
      · exact ⟨_, runDec_error hg hb, takeError_inv h .decode x⟩
    · exact ⟨s, runDec_ignored hg, h⟩
    · exact ⟨_, runDec_refused hg, takeError_inv h .decode x⟩

theorem issue_next_inv (cw : Word) {s : State} (h : Inv s) : ∃ t, issue cw s = .next t ∧ Inv t := by
  rcases hd : decode cw with x | i
  · rw [issue_of_illegal (by simp [hd])]
    by_cases hp : phaseOf (sideOfWord cw) s = .failed
    · exact ⟨s, execIllegal_failed hp, h⟩
    · exact ⟨_, execIllegal_raises hp, takeError_inv h _ _⟩
  · rw [issue_of_decode hd]
    exact exec_next_inv i h

theorem applyReset_inv {s : State} (h : Inv s) : Inv (applyReset s) where
  max_width_range := h.max_width_range
  enc := encLaws_seed h.max_width_range.1 (by decide) _
  dec := decLaws_seed h.max_width_range.1 (by decide) _ _

theorem inv_port {s : State} (h : Inv s) (rest : List HostInput) : Inv { s with port := rest } := { h with }

/-- The invariants are inductive: a step from a state that has them completes in one that has them. -/
theorem step_next_inv {s : State} (h : Inv s) : ∃ t, step s = .next t ∧ Inv t := by
  rcases step_cases s with ⟨-, hs⟩ | ⟨rest, -, hs⟩ | ⟨cw, rest, -, hs⟩ <;> rw [hs]
  · exact ⟨s, rfl, h⟩
  · exact ⟨_, rfl, applyReset_inv (inv_port h rest)⟩
  · exact issue_next_inv cw (inv_port h rest)

/-- Settles O34, from `step_next_inv`: the state a step answers is the one that has the invariants. -/
theorem stepKeepsInv : Obligations.StepKeepsInv := by
  intro s t h ht
  obtain ⟨t', ht', hinv⟩ := step_next_inv h
  cases ht.symm.trans ht'
  exact hinv

/-- Settles O35, from the inductive step `step_next_inv`. -/
theorem stepAlwaysCompletes : Obligations.StepAlwaysCompletes := fun _ h =>
  (step_next_inv h).imp fun _ ht => ht.1

/-- A number between 2^(w-1) and 2^w has w binary digits. -/
theorem eq_size_of_bounds {w n : Nat} (hw : 1 ≤ w) (h : 2 ^ (w - 1) ≤ n ∧ n < 2 ^ w) : w = n.size := by
  have := Nat.lt_size.mpr h.1
  have := Nat.size_le.mpr h.2
  omega

/-- Settles O36: the width laws of O34's invariants, as digit counts. -/
theorem widthsFollowTheDictionarySizes : Obligations.WidthsFollowTheDictionarySizes := by
  intro s t h ht
  obtain ⟨-, he, hd⟩ := stepKeepsInv s t h ht
  have h9e := he.width_range.1
  have h9d := hd.width_range.1
  have hlaw := hd.width_law
  refine ⟨eq_size_of_bounds (by omega) he.width_law, eq_size_of_bounds (by omega) (by omega), fun c hc => ?_⟩
  have := hd.prev_known c hc
  omega

end Sys2Proof.Proofs
end
section
/-!
PROOFS. The family `10_state.md`, second part: what a command writes on each side, and what it keeps.
-/

namespace Sys2Proof.Proofs
open Sys2Proof.Machine

/-! ## One side after a command -/

section
variable {i : Instr} {s t : State} (h : exec i s = .next t)
include h

/-- The encode side after a command: another side's command leaves it alone, a FAILED side changes in
PHASE and ERR at most, or the command's pseudocode ran. -/
theorem exec_enc :
    (i.side = .decode ∧ t.enc = s.enc) ∨
    (i.side = .encode ∧ i ≠ .encInit ∧ ∃ x, t.enc = { s.enc with phase := .failed, err := x }) ∨
    ∃ n body, encCommand s.maxWidth i = some (n, body) ∧ body s.enc = .ok t.enc := by
  rcases exec_cases h with ⟨rfl, ⟨hs, hi, hp⟩ | ⟨hs, -⟩⟩ | ⟨hs, hi, -, x, rfl⟩ | ⟨hs, -, -, x, rfl⟩ |
    ⟨-, -, n, body, e, hi, hb, rfl⟩ | ⟨hs, -, n, body, d, -, -, rfl⟩
  · exact .inr (.inl ⟨hs, hi, t.enc.err, by rw [← hp]⟩)
  · exact .inl ⟨hs, rfl⟩
  · exact .inr (.inl ⟨hs, hi, some x, rfl⟩)
  · exact .inl ⟨hs, rfl⟩
  · exact .inr (.inr ⟨n, body, hi, hb⟩)
  · exact .inl ⟨hs, rfl⟩

/-- The decode side after a command likewise. -/
theorem exec_dec :
    (i.side = .encode ∧ t.dec = s.dec) ∨
    (i.side = .decode ∧ i ≠ .decInit ∧ ∃ x, t.dec = { s.dec with phase := .failed, err := x }) ∨
    ∃ n body, decCommand s.maxWidth i = some (n, body) ∧ body s.dec = .ok t.dec := by
  rcases exec_cases h with ⟨rfl, ⟨hs, -⟩ | ⟨hs, hi, hp⟩⟩ | ⟨hs, -, -, x, rfl⟩ | ⟨hs, hi, -, x, rfl⟩ |
    ⟨hs, -, n, body, e, -, -, rfl⟩ | ⟨-, -, n, body, d, hi, hb, rfl⟩
  · exact .inl ⟨hs, rfl⟩
  · exact .inr (.inl ⟨hs, hi, t.dec.err, by rw [← hp]⟩)
  · exact .inl ⟨hs, rfl⟩
  · exact .inr (.inl ⟨hs, hi, some x, rfl⟩)
  · exact .inl ⟨hs, rfl⟩
  · exact .inr (.inr ⟨n, body, hi, hb⟩)

theorem exec_maxWidth : t.maxWidth = s.maxWidth := by
  rcases exec_cases h with ⟨rfl, -⟩ | ⟨-, -, -, x, rfl⟩ | ⟨-, -, -, x, rfl⟩ |
    ⟨-, -, n, body, e, -, -, rfl⟩ | ⟨-, -, n, body, d, -, -, rfl⟩ <;> rfl
end

/-! ## Output ports (R38, R48) -/

/-- The bytes delivered on both ports, of `t` against an earlier state `s`, since the last reset. -/
structure PortsGrow (s t : State) : Prop where
  enc_out : s.enc.out <+: t.enc.out
  enc_earlier : t.enc.earlier = s.enc.earlier
  dec_out : s.dec.out <+: t.dec.out
  dec_earlier : t.dec.earlier = s.dec.earlier

theorem encCommand_output {mw : Nat} {i : Instr} {n : Needs} {body : EncSide → Cmd EncSide} {e e' : EncSide}
    (hi : encCommand mw i = some (n, body)) (hb : body e = .ok e') :
    e.out <+: e'.out ∧ e'.earlier = e.earlier := by
  rcases encCommand_ok hi hb with ⟨-, rfl⟩ | ⟨b, -, -, rfl⟩ | ⟨b, c, k, -, -, -, rfl⟩ |
    ⟨b, c, q, ys, -, -, -, -, -, rfl⟩ | ⟨c, ys, -, -, rfl⟩ | ⟨q, ys, -, rfl⟩ <;> simp

theorem decCommand_output {mw : Nat} {i : Instr} {n : Needs} {body : DecSide → Cmd DecSide} {d d' : DecSide}
    (hi : decCommand mw i = some (n, body)) (hb : body d = .ok d') :
    d.out <+: d'.out ∧ d'.earlier = d.earlier := by
  rcases decCommand_ok hi hb with ⟨-, rfl⟩ | ⟨q, -, hd⟩ | ⟨-, rfl⟩ | ⟨b, -, rfl⟩ | ⟨w, -, rfl⟩
  · simp
  · exact ⟨hd.out, hd.earlier⟩
  all_goals simp

theorem exec_portsGrow {i : Instr} {s t : State} (h : exec i s = .next t) : PortsGrow s t := by
  have he : s.enc.out <+: t.enc.out ∧ t.enc.earlier = s.enc.earlier := by
    rcases exec_enc h with ⟨-, e⟩ | ⟨-, -, x, e⟩ | ⟨n, body, hi, hb⟩
    · simp [e]
    · simp [e]
    · exact encCommand_output hi hb
  have hd : s.dec.out <+: t.dec.out ∧ t.dec.earlier = s.dec.earlier := by
    rcases exec_dec h with ⟨-, e⟩ | ⟨-, -, x, e⟩ | ⟨n, body, hi, hb⟩
    · simp [e]
    · simp [e]
    · exact decCommand_output hi hb
  exact ⟨he.1, he.2, hd.1, hd.2⟩

theorem PortsGrow.refl (s : State) : PortsGrow s s :=
  ⟨List.prefix_refl _, rfl, List.prefix_refl _, rfl⟩

theorem takeError_portsGrow (side : Side) (x : ErrCode) (s : State) : PortsGrow s (takeError side x s) := by
  cases side <;> exact ⟨List.prefix_refl _, rfl, List.prefix_refl _, rfl⟩

theorem issue_portsGrow {cw : Word} {s t : State} (h : issue cw s = .next t) : PortsGrow s t := by
  rcases issue_cases h with ⟨i, -, -, he⟩ | ⟨-, ⟨rfl, -⟩ | ⟨rfl, -⟩⟩
  · exact exec_portsGrow he
  · exact PortsGrow.refl t
  · exact takeError_portsGrow _ _ s

theorem PortsGrow.delivered {s t : State} (h : PortsGrow s t) :
    s.enc.earlier ++ s.enc.out <+: t.enc.earlier ++ t.enc.out ∧
    s.dec.earlier ++ s.dec.out <+: t.dec.earlier ++ t.dec.out := by
  rw [h.enc_earlier, h.dec_earlier]
  exact ⟨(List.prefix_append_right_inj _).mpr h.enc_out, (List.prefix_append_right_inj _).mpr h.dec_out⟩

/-- A step that is no reset only appends to the ports. -/
theorem step_portsGrow {s t : State} (h : step s = .next t) (hr : ∀ rest, s.port ≠ .reset :: rest) :
    PortsGrow s t := by
  rcases step_cases s with ⟨-, hs⟩ | ⟨rest, hp, -⟩ | ⟨cw, rest, -, hs⟩
  · cases hs.symm.trans h
    exact PortsGrow.refl s
  · exact absurd hp (hr rest)
  · obtain ⟨h1, h2, h3, h4⟩ := issue_portsGrow (hs.symm.trans h)
    exact ⟨h1, h2, h3, h4⟩

/-- Settles O39: a wait and a word append (`step_portsGrow`), a reset moves what was delivered to the
fields for the bytes before it. -/
theorem outputPortsOnlyGrow : Obligations.OutputPortsOnlyGrow := by
  intro s t h
  refine ⟨fun hr => ?_, ?_⟩
  · obtain ⟨h1, h2, h3, h4⟩ := step_portsGrow h hr
    exact ⟨h1, h2, h3, h4⟩
  · by_cases hr : ∃ rest, s.port = .reset :: rest
    · obtain ⟨rest, hp⟩ := hr
      cases (step_reset hp).symm.trans h
      simp
    · exact (step_portsGrow h fun rest hp => hr ⟨rest, hp⟩).delivered

/-! ## Registers and dictionaries -/

/-- Settles O41: an illegal word changes PHASE and ERR at most, and UP_GET is the only command that
writes UP.RESP (`decCommand_ok`). -/
theorem respIsWrittenOnlyByUpGet : Obligations.RespIsWrittenOnlyByUpGet := by
  intro s t cw h hw
  rcases issue_cases h with ⟨i, hd, -, he⟩ | ⟨-, ⟨rfl, -⟩ | ⟨rfl, -⟩⟩
  · rcases exec_dec he with ⟨-, e⟩ | ⟨-, -, x, e⟩ | ⟨n, body, hi, hb⟩
    · rw [e]
    · rw [e]
    · rcases decCommand_ok hi hb with ⟨-, e⟩ | ⟨q, -, e⟩ | ⟨-, e⟩ | ⟨b, -, e⟩ | ⟨w, rfl, -⟩
      · rw [e, seedDec_resp]
      · exact e.resp
      · rw [e]
      · rw [e]
      · exact absurd hd (hw w)
  · rfl
  · cases sideOfWord cw <;> rfl

/-- Settles O42, by what the decode side's pseudocode leaves in D.SEEN. -/
theorem seenIsSetByBytesAndCodes : Obligations.SeenIsSetByBytesAndCodes := by
  intro s t i h
  rcases exec_dec h with ⟨hs, e⟩ | ⟨-, hne, x, e⟩ | ⟨n, body, hi, hb⟩
  · refine ⟨?_, ?_, fun _ _ _ => by rw [e]⟩
    · rintro rfl; cases hs
    · rintro (⟨b, rfl⟩ | ⟨c, rfl⟩) <;> cases hs
  · exact ⟨fun hi => absurd hi hne, fun _ _ hp => by simp [e] at hp, fun _ _ _ => by rw [e]⟩
  · rcases decCommand_ok hi hb with ⟨rfl, e⟩ | ⟨q, hd, e⟩ | ⟨rfl, e⟩ | ⟨b, rfl, e⟩ | ⟨w, rfl, e⟩
    · simp [e]
    · refine ⟨?_, fun _ _ _ => e.seen, fun _ hb hc => ?_⟩
      · rintro rfl; simp at hd
      · rcases hd with ⟨b, rfl⟩ | ⟨c, rfl⟩
        · exact absurd rfl (hb b)
        · exact absurd rfl (hc c)
    all_goals simp [e]

/-- Settles O43: decoding keeps the entries below D.SIZE (`Decoded.table`), other commands keep the table. -/
theorem tableEntriesAreNeverRewritten : Obligations.TableEntriesAreNeverRewritten := by
  intro s t i h hne
  rcases exec_dec h with ⟨-, e⟩ | ⟨-, -, x, e⟩ | ⟨n, body, hi, hb⟩
  · simp [e]
  · simp [e]
  · rcases decCommand_ok hi hb with ⟨hi, -⟩ | ⟨q, hd, e⟩ | ⟨-, e⟩ | ⟨b, -, e⟩ | ⟨w, -, e⟩
    · exact absurd hi hne
    · refine ⟨e.table, e.size, fun hb hc => ?_⟩
      rcases hd with ⟨b, rfl⟩ | ⟨c, rfl⟩
      · exact absurd rfl (hb b)
      · exact absurd rfl (hc c)
    all_goals simp [e]

/-- What a command other than ENC_INIT does to TRIE: nothing, or the insertion of ENC_BYTE, at a pair
that had no child. -/
theorem encCommand_trie {mw : Nat} {i : Instr} {n : Needs} {body : EncSide → Cmd EncSide} {e e' : EncSide}
    (hi : encCommand mw i = some (n, body)) (hb : body e = .ok e') (hne : i ≠ .encInit) :
    (e'.trie = e.trie ∧ e'.next = e.next) ∨
    ∃ b c, i = .encByte b ∧ e.cur = some c ∧ child e.trie (.code c) b = none ∧
      e'.trie = setChild e.trie c b e.next ∧ e'.next = e.next + 1 := by
  rcases encCommand_ok hi hb with ⟨hi, -⟩ | ⟨b, -, -, rfl⟩ | ⟨b, c, k, -, -, -, rfl⟩ |
    ⟨b, c, q, ys, hi, hc, hk, -, -, rfl⟩ | ⟨c, ys, -, -, rfl⟩ | ⟨q, ys, -, rfl⟩
  · exact absurd hi hne
  · exact .inl ⟨rfl, rfl⟩
  · exact .inl ⟨rfl, rfl⟩
  · exact .inr ⟨b, c, hi, hc, hk, rfl, rfl⟩
  · exact .inl ⟨rfl, rfl⟩
  · exact .inl ⟨rfl, rfl⟩

/-- Settles O44: the only write is the insertion of ENC_BYTE, which overwrites no child. -/
theorem trieIsWrittenOnlyByEncByte : Obligations.TrieIsWrittenOnlyByEncByte := by
  intro s t i h hne
  have hcases : (t.enc.trie = s.enc.trie ∧ t.enc.next = s.enc.next) ∨
      ∃ b c, i = .encByte b ∧ s.enc.cur = some c ∧ child s.enc.trie (.code c) b = none ∧
        t.enc.trie = setChild s.enc.trie c b s.enc.next ∧ t.enc.next = s.enc.next + 1 := by
    rcases exec_enc h with ⟨-, e⟩ | ⟨-, -, x, e⟩ | ⟨n, body, hi, hb⟩
    · exact .inl (by simp [e])
    · exact .inl (by simp [e])
    · exact encCommand_trie hi hb hne
  rcases hcases with ⟨ht, hn⟩ | ⟨b, c, rfl, hc, hk, ht, hn⟩ <;> rw [ht]
  · exact ⟨fun _ _ _ => id, fun _ _ _ => .inl, fun _ => ⟨rfl, hn⟩⟩
  · refine ⟨fun c' b' n' hn' => ?_, fun c' b' n' hn' => ?_, fun hb => absurd rfl (hb b)⟩
    · rwa [child_setChild_of_ne _ _ (by rintro ⟨⟩; simp [hk] at hn')]
    · by_cases heq : (c', b') = (c, b)
      · cases heq
        rw [child_setChild_self] at hn'
        cases hn'
        exact .inr ⟨rfl, hc, rfl, hn⟩
      · exact .inl (by rwa [child_setChild_of_ne _ _ heq] at hn')

/-! ## Widths (R33, R39) -/

theorem encCommand_width {mw : Nat} {i : Instr} {n : Needs} {body : EncSide → Cmd EncSide} {e e' : EncSide}
    (hi : encCommand mw i = some (n, body)) (hb : body e = .ok e') (hw : e'.width ≠ e.width) :
    (i = .encInit ∧ e'.width = 9) ∨
    ((∃ b, i = .encByte b) ∧ e'.width = e.width + 1 ∧ e'.next = 2 ^ e.width) := by
  rcases encCommand_ok hi hb with ⟨rfl, rfl⟩ | ⟨b, -, -, rfl⟩ | ⟨b, c, k, -, -, -, rfl⟩ |
    ⟨b, c, q, ys, rfl, -, -, -, -, rfl⟩ | ⟨c, ys, -, -, rfl⟩ | ⟨q, ys, -, rfl⟩
  · exact .inl ⟨rfl, rfl⟩
  · exact absurd rfl hw
  · exact absurd rfl hw
  · by_cases hg : e.next + 1 = 2 ^ e.width
    · exact .inr ⟨⟨b, rfl⟩, if_pos hg, hg⟩
    · exact absurd (if_neg hg) hw
  · exact absurd rfl hw
  · exact absurd rfl hw

theorem decCommand_width {mw : Nat} {i : Instr} {n : Needs} {body : DecSide → Cmd DecSide} {d d' : DecSide}
    (hi : decCommand mw i = some (n, body)) (hb : body d = .ok d') (hw : d'.width ≠ d.width) :
    (i = .decInit ∧ d'.width = 9) ∨
    ((∃ c, i = .decCode c) ∧ d'.width = d.width + 1 ∧ d'.size = 2 ^ d.width - 1) ∨
    ((∃ b, i = .decByte b) ∧ d.width < d'.width ∧
      d.size ≤ 2 ^ d.width - 1 ∧ 2 ^ (d'.width - 1) - 1 ≤ d'.size) := by
  rcases decCommand_ok hi hb with ⟨rfl, rfl⟩ | ⟨q, ⟨b, rfl⟩ | ⟨c, rfl⟩, hd⟩ | ⟨-, rfl⟩ |
    ⟨b, -, rfl⟩ | ⟨w, -, rfl⟩
  · exact .inl ⟨rfl, rfl⟩
  · obtain ⟨hs, ht⟩ := hd.growth.resolve_left hw
    exact .inr (.inr ⟨⟨b, rfl⟩, lt_of_le_of_ne hd.width (Ne.symm hw), hs, ht⟩)
  · obtain ⟨-, rfl⟩ : Needs.active = n ∧ decCodeBody mw c = body := by simpa [decCommand] using hi
    by_cases hm : mw < d.width
    · rw [decCodeBody_capacity hm] at hb; cases hb
    · rw [decCodeBody_fits (by omega)] at hb
      rcases decodeCode_growth hb with ⟨hs, hg⟩ | ⟨-, hg⟩
      · exact .inr (.inl ⟨⟨c, rfl⟩, hg, hs⟩)
      · exact absurd hg hw
  all_goals exact absurd rfl hw

/-- Settles O45, from the width laws of the two sides' pseudocode. -/
theorem widthsChangeOnlyByInitAndGrowth : Obligations.WidthsChangeOnlyByInitAndGrowth := by
  intro s t i h
  constructor
  · intro hw
    rcases exec_enc h with ⟨-, e⟩ | ⟨-, -, x, e⟩ | ⟨n, body, hi, hb⟩
    · exact absurd (by rw [e]) hw
    · exact absurd (by rw [e]) hw
    · exact encCommand_width hi hb hw
  · intro hw
    rcases exec_dec h with ⟨-, e⟩ | ⟨-, -, x, e⟩ | ⟨n, body, hi, hb⟩
    · exact absurd (by rw [e]) hw
    · exact absurd (by rw [e]) hw
    · exact decCommand_width hi hb hw

/-! ## Waiting and MAX_WIDTH -/

/-- Settles O6: with an empty port a step is a wait. -/
theorem nothingIssuedNothingChanges : Obligations.NothingIssuedNothingChanges := by
  intro s hp
  rcases step_cases s with ⟨-, hs⟩ | ⟨rest, hr, -⟩ | ⟨cw, rest, hr, -⟩
  · exact hs
  · simp [hp] at hr
  · simp [hp] at hr

theorem issue_maxWidth {cw : Word} {s t : State} (h : issue cw s = .next t) : t.maxWidth = s.maxWidth := by
  rcases issue_cases h with ⟨i, -, -, he⟩ | ⟨-, ⟨rfl, -⟩ | ⟨rfl, -⟩⟩
  · exact exec_maxWidth he
  · rfl
  · cases sideOfWord cw <;> rfl

/-- Settles O40: a wait, a reset, an error and a command leave MAX_WIDTH alone. -/
theorem maxWidthNeverChanges : Obligations.MaxWidthNeverChanges := by
  intro s t h
  rcases step_cases s with ⟨-, hs⟩ | ⟨rest, -, hs⟩ | ⟨cw, rest, -, hs⟩ <;> rw [hs] at h
  · cases h; rfl
  · cases h; rfl
  · exact (issue_maxWidth h :)

end Sys2Proof.Proofs
end
section
/-!
PROOFS. The family `10_state.md`, third part: the trie law of R67. Every non-empty initial part of a path is a
path, and a path determines its code.
-/

namespace Sys2Proof.Proofs
open Sys2Proof.Machine

/-! ## The entry that names a code -/

/-- Reading back a code finds an entry of the trie. -/
theorem parentOf_sound {t : Trie} {n p : Nat} {b : Byte} (h : parentOf t n = some (p, b)) :
    (childKey p b, n) ∈ t := by
  induction t with
  | nil => cases h
  | cons x t ih =>
    obtain ⟨k, m⟩ := x
    by_cases hm : m = n
    · subst hm
      simp only [parentOf, if_true, Option.some.injEq, Prod.mk.injEq] at h
      obtain ⟨rfl, rfl⟩ := h
      simp [childKey_keyParent_keyByte]
    · simp only [parentOf, hm, if_false] at h
      exact List.mem_cons_of_mem _ (ih h)

theorem parentOf_isSome {t : Trie} {n : Nat} (h : n ∈ t.map Prod.snd) : ∃ p b, parentOf t n = some (p, b) := by
  induction t with
  | nil => simp at h
  | cons x t ih =>
    obtain ⟨k, m⟩ := x
    by_cases hm : m = n
    · exact ⟨keyParent k, keyByte k, by simp [parentOf, hm]⟩
    · obtain ⟨p, b, hp⟩ := ih (by simpa [Ne.symm hm] using h)
      exact ⟨p, b, by simp [parentOf, hm, hp]⟩

section
variable {mw : Nat} {e : EncSide} (h : EncLaws mw e)
include h

/-- R36: the learned codes are exactly the codes from 256 below E.NEXT: there are as many entries, no code
twice, and every entry's code is one of them. -/
theorem encLaws_learned_codes {c : Nat} (h256 : 256 ≤ c) (hc : c < e.next) : c ∈ e.trie.map Prod.snd := by
  have hsub : e.trie.map Prod.snd ⊆ List.range' 256 (e.next - 256) := by
    intro n hn
    obtain ⟨x, hx, rfl⟩ := List.mem_map.mp hn
    obtain ⟨h1, h2, -⟩ := h.trie_codes x hx
    exact List.mem_range'_1.mpr ⟨h1, by omega⟩
  have hlen : (List.range' 256 (e.next - 256)).length ≤ (e.trie.map Prod.snd).length := by
    have := h.trie_complete
    simp only [List.length_range', List.length_map]
    omega
  have hperm := (h.trie_injective.subperm hsub).perm_of_length_le hlen
  exact hperm.mem_iff.mpr (List.mem_range'_1.mpr ⟨h256, by omega⟩)

/-- A learned code has a parent of a lower code. -/
theorem encLaws_parentOf {c : Nat} (h256 : 256 ≤ c) (hc : c < e.next) : ∃ p b,
    parentOf e.trie c = some (p, b) ∧ child e.trie (.code p) b = some c ∧ p < c := by
  obtain ⟨p, b, hp⟩ := parentOf_isSome (encLaws_learned_codes h h256 hc)
  have hk : child e.trie (.code p) b = some c :=
    (natMapGet_eq_some_iff _ h.trie_canonical _ _).mpr (parentOf_sound hp)
  exact ⟨p, b, hp, hk, (h.child_codes hk).2.2⟩

/-! ## Paths -/

/-- Following more links than the code needs changes nothing: a parent's code is below its child's. -/
theorem encLaws_pathWithin_fuel {c fuel fuel' : Nat} (hc : c < e.next) (hf : c < fuel) (hf' : c < fuel') :
    pathWithin fuel e.trie c = pathWithin fuel' e.trie c := by
  induction c using Nat.strong_induction_on generalizing fuel fuel' with
  | _ c ih =>
    obtain ⟨k, rfl⟩ : ∃ k, fuel = k + 1 := ⟨fuel - 1, by omega⟩
    obtain ⟨k', rfl⟩ : ∃ k', fuel' = k' + 1 := ⟨fuel' - 1, by omega⟩
    by_cases hb : c < 256
    · simp [pathWithin, Config.alphabet, hb]
    · obtain ⟨p, b, hp, -, hlt⟩ := encLaws_parentOf h (by omega) hc
      simp only [pathWithin, hp]
      rw [ih p hlt (by omega) (show p < k by omega) (show p < k' by omega)]

omit h in
theorem path_byte (t : Trie) {c : Nat} (hb : c < 256) : path t c = some [BitVec.ofNat 8 c] := by
  simp [path, pathWithin, Config.alphabet, hb]

/-- R36: the path of a learned code extends its parent's by one byte. -/
theorem encLaws_path_learned {c : Nat} (h256 : 256 ≤ c) (hc : c < e.next) : ∃ p b,
    child e.trie (.code p) b = some c ∧ p < c ∧
      path e.trie c = (path e.trie p).map (· ++ [b]) := by
  obtain ⟨p, b, hp, hk, hlt⟩ := encLaws_parentOf h h256 hc
  refine ⟨p, b, hk, hlt, ?_⟩
  rw [path, pathWithin, if_neg (show ¬ c < Config.alphabet from Nat.not_lt.mpr h256), hp]
  simp only
  rw [encLaws_pathWithin_fuel h (by omega) hlt (show p < p + 1 by omega), ← path]
  cases path e.trie p <;> rfl

theorem encLaws_path_exists {c : Nat} (hc : c < e.next) : ∃ sq, path e.trie c = some sq ∧ sq ≠ [] := by
  induction c using Nat.strong_induction_on with
  | _ c ih =>
    by_cases hb : c < 256
    · exact ⟨_, path_byte _ hb, by simp⟩
    · obtain ⟨p, b, -, hlt, hp⟩ := encLaws_path_learned h (by omega) hc
      obtain ⟨sq, hsq, -⟩ := ih p hlt (by omega)
      exact ⟨sq ++ [b], by rw [hp, hsq, Option.map_some], by simp⟩

/-- Everything the path of a code can be: its byte, or its parent's path and one byte. -/
theorem encLaws_path_cases {c : Nat} (hc : c < e.next) {sq : Seq} (hsq : path e.trie c = some sq) :
    (c < 256 ∧ sq = [BitVec.ofNat 8 c]) ∨
    (∃ p b sp, child e.trie (.code p) b = some c ∧ p < c ∧ path e.trie p = some sp ∧ sp ≠ [] ∧
      sq = sp ++ [b]) := by
  by_cases hb : c < 256
  · rw [path_byte _ hb] at hsq
    cases hsq
    exact .inl ⟨hb, rfl⟩
  · obtain ⟨p, b, hk, hlt, hp⟩ := encLaws_path_learned h (by omega) hc
    obtain ⟨sp, hsp, hne⟩ := encLaws_path_exists h (show p < e.next by omega)
    rw [hp, hsp] at hsq
    cases hsq
    exact .inr ⟨p, b, sp, hk, hlt, hsp, hne, rfl⟩

/-- R67: a path determines its code, by induction on the code: equal paths end in one byte below the same
parent, and `Child` is a function. -/
theorem encLaws_path_injective {c c' : Nat} {sq : Seq} (hc : c < e.next) (hc' : c' < e.next)
    (hs : path e.trie c = some sq) (hs' : path e.trie c' = some sq) : c = c' := by
  induction c using Nat.strong_induction_on generalizing c' sq with
  | _ c ih =>
    rcases encLaws_path_cases h hc hs with ⟨hb, rfl⟩ | ⟨p, b, sp, hk, hlt, hp, hne, rfl⟩ <;>
      rcases encLaws_path_cases h hc' hs' with ⟨hb', he⟩ | ⟨p', b', sp', hk', hlt', hp', hne', he⟩
    · have := congrArg BitVec.toNat (List.singleton_inj.mp he)
      simp only [BitVec.toNat_ofNat] at this
      omega
    · simp [List.singleton_eq_append_iff, hne'] at he
    · simp [List.append_eq_singleton_iff, hne] at he
    · obtain ⟨rfl, hbb⟩ := List.append_inj' he rfl
      obtain rfl := List.singleton_inj.mp hbb
      obtain rfl := ih p hlt (by omega) (by omega) hp hp'
      exact Option.some.inj (hk.symm.trans hk')

/-- R67: a non-empty initial part of a path is a path, by induction on the code. -/
theorem encLaws_path_prefix {c k : Nat} {sq : Seq} (hc : c < e.next) (hs : path e.trie c = some sq)
    (h1 : 1 ≤ k) (hk : k ≤ sq.length) : ∃ c', c' < e.next ∧ path e.trie c' = some (sq.take k) := by
  induction c using Nat.strong_induction_on generalizing sq with
  | _ c ih =>
    rcases Nat.eq_or_lt_of_le hk with rfl | hlt
    · exact ⟨c, hc, by rw [List.take_length, hs]⟩
    · rcases encLaws_path_cases h hc hs with ⟨-, rfl⟩ | ⟨p, b, sp, -, hpc, hp, -, rfl⟩
      · simp only [List.length_singleton] at hlt
        omega
      · have hks : k ≤ sp.length := by simpa [Nat.lt_succ_iff] using hlt
        rw [List.take_append_of_le_length hks]
        exact ih p hpc (by omega) hp hks
end

/-- Settles O47, from the shape of a path: its byte, or its parent's path and one byte. -/
theorem pathsAreInjectiveAndPrefixClosed : Obligations.PathsAreInjectiveAndPrefixClosed :=
  fun _ _ h => ⟨fun _ => encLaws_path_exists h, fun _ _ _ => encLaws_path_injective h,
    fun _ _ _ => encLaws_path_prefix h⟩

end Sys2Proof.Proofs
end
section
/-!
PROOFS. The family `10_state.md`, fourth part: the words of the register read port.
-/

namespace Sys2Proof.Proofs
open Sys2Proof.Machine

/-! ## Fields of a register word -/

/-- A word of two fields as a number. -/
theorem toNat_append_eq {m n : Nat} (x : BitVec m) (y : BitVec n) :
    (x ++ y).toNat = x.toNat * 2 ^ n + y.toNat := by
  rw [BitVec.toNat_append, ← Nat.shiftLeft_add_eq_or_of_lt y.isLt, Nat.shiftLeft_eq]

/-- A number in the low field of a word whose other bits are 0. -/
theorem toNat_zero_append_ofNat {m n v : Nat} (h : v < 2 ^ n) : (0#m ++ BitVec.ofNat n v).toNat = v := by
  rw [toNat_append_eq, BitVec.toNat_ofNat, BitVec.toNat_ofNat, Nat.mod_eq_of_lt h, Nat.zero_mod, Nat.zero_mul,
    Nat.zero_add]

/-- R31: the numbers of the phases. -/
theorem phaseBits_toNat (p : Phase) : (phaseBits p).toNat =
    match p with
    | .idle => 0
    | .active => 1
    | .failed => 2 := by
  cases p <;> rfl

/-- R241: the numbers of the errors. -/
theorem errBits_toNat (x : Option ErrCode) : (errBits x).toNat =
    match x with
    | none => 0
    | some .illegal => 1
    | some .notActive => 2
    | some .emptyInput => 3
    | some .widthOverflow => 4
    | some .format => 5
    | some .truncated => 6
    | some .capacity => 7
    | some .underflow => 8
    | some .queueFull => 9 := by
  rcases x with _ | x
  · rfl
  · cases x <;> rfl

theorem seenBit_toNat (b : Bool) : (seenBit b).toNat = if b then 1 else 0 := by
  cases b <;> rfl

/-- R55, R60: a code of 16 bits beside its VALID bit. -/
theorem validAndCode_some_toNat {m c : Nat} (h : c < 2 ^ 16) :
    (0#m ++ validAndCode (some c)).toNat = 2 ^ 16 + c := by
  simp only [validAndCode, toNat_append_eq, BitVec.toNat_ofNat, Nat.zero_mod, Nat.zero_mul, Nat.mod_eq_of_lt h]
  omega

/-! ## Queues, left-aligned -/

/-- Bit `i` of the value of a bit list, counted from its end. -/
theorem testBit_valOf {q : Bits} {i : Nat} (h : i < q.length) :
    q[q.length - 1 - i]? = some ((valOf q).testBit i) := by
  have hbit := bitsOf_getElem? q.length (valOf q) (q.length - 1 - i) (by omega)
  rw [bitsOf_valOf] at hbit
  rw [hbit, show q.length - 1 - (q.length - 1 - i) = i by omega]

/-- R56, R62: bit `n - 1 - i` is bit `i` of the queue, and the bits the queue does not reach are 0. -/
theorem leftAligned_getLsbD {n i : Nat} (q : Bits) (h : i < n) :
    (leftAligned n q).getLsbD i = (q[n - 1 - i]?).getD false := by
  have hlen : ((q ++ List.replicate n false).take n).length = n := by simp
  have hbit := testBit_valOf (q := (q ++ List.replicate n false).take n) (i := i) (by omega)
  rw [hlen, List.getElem?_take_of_lt (by omega)] at hbit
  rw [leftAligned, BitVec.getLsbD_ofNat, decide_eq_true h, Bool.true_and]
  by_cases hq : n - 1 - i < q.length
  · rw [List.getElem?_append_left hq] at hbit
    rw [hbit, Option.getD_some]
  · rw [List.getElem?_append_right (by omega), List.getElem?_replicate, if_pos (by omega)] at hbit
    rw [List.getElem?_eq_none (by omega), Option.getD_none]
    exact (Option.some.inj hbit).symm

/-! ## The register map -/

/-- Settles O53: an address that is none of the thirteen takes the last arm of the read port. -/
theorem unlistedAddressesReadZero : Obligations.UnlistedAddressesReadZero := by
  intro addr s h
  unfold readRegister
  split
  case h_14 => rfl
  all_goals exact absurd ‹addr.toNat = _› (fun ha => h (by simp [ha]))

section
variable (s : State)

@[simp] theorem readRegister_config : readRegister 0x00#8 s = regConfig s := rfl
@[simp] theorem readRegister_eStatus : readRegister 0x10#8 s = regEStatus s := rfl
@[simp] theorem readRegister_eWidth : readRegister 0x11#8 s = regEWidth s := rfl
@[simp] theorem readRegister_eNext : readRegister 0x12#8 s = regENext s := rfl
@[simp] theorem readRegister_eCur : readRegister 0x13#8 s = regECur s := rfl
@[simp] theorem readRegister_pkState : readRegister 0x14#8 s = regPkState s := rfl
@[simp] theorem readRegister_dStatus : readRegister 0x20#8 s = regDStatus s := rfl
@[simp] theorem readRegister_dWidth : readRegister 0x21#8 s = regDWidth s := rfl
@[simp] theorem readRegister_dSize : readRegister 0x22#8 s = regDSize s := rfl
@[simp] theorem readRegister_dPrev : readRegister 0x23#8 s = regDPrev s := rfl
@[simp] theorem readRegister_upState : readRegister 0x24#8 s = regUpState s := rfl
@[simp] theorem readRegister_upBits : readRegister 0x25#8 s = regUpBits s := rfl
@[simp] theorem readRegister_upResp : readRegister 0x26#8 s = regUpResp s := rfl

/-- R52: PHASE in bits 1:0, ERR in bits 7:4. -/
theorem regEStatus_toNat : (regEStatus s).toNat =
    (phaseBits s.enc.phase).toNat + 16 * (errBits s.enc.err).toNat := by
  simp only [regEStatus, toNat_append_eq, BitVec.toNat_ofNat]
  omega

/-- R57: as E_STATUS, with SEEN in bit 8. -/
theorem regDStatus_toNat : (regDStatus s).toNat =
    (phaseBits s.dec.phase).toNat + 16 * (errBits s.dec.err).toNat + 256 * (seenBit s.dec.seen).toNat := by
  simp only [regDStatus, toNat_append_eq, BitVec.toNat_ofNat]
  omega

/-- R56: PK_STATE bit for bit. -/
theorem regPkState_getLsbD {i : Nat} : (regPkState s).getLsbD i =
    if i < 3 then s.enc.pkq.length.testBit i
    else if 8 ≤ i ∧ i ≤ 15 then (s.enc.pkq[15 - i]?).getD false
    else false := by
  rw [regPkState, BitVec.getLsbD_append]
  by_cases h3 : i < 3
  · rw [if_pos h3, if_pos h3, BitVec.getLsbD_ofNat, decide_eq_true h3, Bool.true_and]
  · rw [if_neg h3, if_neg h3, BitVec.getLsbD_append]
    by_cases h8 : i < 8
    · simp [show i - 3 < 5 by omega, show ¬ 8 ≤ i by omega]
    · rw [if_neg (by omega), BitVec.getLsbD_append]
      by_cases h15 : i ≤ 15
      · rw [if_pos (by omega), if_pos ⟨by omega, h15⟩, leftAligned_getLsbD _ (by omega),
          show 8 - 1 - (i - 3 - 5) = 15 - i by omega]
      · simp [show ¬ i - 3 - 5 < 8 by omega, h15]
end

/-! ## Reset values (R270) -/

section
variable (mw : Nat)

theorem encRegisters_reset :
    readRegister 0x10#8 (State.resetWith mw) = 0x0#32 ∧
    readRegister 0x11#8 (State.resetWith mw) = 0x9#32 ∧
    readRegister 0x12#8 (State.resetWith mw) = 0x100#32 ∧
    readRegister 0x13#8 (State.resetWith mw) = 0x0#32 ∧
    readRegister 0x14#8 (State.resetWith mw) = 0x0#32 := by
  simp only [readRegister_eStatus, readRegister_eWidth, readRegister_eNext, readRegister_eCur,
    readRegister_pkState, regEStatus, regEWidth, regENext, regECur, regPkState, resetWith_enc]
  decide

theorem decRegisters_reset :
    readRegister 0x20#8 (State.resetWith mw) = 0x0#32 ∧
    readRegister 0x21#8 (State.resetWith mw) = 0x9#32 ∧
    readRegister 0x22#8 (State.resetWith mw) = 0x100#32 ∧
    readRegister 0x23#8 (State.resetWith mw) = 0x0#32 ∧
    readRegister 0x24#8 (State.resetWith mw) = 0x0#32 ∧
    readRegister 0x25#8 (State.resetWith mw) = 0x0#32 ∧
    readRegister 0x26#8 (State.resetWith mw) = 0x0#32 := by
  simp only [readRegister_dStatus, readRegister_dWidth, readRegister_dSize, readRegister_dPrev,
    readRegister_upState, readRegister_upBits, readRegister_upResp, regDStatus, regDWidth, regDSize, regDPrev,
    regUpState, regUpBits, regUpResp, resetWith_dec]
  decide
end

/-- A size within MAX_WIDTH bits fits the 17-bit field of a register, and a smaller code its 16 bits. -/
theorem two_pow_maxWidth_le {s : State} (h : Inv s) : 2 ^ s.maxWidth ≤ 2 ^ 16 :=
  Nat.pow_le_pow_right (by decide) h.max_width_range.2

/-- Settles O54: each field shows its value, because the laws keep it in the field's range. -/
theorem encodeSideRegistersShowTheState : Obligations.EncodeSideRegistersShowTheState := by
  refine ⟨fun mw _ hmw => ⟨?_, encRegisters_reset mw⟩, fun s h => ?_⟩
  · exact toNat_zero_append_ofNat (by rw [resetWith_maxWidth]; omega)
  · have hpow := two_pow_maxWidth_le h
    obtain ⟨⟨-, h16⟩, he, -⟩ := h
    have hwidth := he.width_range.2
    have hnext := he.next_range.2
    refine ⟨toNat_zero_append_ofNat (by omega), ?_, toNat_zero_append_ofNat (by omega),
      toNat_zero_append_ofNat (by omega), fun hc => ?_, fun c hc => ?_, fun i _ => regPkState_getLsbD s⟩
    · exact (regEStatus_toNat s).trans
        (congrArg₂ (· + 16 * ·) (phaseBits_toNat s.enc.phase) (errBits_toNat s.enc.err))
    · rw [readRegister_eCur, regECur, hc]
      rfl
    · have := he.cur_known c hc
      rw [readRegister_eCur, regECur, hc]
      exact validAndCode_some_toNat (by omega)

/-- Settles O55 likewise. -/
theorem decodeSideRegistersShowTheState : Obligations.DecodeSideRegistersShowTheState := by
  refine ⟨decRegisters_reset, fun s h => ?_⟩
  have hpow := two_pow_maxWidth_le h
  obtain ⟨⟨-, h16⟩, -, hd⟩ := h
  have hwidth := hd.width_range.2
  have hsize := hd.size_range.2
  have hqueue := hd.queue_short
  refine ⟨?_, toNat_zero_append_ofNat (by omega), toNat_zero_append_ofNat (by omega), fun hc => ?_,
    fun c hc => ?_, toNat_zero_append_ofNat (by omega), fun i => leftAligned_getLsbD _, rfl⟩
  · exact (regDStatus_toNat s).trans (congrArg₂ (· + 256 * ·)
      (congrArg₂ (· + 16 * ·) (phaseBits_toNat s.dec.phase) (errBits_toNat s.dec.err))
      (seenBit_toNat s.dec.seen))
  · rw [readRegister_dPrev, regDPrev, hc]
    rfl
  · have := hd.prev_known c hc
    rw [readRegister_dPrev, regDPrev, hc]
    exact validAndCode_some_toNat (by omega)

end Sys2Proof.Proofs
end
section
/-!
PROOFS. The family `20_memory.md`: bytes as bits, the command a step executes, the bounds of the dictionaries, and
the two sides' independence (R81). `withSide` says "replace everything but this side" for both sides at once, so
that a word's effect on its side (`issue_withSide`) and the interleaving of words are proved once for both.
-/

namespace Sys2Proof.Proofs
open Sys2Proof.Machine

/-! ## Replacing everything but one side -/

/-- The state `x` with its encode or decode side taken from `s`. -/
def withSide (side : Side) (s x : State) : State :=
  match side with
  | .encode => { x with enc := s.enc }
  | .decode => { x with dec := s.dec }

section
variable (side : Side) (s x : State)

@[simp] theorem withSide_self : withSide side s s = s := by cases side <;> rfl

@[simp] theorem withSide_maxWidth : (withSide side s x).maxWidth = x.maxWidth := by cases side <;> rfl

@[simp] theorem withSide_port : (withSide side s x).port = x.port := by cases side <;> rfl

@[simp] theorem phaseOf_withSide : phaseOf side (withSide side s x) = phaseOf side s := by cases side <;> rfl

theorem takeError_withSide (c : ErrCode) :
    takeError side c (withSide side s x) = withSide side (takeError side c s) x := by cases side <;> rfl
end

/-- Taking the other side of `t` into `s` first changes nothing on this side. -/
theorem withSide_of_ne {side other : Side} (h : other ≠ side) (t s x : State) :
    withSide side (withSide other t s) x = withSide side s x := by
  cases side <;> cases other
  · exact absurd rfl h
  · rfl
  · rfl
  · exact absurd rfl h

/-! ## A command reads and writes its own side (R81) -/

section
variable {s t : State} {n : Needs}

theorem exec_of_encCommand {i : Instr} {body : EncSide → Cmd EncSide}
    (h : encCommand s.maxWidth i = some (n, body)) : exec i s = runEnc n body s := by
  cases i <;> cases h <;> rfl

theorem exec_of_decCommand {i : Instr} {body : DecSide → Cmd DecSide}
    (h : decCommand s.maxWidth i = some (n, body)) : exec i s = runDec n body s := by
  cases i <;> cases h <;> rfl

theorem runEnc_withSide {body : EncSide → Cmd EncSide} (h : runEnc n body s = .next t) (x : State) :
    runEnc n body (withSide .encode s x) = .next (withSide .encode t x) := by
  rcases runEnc_next h with ⟨hg, rfl⟩ | ⟨c, rfl, hg | ⟨hg, hb⟩⟩ | ⟨hg, e, hb, rfl⟩
  · exact runEnc_ignored hg
  · exact runEnc_refused hg
  · exact runEnc_error hg hb
  · exact runEnc_ok hg hb

theorem runDec_withSide {body : DecSide → Cmd DecSide} (h : runDec n body s = .next t) (x : State) :
    runDec n body (withSide .decode s x) = .next (withSide .decode t x) := by
  rcases runDec_next h with ⟨hg, rfl⟩ | ⟨c, rfl, hg | ⟨hg, hb⟩⟩ | ⟨hg, d, hb, rfl⟩
  · exact runDec_ignored hg
  · exact runDec_refused hg
  · exact runDec_error hg hb
  · exact runDec_ok hg hb
end

/-- What a legal command does to its side depends on that side and MAX_WIDTH alone. -/
theorem exec_withSide {i : Instr} {s t x : State} (h : exec i s = .next t) (hx : x.maxWidth = s.maxWidth) :
    exec i (withSide i.side s x) = .next (withSide i.side t x) := by
  rcases exec_eq i s with ⟨n, body, hi, he, hs⟩ | ⟨n, body, hi, he, hs⟩ <;> rw [hs]
  · rw [exec_of_encCommand (by rw [withSide_maxWidth, hx, hi])]
    exact runEnc_withSide (he.symm.trans h) x
  · rw [exec_of_decCommand (by rw [withSide_maxWidth, hx, hi])]
    exact runDec_withSide (he.symm.trans h) x

/-- What a word, legal or not, does to its side depends on that side and MAX_WIDTH alone. -/
theorem issue_withSide {cw : Word} {s t x : State} (h : issue cw s = .next t) (hx : x.maxWidth = s.maxWidth) :
    issue cw (withSide (sideOfWord cw) s x) = .next (withSide (sideOfWord cw) t x) := by
  rcases issue_cases h with ⟨i, hd, hs, he⟩ | ⟨hd, ⟨rfl, hp⟩ | ⟨rfl, hp⟩⟩
  · rw [issue_of_decode hd, hs]
    exact exec_withSide he hx
  · rw [issue_of_illegal hd]
    exact execIllegal_failed (by rwa [phaseOf_withSide])
  · rw [issue_of_illegal hd, ← takeError_withSide]
    exact execIllegal_raises (by rwa [phaseOf_withSide])

/-- A word writes nothing but its own side. -/
theorem issue_frame {cw : Word} {s t : State} (h : issue cw s = .next t) : t = withSide (sideOfWord cw) t s := by
  have h' := issue_withSide (x := s) h rfl
  rw [withSide_self] at h'
  exact Host.Outcome.next.inj (h.symm.trans h')

/-! ## Interleaving (R81, R273) -/

/-- The words of one side, issued from any state that agrees on that side and on MAX_WIDTH, leave the side as
the whole list leaves it and the rest as it was. -/
theorem issueAll_filter_withSide (side : Side) (x : State) (cws : List Word) : ∀ {s t : State},
    issueAll cws s = .next t → x.maxWidth = s.maxWidth →
    issueAll (cws.filter fun cw => sideOfWord cw = side) (withSide side s x) = .next (withSide side t x) := by
  induction cws with
  | nil =>
    intro s t h _
    cases h
    rfl
  | cons cw cws ih =>
    intro s t h hx
    obtain ⟨r, hr, ht⟩ : ∃ r, issue cw s = .next r ∧ issueAll cws r = .next t := by
      unfold issueAll at h
      split at h
      · exact ⟨_, ‹_›, h⟩
      · cases h
      · cases h
    have ih := ih ht (hx.trans (issue_maxWidth hr).symm)
    by_cases hs : sideOfWord cw = side
    · subst hs
      simp only [List.filter_cons, decide_true, if_true, issueAll, issue_withSide hr hx, ih]
    · rw [issue_frame hr, withSide_of_ne hs] at ih
      simpa [List.filter_cons, hs] using ih

/-- Settles O38: `issueAll_filter_withSide`, with the list's own first state as the rest. -/
theorem interleavingDoesNotMatter : Obligations.InterleavingDoesNotMatter := by
  intro cws s t h
  have key (side : Side) := issueAll_filter_withSide side s cws h rfl
  simp only [withSide_self] at key
  exact ⟨⟨_, key .encode, rfl, rfl⟩, _, key .decode, rfl, rfl⟩

/-- Settles O37: the frame is `issue_frame`, the replacement `issue_withSide`. -/
theorem aCommandTouchesOnlyItsSide : Obligations.ACommandTouchesOnlyItsSide := by
  intro s t cw h
  have hmw := issue_maxWidth h
  have hframe := issue_frame h
  refine ⟨hmw, by rw [hframe, withSide_port], fun hs => ?_, fun hs => ?_⟩
  · refine ⟨by rw [hframe, hs]; rfl, fun d p => ?_⟩
    simpa only [hs, withSide, hmw] using issue_withSide (x := { s with dec := d, port := p }) h rfl
  · refine ⟨by rw [hframe, hs]; rfl, fun e p => ?_⟩
    simpa only [hs, withSide, hmw] using issue_withSide (x := { s with enc := e, port := p }) h rfl

/-! ## Bounds of the dictionaries (R71, R72) -/

/-- Settles O46: after the step the invariants bound E.NEXT and D.SIZE, and with them every learned child and
every table entry. -/
theorem dictionariesNeverOverflow : Obligations.DictionariesNeverOverflow := by
  intro s t h ht
  obtain ⟨-, he, hd⟩ := stepKeepsInv s t h ht
  constructor
  · intro c b n hn
    have hnext := he.next_range.2
    obtain ⟨h256, hlt, -⟩ := he.child_codes hn
    omega
  · intro c sq hsq
    have hsize := hd.size_range.2
    have hc : c < t.dec.size := by
      by_contra hge
      simp [hd.no_entry (Nat.not_lt.mp hge)] at hsq
    obtain ⟨f, rest, hentry⟩ := hd.entry hc
    cases hsq.symm.trans hentry
    exact ⟨by omega, List.cons_ne_nil f rest⟩

/-! ## The step and the byte (R79, R75) -/

/-- Settles O4: a step of a word is `issue`, and `issue` of a legal word is `exec`. -/
theorem stepExecutesTheDecodedCommand : Obligations.StepExecutesTheDecodedCommand :=
  fun _ _ _ _ hp hd => (step_command hp).trans (issue_of_decode hd _)

/-- Settles O12: a byte's bit list is `bits_8` of its value. -/
theorem bytesTravelMostSignificantBitFirst : Obligations.BytesTravelMostSignificantBitFirst :=
  fun b => ⟨byteBits_length b, bitsOf_getElem? 8 b.toNat, byteOfBits_byteBits b⟩

end Sys2Proof.Proofs
end
section
/-!
PROOFS. The family `30_encoding.md`, first part: a word and the fields of its command, decode and encode
as inverses, and the opcode map.
-/

namespace Sys2Proof.Proofs
open Sys2Proof.Machine

/-! ## The fields of a command's word (R97, columns W and IMM) -/

/-- What a command's word holds in the W field: its width operand, or 0. -/
def widthField : Instr → Nat
  | .pkPut w _ => w
  | .upGet w => w
  | _ => 0

/-- What a command's word holds in the IMM field: its byte, value or code, or 0. -/
def immField : Instr → Nat
  | .encByte b => b.toNat
  | .decByte b => b.toNat
  | .upPut b => b.toNat
  | .pkPut _ v => v
  | .decCode c => c
  | _ => 0

theorem encode_eq_commandWord (i : Instr) : encode i = commandWord i.opcode (widthField i) (immField i) := by
  cases i <;> rfl

theorem opcode_lt (i : Instr) : i.opcode < 16 := by
  cases i <;> simp [Instr.opcode]

/-- R93, R94: a command is well formed exactly when its operands fit the fields that hold them. -/
theorem wellFormed_iff_fields_fit (i : Instr) : i.WellFormed ↔ widthField i < 2 ^ 5 ∧ immField i < 2 ^ 16 := by
  have hbyte (b : Byte) : b.toNat < 2 ^ 16 := b.isLt.trans (by decide)
  cases i <;> simp only [Instr.WellFormed, widthField, immField, hbyte, Nat.two_pow_pos, and_true, true_and]

/-- The fields of a word are those of the command's word, and RSV is 0. -/
structure HasFieldsOf (cw : Word) (i : Instr) : Prop where
  op : fieldOp cw = i.opcode
  rsv : fieldRsv cw = 0
  width : fieldW cw = widthField i
  imm : fieldImm cw = immField i

theorem hasFieldsOf_encode {i : Instr} (h : i.WellFormed) : HasFieldsOf (encode i) i := by
  obtain ⟨hw, himm⟩ := (wellFormed_iff_fields_fit i).mp h
  rw [encode_eq_commandWord]
  exact ⟨fieldOp_commandWord _ _ _ (opcode_lt i), fieldRsv_commandWord _ _ _, fieldW_commandWord _ _ _ hw,
    fieldImm_commandWord _ _ _ himm⟩

theorem HasFieldsOf.encode_eq {cw : Word} {i : Instr} (h : HasFieldsOf cw i) : encode i = cw := by
  rw [encode_eq_commandWord, ← h.op, ← h.width, ← h.imm, commandWord_fields cw h.rsv]

theorem HasFieldsOf.wellFormed {cw : Word} {i : Instr} (h : HasFieldsOf cw i) : i.WellFormed :=
  (wellFormed_iff_fields_fit i).mpr ⟨h.width ▸ fieldW_lt cw, h.imm ▸ fieldImm_lt cw⟩

/-! ## The decoder by its fields (R96) -/

/-- IMM holds a byte exactly when its high half is 0 and its low half is that byte. -/
theorem fieldImm_eq_toNat_iff (cw : Word) (b : Byte) :
    fieldImm cw = b.toNat ↔ fieldImmHigh cw = 0 ∧ fieldByte cw = b := by
  constructor
  · intro h
    have hb := b.isLt
    have hhigh : fieldImmHigh cw = 0 := by
      simp only [fieldImmHigh, fieldImm, BitVec.extractLsb'_toNat, Nat.shiftRight_eq_div_pow] at h ⊢
      omega
    exact ⟨hhigh, BitVec.eq_of_toNat_eq ((fieldImm_eq_byte cw hhigh).symm.trans h)⟩
  · rintro ⟨hhigh, rfl⟩
    exact fieldImm_eq_byte cw hhigh

/-- R96: the decoder accepts a word for a command exactly by the word's fields. -/
theorem decode_ok_iff (cw : Word) (i : Instr) : decode cw = .ok i ↔ HasFieldsOf cw i := by
  constructor
  · intro h
    unfold decode at h
    split at h
    case h_1 hop | h_3 hop | h_5 hop | h_6 hop | h_8 hop =>
      obtain ⟨hrsv, hw, himm, rfl⟩ := decodeBare_ok.mp h
      exact ⟨hop, hrsv, hw, himm⟩
    case h_2 hop | h_7 hop | h_9 hop =>
      obtain ⟨hrsv, hw, hhigh, rfl⟩ := decodeWithByte_ok.mp h
      exact ⟨hop, hrsv, hw, fieldImm_eq_byte cw hhigh⟩
    case h_4 hop =>
      obtain ⟨hrsv, rfl⟩ := decodeWithWidthAndValue_ok.mp h
      exact ⟨hop, hrsv, rfl, rfl⟩
    case h_10 hop =>
      obtain ⟨hrsv, himm, rfl⟩ := decodeWithWidth_ok.mp h
      exact ⟨hop, hrsv, rfl, himm⟩
    case h_11 hop =>
      obtain ⟨hrsv, hw, rfl⟩ := decodeWithCode_ok.mp h
      exact ⟨hop, hrsv, hw, rfl⟩
    case h_12 => cases h
  · rintro ⟨hop, hrsv, hw, himm⟩
    unfold decode
    rw [hop]
    cases i
    case encInit | encEnd | pkFlush | decInit | decEnd => exact decodeBare_ok.mpr ⟨hrsv, hw, himm, rfl⟩
    case encByte b | decByte b | upPut b =>
      obtain ⟨hhigh, rfl⟩ := (fieldImm_eq_toNat_iff cw b).mp himm
      exact decodeWithByte_ok.mpr ⟨hrsv, hw, hhigh, rfl⟩
    case pkPut w v =>
      cases hw; cases himm
      exact decodeWithWidthAndValue_ok.mpr ⟨hrsv, rfl⟩
    case upGet w =>
      cases hw
      exact decodeWithWidth_ok.mpr ⟨hrsv, himm, rfl⟩
    case decCode c =>
      cases himm
      exact decodeWithCode_ok.mpr ⟨hrsv, hw, rfl⟩

/-! ## Encode and decode are inverse -/

/-- Settles O7: the encoder's word has the fields of its command, and the decoder reads them. -/
theorem decodeOfEncodeIsTheCommand : Obligations.DecodeOfEncodeIsTheCommand :=
  fun i h => (decode_ok_iff (encode i) i).mpr (hasFieldsOf_encode h)

/-- Settles O8: a word that decodes is its fields, and so is its command's word. -/
theorem encodeOfDecodeIsTheWord : Obligations.EncodeOfDecodeIsTheWord := fun cw i h =>
  have hfields := (decode_ok_iff cw i).mp h
  ⟨hfields.wellFormed, hfields.encode_eq⟩

/-! ## Legal words (R96) -/

/-- R96: the five conditions of legality, on the bits of a word. -/
def MeetsLegality (cw : Word) : Prop :=
  cw.extractLsb' 28 4 ∈ [0x1#4, 0x2#4, 0x3#4, 0x4#4, 0x5#4, 0x9#4, 0xA#4, 0xB#4, 0xC#4, 0xD#4, 0xE#4] ∧
  cw.extractLsb' 21 7 = 0#7 ∧
  (cw.extractLsb' 16 5 = 0#5 ∨ cw.extractLsb' 28 4 ∈ [0x4#4, 0xD#4]) ∧
  (cw.extractLsb' 28 4 ∈ [0x1#4, 0x3#4, 0x5#4, 0x9#4, 0xB#4, 0xD#4] → cw.extractLsb' 0 16 = 0#16) ∧
  (cw.extractLsb' 28 4 ∈ [0x2#4, 0xA#4, 0xC#4] → cw.extractLsb' 8 8 = 0#8)

/-- The five conditions on the fields as numbers. -/
theorem meetsLegality_iff_fields (cw : Word) : MeetsLegality cw ↔
    fieldOp cw ∈ [1, 2, 3, 4, 5, 9, 10, 11, 12, 13, 14] ∧ fieldRsv cw = 0 ∧
    (fieldW cw = 0 ∨ fieldOp cw ∈ [4, 13]) ∧
    (fieldOp cw ∈ [1, 3, 5, 9, 11, 13] → fieldImm cw = 0) ∧
    (fieldOp cw ∈ [2, 10, 12] → fieldImmHigh cw = 0) := by
  simp only [MeetsLegality, List.mem_cons, List.not_mem_nil, or_false, ← BitVec.toNat_inj]
  rfl

/-- R96: the words the decoder accepts; the format of each opcode asks for its zero fields. -/
theorem decode_legal_iff (cw : Word) : (∃ i, decode cw = .ok i) ↔ MeetsLegality cw := by
  rw [meetsLegality_iff_fields]
  unfold decode
  split
  case h_1 hop | h_3 hop | h_5 hop | h_6 hop | h_8 hop => simp [hop, decodeBare_ok]
  case h_2 hop | h_7 hop | h_9 hop => simp [hop, decodeWithByte_ok]
  case h_4 hop => simp [hop, decodeWithWidthAndValue_ok]
  case h_10 hop => simp [hop, decodeWithWidth_ok]
  case h_11 hop => simp [hop, decodeWithCode_ok]
  case h_12 => simp_all

/-! ## The opcode map (R97) -/

/-- Two words are equal when OP, RSV, W and both halves of IMM are. -/
theorem word_eq_iff_fields_eq (x y : Word) : x = y ↔
    x.extractLsb' 28 4 = y.extractLsb' 28 4 ∧ x.extractLsb' 21 7 = y.extractLsb' 21 7 ∧
    x.extractLsb' 16 5 = y.extractLsb' 16 5 ∧ x.extractLsb' 8 8 = y.extractLsb' 8 8 ∧
    x.extractLsb' 0 8 = y.extractLsb' 0 8 := by
  constructor
  · rintro rfl
    exact ⟨rfl, rfl, rfl, rfl, rfl⟩
  · intro h
    have hx := x.isLt
    have hy := y.isLt
    simp only [← BitVec.toNat_inj, BitVec.extractLsb'_toNat, Nat.shiftRight_eq_div_pow] at h ⊢
    omega

theorem imm_eq_zero_iff (cw : Word) :
    cw.extractLsb' 0 16 = 0#16 ↔ cw.extractLsb' 8 8 = 0#8 ∧ cw.extractLsb' 0 8 = 0#8 := by
  simp only [← BitVec.toNat_inj, BitVec.extractLsb'_toNat, Nat.shiftRight_eq_div_pow, BitVec.toNat_ofNat]
  omega

/-- R97: a row's mask keeps or clears each field whole, so that each row asks for its opcode and its zero
fields, as R96 does. -/
theorem exists_row_iff (cw : Word) : (∃ r ∈ opcodeRows, cw &&& r.mask = r.pattern) ↔ MeetsLegality cw := by
  have h4 (x : BitVec 4) : x &&& 15#4 = x := BitVec.and_allOnes
  have h5 (x : BitVec 5) : x &&& 31#5 = x := BitVec.and_allOnes
  have h7 (x : BitVec 7) : x &&& 127#7 = x := BitVec.and_allOnes
  have h8 (x : BitVec 8) : x &&& 255#8 = x := BitVec.and_allOnes
  simp only [opcodeRows, MeetsLegality, List.mem_cons, List.not_mem_nil, exists_eq_or_imp, exists_eq_left,
    or_false, imm_eq_zero_iff]
  simp only [word_eq_iff_fields_eq, BitVec.extractLsb'_and, BitVec.reduceExtractLsb', h4, h5, h7, h8,
    BitVec.and_zero, true_and, and_true]
  generalize cw.extractLsb' 28 4 = op
  constructor
  · rintro (h | h | h | h | h | h | h | h | h | h | h) <;> simp [h]
  · rintro ⟨rfl | rfl | rfl | rfl | rfl | rfl | rfl | rfl | rfl | rfl | rfl, h⟩ <;> simpa using h

theorem mask_keeps_op : ∀ r ∈ opcodeRows, r.mask.extractLsb' 28 4 = BitVec.allOnes 4 := by
  decide

/-- Every mask keeps OP, so a word that matches a row has the row's opcode. -/
theorem op_of_matches_row {cw : Word} {r : OpcodeRow} (hr : r ∈ opcodeRows) (h : cw &&& r.mask = r.pattern) :
    cw.extractLsb' 28 4 = r.pattern.extractLsb' 28 4 := by
  rw [← h, BitVec.extractLsb'_and, mask_keeps_op r hr, BitVec.and_allOnes]

theorem row_eq_of_op_eq : ∀ r ∈ opcodeRows, ∀ r' ∈ opcodeRows,
    r.pattern.extractLsb' 28 4 = r'.pattern.extractLsb' 28 4 → r = r' := by
  decide

/-- Settles O9: decoder and opcode map each accept exactly the words that meet the five conditions of
R96, and the rows' opcodes differ. -/
theorem legalExactlyByTheOpcodeMap : Obligations.LegalExactlyByTheOpcodeMap := fun cw =>
  ⟨(decode_legal_iff cw).trans (exists_row_iff cw).symm,
    fun r hr r' hr' h h' => row_eq_of_op_eq r hr r' hr'
      ((op_of_matches_row hr h).symm.trans (op_of_matches_row hr' h')),
    decode_legal_iff cw⟩

/-! ## Worked examples (R104) -/

/-- Settles O10, by running the decoder on each word. -/
theorem workedEncodingsDecode : Obligations.WorkedEncodingsDecode := by
  unfold Obligations.WorkedEncodingsDecode
  decide

end Sys2Proof.Proofs
end
section
/-!
PROOFS. The family `30_encoding.md`, second part: what the assembler makes of a line.
-/

namespace Sys2Proof.Proofs
open Sys2Proof.Machine

/-! ## What a line assembles to -/

/-- A line whose tokens begin with a mnemonic is what the mnemonic makes of its operands. -/
theorem assembleLine_of_lookup {line m : List Char} {ts : List AsmToken} {os : List AsmOperand}
    {make : List AsmOperand → Except AsmError (List Instr)} (hline : asmTokens .gap line = .ok (.word m :: ts))
    (hm : asmMnemonics.lookup m = some make) (hts : asmOperands ts = .ok os) : assembleLine line = make os := by
  simp only [assembleLine, hline, hm, hts]

/-- A line that assembles is empty or a mnemonic with its operands. -/
theorem assembleLine_ok_cases {line : List Char} {is : List Instr} (h : assembleLine line = .ok is) :
    is = [] ∨ ∃ m make os, asmMnemonics.lookup m = some make ∧ make os = .ok is := by
  unfold assembleLine at h
  split at h
  case h_2 => exact .inl (Except.ok.inj h).symm
  case h_3 m ts hline =>
    split at h
    · cases h
    next make hm =>
      split at h
      next os hts => exact .inr ⟨m, make, os, hm, h⟩
      · cases h
  all_goals cases h

/-! ## Operand ranges (R101) -/

/-- A reader of operands that answers well-formed commands only. -/
def MakesWellFormed (make : List AsmOperand → Except AsmError (List Instr)) : Prop :=
  ∀ os is, make os = .ok is → ∀ i ∈ is, i.WellFormed

theorem wellFormedB_iff (i : Instr) : i.wellFormedB ↔ i.WellFormed := by
  cases i <;> simp [Instr.wellFormedB, Instr.WellFormed]

theorem asmChecked_wellFormed {i : Instr} {is : List Instr} (h : asmChecked i = .ok is) :
    ∀ j ∈ is, j.WellFormed := by
  unfold asmChecked at h
  split at h
  next hi =>
    cases h
    exact List.forall_mem_singleton.mpr ((wellFormedB_iff i).mp hi)
  · cases h

theorem asmNone_makesWellFormed {i : Instr} (hi : i.WellFormed) : MakesWellFormed (asmNone i) := by
  intro os is h
  unfold asmNone at h
  split at h
  · cases h
    exact List.forall_mem_singleton.mpr hi
  · cases h

theorem asmOneByte_makesWellFormed {f : Byte → Instr} (hf : ∀ b, (f b).WellFormed) :
    MakesWellFormed (asmOneByte f) := by
  intro os is h
  unfold asmOneByte at h
  split at h
  · split at h
    next b _ =>
      cases h
      exact List.forall_mem_singleton.mpr (hf b)
    · cases h
  · cases h

theorem asmOneNumber_makesWellFormed (f : Nat → Instr) : MakesWellFormed (asmOneNumber f) := by
  intro os is h
  unfold asmOneNumber at h
  split at h
  · exact asmChecked_wellFormed h
  · cases h

theorem asmTwoNumbers_makesWellFormed (f : Nat → Nat → Instr) : MakesWellFormed (asmTwoNumbers f) := by
  intro os is h
  unfold asmTwoNumbers at h
  split at h
  · exact asmChecked_wellFormed h
  · cases h

theorem asmEach_makesWellFormed {f : Byte → Instr} (hf : ∀ b, (f b).WellFormed) :
    MakesWellFormed (asmEach f) := by
  intro os is h
  unfold asmEach at h
  split at h
  · cases h
  next bs _ _ =>
    cases h
    exact List.forall_mem_map.mpr fun b _ => hf b
  · cases h

theorem asmMnemonics_makeWellFormed : ∀ p ∈ asmMnemonics, MakesWellFormed p.2 := by
  simp only [asmMnemonics, List.forall_mem_cons]
  exact ⟨asmNone_makesWellFormed trivial, asmOneByte_makesWellFormed fun _ => trivial,
    asmNone_makesWellFormed trivial, asmTwoNumbers_makesWellFormed _, asmNone_makesWellFormed trivial,
    asmNone_makesWellFormed trivial, asmOneByte_makesWellFormed fun _ => trivial,
    asmNone_makesWellFormed trivial, asmOneByte_makesWellFormed fun _ => trivial,
    asmOneNumber_makesWellFormed _, asmOneNumber_makesWellFormed _, asmEach_makesWellFormed fun _ => trivial,
    asmEach_makesWellFormed fun _ => trivial, asmEach_makesWellFormed fun _ => trivial,
    List.forall_mem_nil _⟩

/-- Settles O56: whatever mnemonic a line begins with, it makes well-formed commands only. -/
theorem assembledCommandsAreWellFormed : Obligations.AssembledCommandsAreWellFormed := by
  intro line is h
  obtain rfl | ⟨m, make, os, hm, hmake⟩ := assembleLine_ok_cases h
  · simp
  · obtain ⟨l₁, l₂, hl, -⟩ := List.lookup_eq_some_iff.mp hm
    have hmem : (m, make) ∈ asmMnemonics := by simp [hl]
    exact asmMnemonics_makeWellFormed _ hmem os is hmake

/-! ## Pseudo-instructions (R103) -/

/-- The bytes an operand stands for: a byte itself, a string its characters' codes. -/
def operandBytes : Byte ⊕ List Char → Seq :=
  Sum.elim (fun b => [b]) (fun cs => cs.map (fun c => BitVec.ofNat 8 c.toNat))

/-- An operand as the assembler reads it. -/
def operandOf : Byte ⊕ List Char → AsmOperand :=
  Sum.elim (fun b => .number b.toNat) .text

theorem asmByte_toNat (b : Byte) : asmByte b.toNat = .ok b := by
  simp [asmByte, b.isLt]

theorem asmBytes_operandOf_cons (x : Byte ⊕ List Char) {os : List AsmOperand} {bs : Seq}
    (h : asmBytes os = .ok bs) : asmBytes (operandOf x :: os) = .ok (operandBytes x ++ bs) := by
  cases x with
  | inl b => simp [operandOf, operandBytes, asmBytes, asmByte_toNat, h]
  | inr cs => simp [operandOf, operandBytes, asmBytes, h]

theorem asmBytes_map_operandOf (xs : List (Byte ⊕ List Char)) :
    asmBytes (xs.map operandOf) = .ok (xs.flatMap operandBytes) := by
  induction xs with
  | nil => rfl
  | cons x xs ih => exact asmBytes_operandOf_cons x ih

/-- R103: operands that give at least one byte expand to a command of each byte. -/
theorem asmEach_of_asmBytes (f : Byte → Instr) {os : List AsmOperand} {bs : Seq} (h : asmBytes os = .ok bs)
    (hbs : bs ≠ []) : asmEach f os = .ok (bs.map f) := by
  obtain ⟨b, bs, rfl⟩ := List.exists_cons_of_ne_nil hbs
  simp [asmEach, h]

theorem flatMap_operandBytes_ne_nil {xs : List (Byte ⊕ List Char)} (hxs : xs ≠ [])
    (hcs : ∀ cs, .inr cs ∈ xs → cs ≠ []) : xs.flatMap operandBytes ≠ [] := by
  obtain ⟨x, xs, rfl⟩ := List.exists_cons_of_ne_nil hxs
  cases x with
  | inl b => simp [operandBytes]
  | inr cs => simp [operandBytes, hcs cs List.mem_cons_self]

theorem lookup_pseudo : ∀ p ∈ ([("ENC_BYTES", .encByte), ("DEC_BYTES", .decByte), ("UP_PUTS", .upPut)] :
    List (String × (Byte → Instr))), asmMnemonics.lookup p.1.toList = some (asmEach p.2) := by
  simp only [List.forall_mem_cons]
  exact ⟨rfl, rfl, rfl, List.forall_mem_nil _⟩

theorem asmMnemonics_lookup_isSome_iff (m : List Char) :
    (asmMnemonics.lookup m).isSome ↔ m ∈ asmMnemonics.map Prod.fst := by
  simp [List.lookup_isSome_iff, eq_comm (a := m)]

/-- Settles O57: a pseudo-instruction reads the bytes of its operands, in order, and makes a command of each. -/
theorem pseudoInstructionsExpandByteByByte : Obligations.PseudoInstructionsExpandByteByByte := by
  refine ⟨fun p hp => ⟨?_, ?_⟩, by rfl, by rfl, by rfl, asmMnemonics_lookup_isSome_iff⟩
  · intro line ts xs hline hts hxs hcs
    rw [assembleLine_of_lookup hline (lookup_pseudo p hp) hts]
    exact asmEach_of_asmBytes p.2 (asmBytes_map_operandOf xs)
      (flatMap_operandBytes_ne_nil hxs fun cs h => (hcs cs h).1)
  · intro line hline is h
    rw [assembleLine_of_lookup hline (lookup_pseudo p hp) rfl] at h
    cases h

end Sys2Proof.Proofs
end
section
/-!
PROOFS. The family `40_dictionaries.md`: the seeds the INITs leave, the code table, and the reference functions
Contains, IndexOf and Add by the walk along a path.
-/

namespace Sys2Proof.Proofs
open Sys2Proof.Machine

/-! ## Sessions open over the seeds (R121, R128) -/

/-- R128: the seeded table has no entry from 256 on. -/
theorem tableAt_nil {c : Nat} (h : 256 ≤ c) : tableAt [] c = none := by
  simp [tableAt, Config.alphabet, Nat.not_lt.mpr h, natMapGet]

/-- Settles O19: ENC_INIT passes the gate in every phase, and its seed stores no child. -/
theorem encInitOpensASession : Obligations.EncInitOpensASession := fun s =>
  ⟨[], (exec_encInit s).trans (runEnc_ok (gate_anyPhase _) rfl), child_nil, child_root _⟩

/-- Settles O24: DEC_INIT passes the gate in every phase, and its seed stores no entry. -/
theorem decInitOpensASession : Obligations.DecInitOpensASession := fun s =>
  ⟨[], (exec_decInit s).trans (runDec_ok (gate_anyPhase _) rfl), tableAt_byte _, fun _ => tableAt_nil⟩

/-! ## The code table (R128 to R131) -/

section
variable {d : DecSide} {c : Nat}

theorem lookup_of_lt (h : c < d.size) : lookup d c = tableAt d.table c := if_pos h

theorem lookup_of_le (h : d.size ≤ c) : lookup d c = none := if_neg (Nat.not_lt.mpr h)
end

@[simp] theorem firstByte_cons (b : Byte) (s : Seq) : firstByte (b :: s) = some b := rfl

@[simp] theorem seedTable_size (d : DecSide) : (seedTable d).size = 256 := rfl

@[simp] theorem seedTable_table (d : DecSide) : (seedTable d).table = [] := rfl

theorem lookup_seedTable_byte (d : DecSide) (b : Byte) : lookup (seedTable d) b.toNat = some [b] :=
  (lookup_of_lt b.isLt).trans (tableAt_byte _ b)

/-- Settles O50: the four functions, each by its own lemma; a code below D.SIZE has an entry by the laws. -/
theorem appendAddsTheNextCode : Obligations.AppendAddsTheNextCode := by
  intro mw d sq h
  refine ⟨⟨append_code sq d, rfl, ?_, fun c hc => ?_⟩, fun c hc => ⟨lookup_of_lt hc, ?_⟩,
    fun c => lookup_of_le, seedTable_size d, lookup_seedTable_byte d, fun c hc => ?_⟩
  · rw [append_side]
    exact tableAt_setTable_self _ _ _ h.size_range.1
  · rw [append_side]
    exact tableAt_setTable_of_ne _ _ hc
  · obtain ⟨b, rest, ht⟩ := h.entry hc
    exact ⟨b, rest, ht, firstByte_cons b rest⟩
  · rw [seedTable_table, tableAt_nil hc]

/-! ## The walk of LongestPrefix (R122) -/

section
variable {t : Trie} {node : Node} {i n : Nat} {b : Byte}

@[simp] theorem longestPrefixFrom_nil : longestPrefixFrom t node i [] = (node, i) := rfl

theorem longestPrefixFrom_hit (h : child t node b = some n) (s : Seq) :
    longestPrefixFrom t node i (b :: s) = longestPrefixFrom t (.code n) (i + 1) s := by
  simp [longestPrefixFrom, h]

theorem longestPrefixFrom_miss (h : child t node b = none) (s : Seq) :
    longestPrefixFrom t node i (b :: s) = (node, i) := by
  simp [longestPrefixFrom, h]
end

/-- Every child of a code in the first trie is its child in the second. -/
def ChildrenKept (t t' : Trie) : Prop :=
  ∀ p b n, child t (.code p) b = some n → child t' (.code p) b = some n

theorem ChildrenKept.refl (t : Trie) : ChildrenKept t t := fun _ _ _ => id

section
variable {mw : Nat} {e : EncSide} (h : EncLaws mw e) {c : Nat} {sq : Seq} (hc : c < e.next)
  (hp : path e.trie c = some sq)
include h hc hp

theorem encLaws_path_ne_nil : sq ≠ [] := by
  obtain ⟨s, hs, hne⟩ := encLaws_path_exists h hc
  rwa [Option.some.inj (hp.symm.trans hs)]

/-- The walk along the path of a code arrives at the code, in the trie and in every trie that keeps its
children, by induction on the code: it passes the parent first. -/
theorem encLaws_longestPrefix_path {t : Trie}
    (ht : ChildrenKept e.trie t) (rest : Seq) :
    longestPrefix t (sq ++ rest) = longestPrefixFrom t (.code c) sq.length rest := by
  induction c using Nat.strong_induction_on generalizing sq rest with
  | _ c ih =>
    rcases encLaws_path_cases h hc hp with ⟨hb, rfl⟩ | ⟨p, b, sp, hk, hlt, hsp, -, rfl⟩
    · have hroot : child t .root (BitVec.ofNat 8 c) = some c := by
        simp [Nat.mod_eq_of_lt hb]
      exact longestPrefixFrom_hit hroot rest
    · rw [List.append_assoc, ih p hlt (hlt.trans hc) hsp, List.singleton_append,
        longestPrefixFrom_hit (ht _ _ _ hk), List.length_append, List.length_singleton]

theorem encLaws_longestPrefix_known : longestPrefix e.trie sq = (.code c, sq.length) := by
  simpa using encLaws_longestPrefix_path h hc hp (.refl _) []

theorem encLaws_longestPrefix_miss {b : Byte} (hn : child e.trie (.code c) b = none) (rest : Seq) :
    longestPrefix e.trie (sq ++ b :: rest) = (.code c, sq.length) := by
  rw [encLaws_longestPrefix_path h hc hp (.refl _), longestPrefixFrom_miss hn]

theorem encLaws_longestPrefix_hit {t : Trie} {b : Byte} {n : Nat}
    (ht : ChildrenKept e.trie t) (hn : child t (.code c) b = some n) :
    longestPrefix t (sq ++ [b]) = (.code n, sq.length + 1) := by
  rw [encLaws_longestPrefix_path h hc hp ht, longestPrefixFrom_hit hn, longestPrefixFrom_nil]
end

/-! ## Contains and IndexOf (R123, R124, R127) -/

theorem contains_eq {s : Seq} (hs : s ≠ []) (t : Trie) :
    contains t s = .ok ((longestPrefix t s).2 == s.length) := by
  cases s with
  | nil => exact absurd rfl hs
  | cons b s => rfl

theorem indexOf_of_walk {t : Trie} {s : Seq} (hs : s ≠ []) {c i : Nat} (hw : longestPrefix t s = (.code c, i)) :
    indexOf t s = if i = s.length then .ok c else .error .lookup := by
  cases s with
  | nil => exact absurd rfl hs
  | cons b s => simp only [indexOf, hw]

/-- Settles O48, by the walk along the candidate's path and one step more. -/
theorem extensionIsOneChildLookup : Obligations.ExtensionIsOneChildLookup := by
  intro mw e c sq b h hc hp
  have hne : sq ++ [b] ≠ [] := by simp
  refine ⟨?_, fun n hn => ?_, fun hn => ?_⟩
  · rw [contains_eq hne]
    rcases hn : child e.trie (.code c) b with _ | n
    · simp [encLaws_longestPrefix_miss h hc hp hn]
    · simp [encLaws_longestPrefix_hit h hc hp (.refl _) hn]
  · rw [indexOf_of_walk hne (encLaws_longestPrefix_hit h hc hp (.refl _) hn)]
    simp
  · rw [indexOf_of_walk hne (encLaws_longestPrefix_miss h hc hp hn [])]
    simp

/-! ## A new child keeps every path and adds one (R125) -/

theorem childrenKept_setChild {t : Trie} {c : Nat} {b : Byte} (hn : child t (.code c) b = none) (n : Nat) :
    ChildrenKept t (setChild t c b n) := by
  intro p b' m hm
  have hne : (p, b') ≠ (c, b) := by
    rintro ⟨⟩
    simp [hn] at hm
  rw [child_setChild_of_ne t n hne, hm]

/-- Writing a new code at a new key leaves the entries of the other codes, wherever the write goes. -/
theorem parentOf_natMapPut {t : Trie} {k n : Nat} (hk : natMapGet t k = none) (hn : n ∉ t.map Prod.snd)
    (m : Nat) : parentOf (natMapPut t k n) m = if n = m then some (keyParent k, keyByte k) else parentOf t m := by
  induction t with
  | nil => rfl
  | cons x t ih =>
    obtain ⟨j, v⟩ := x
    have hjk : k ≠ j := by
      rintro rfl
      simp [natMapGet] at hk
    obtain ⟨hnv, hnt⟩ : n ≠ v ∧ n ∉ t.map Prod.snd := by simpa using hn
    by_cases hlt : k < j
    · simp [natMapPut, hlt, parentOf]
    · have hkt : natMapGet t k = none := by simpa [natMapGet, hjk.symm] using hk
      simp only [natMapPut, hlt, hjk, if_false, parentOf, ih hkt hnt]
      by_cases hvm : v = m
      · simp [hvm, hvm ▸ hnv]
      · simp [hvm]

section
variable {mw : Nat} {e : EncSide} (h : EncLaws mw e) {c : Nat} {b : Byte}
  (hn : child e.trie (.code c) b = none)
include h hn

theorem encLaws_parentOf_insert (m : Nat) : parentOf (setChild e.trie c b e.next) m =
    if e.next = m then some (c, b) else parentOf e.trie m := by
  have hnew : e.next ∉ e.trie.map Prod.snd := by
    intro hmem
    obtain ⟨x, hx, hxn⟩ := List.mem_map.mp hmem
    have := (h.trie_codes x hx).2.1
    omega
  rw [setChild, parentOf_natMapPut hn hnew, keyParent_childKey, keyByte_childKey]

/-- The links from an old code lead through old codes only, so a new entry is not met. -/
theorem encLaws_pathWithin_insert (fuel : Nat) {k : Nat} (hk : k < e.next) :
    pathWithin fuel (setChild e.trie c b e.next) k = pathWithin fuel e.trie k := by
  induction fuel generalizing k with
  | zero => rfl
  | succ fuel ih =>
    by_cases hb : k < 256
    · simp [pathWithin, Config.alphabet, hb]
    · obtain ⟨p, b', hp, -, hlt⟩ := encLaws_parentOf h (Nat.not_lt.mp hb) hk
      simp only [pathWithin, encLaws_parentOf_insert h hn, if_neg hk.ne', hp, ih (hlt.trans hk)]

theorem encLaws_path_insert {k : Nat} (hk : k < e.next) :
    path (setChild e.trie c b e.next) k = path e.trie k :=
  encLaws_pathWithin_insert h hn _ hk

theorem encLaws_path_inserted (hc : c < e.next) {sq : Seq} (hp : path e.trie c = some sq) :
    path (setChild e.trie c b e.next) e.next = some (sq ++ [b]) := by
  have hparent : pathWithin e.next (setChild e.trie c b e.next) c = some sq := by
    rw [encLaws_pathWithin_insert h hn _ hc, encLaws_pathWithin_fuel h hc hc (Nat.lt_succ_self c), ← path, hp]
  rw [path, pathWithin, if_neg (show ¬ e.next < Config.alphabet from Nat.not_lt.mpr h.next_range.1),
    encLaws_parentOf_insert h hn, if_pos rfl]
  simp only [hparent]
end

/-! ## Add (R125, R126) -/

/-- What Add does on a non-empty sequence whose walk leaves the root. -/
theorem add_of_walk {s : Seq} {e : EncSide} {b : Byte} {c i : Nat} (hb : s.getLast? = some b)
    (hw : longestPrefix e.trie s = (.code c, i)) :
    add s e = if i = s.length then .ok (e, c, false)
      else if i + 1 = s.length then .ok (insertChild c b e, e.next, true)
      else .error .outsideArena := by
  simp only [add, hb, hw]

section
variable {mw : Nat} {e : EncSide} (h : EncLaws mw e) {c : Nat} {sq : Seq} (hc : c < e.next)
  (hp : path e.trie c = some sq)
include h hc hp

theorem encLaws_add_known : add sq e = .ok (e, c, false) := by
  have hlast := List.getLast?_eq_getLast_of_ne_nil (encLaws_path_ne_nil h hc hp)
  rw [add_of_walk hlast (encLaws_longestPrefix_known h hc hp), if_pos rfl]

variable {b : Byte} (hn : child e.trie (.code c) b = none)
include hn

theorem encLaws_add_extension : add (sq ++ [b]) e = .ok (insertChild c b e, e.next, true) := by
  rw [add_of_walk List.getLast?_concat (encLaws_longestPrefix_miss h hc hp hn [])]
  simp

/-- The second Add walks along the old path, which the first one kept, to the new child. -/
theorem encLaws_add_again :
    add (sq ++ [b]) (insertChild c b e) = .ok (insertChild c b e, e.next, false) := by
  have hwalk : longestPrefix (insertChild c b e).trie (sq ++ [b]) = (.code e.next, sq.length + 1) :=
    encLaws_longestPrefix_hit h hc hp (childrenKept_setChild hn e.next) (child_setChild_self _ _ _ _)
  rw [add_of_walk List.getLast?_concat hwalk]
  simp

theorem encLaws_add_refused (b' : Byte) (s : Seq) : add (sq ++ b :: b' :: s) e = .error .outsideArena := by
  have hlast := List.getLast?_eq_getLast_of_ne_nil (show sq ++ b :: b' :: s ≠ [] by simp)
  rw [add_of_walk hlast (encLaws_longestPrefix_miss h hc hp hn _)]
  simp
end

/-- Settles O49, case by case as the walk ends: at the last byte, one byte before it, or earlier. -/
theorem addInsertsOneByteExtensions : Obligations.AddInsertsOneByteExtensions := by
  intro mw e h
  refine ⟨rfl, fun c sq hc hp => encLaws_add_known h hc hp, fun c sq b hc hp hn => ?_,
    fun c sq b b' s hc hp hn => encLaws_add_refused h hc hp hn b' s⟩
  exact ⟨insertChild c b e, encLaws_add_extension h hc hp hn, insertChild_next c b e,
    encLaws_path_inserted h hn hc hp, fun k => encLaws_path_insert h hn, encLaws_add_again h hc hp hn⟩

end Sys2Proof.Proofs
end
section
/-!
PROOFS. The family `41_bit_channel.md`: the four raw commands, and the laws of packing and unpacking by
induction over the commands.
-/

namespace Sys2Proof.Proofs
open Sys2Proof.Machine

/-! ## The raw commands (R156 to R159) -/

/-- Settles O13: the gate lets PK_PUT run, and `packBits` packs exactly the values that fit. -/
theorem pkPutPacksAValue : Obligations.PkPutPacksAValue := by
  refine fun s w v => ⟨fun hp hv => ?_, fun hp hv => ?_⟩
  · obtain ⟨q, out, hd, hb⟩ := packBits_ok hv s.enc
    exact ⟨q, out, hd, (exec_pkPut s w v).trans (runEnc_ok (gate_idleOrActive hp) hb)⟩
  · exact (exec_pkPut s w v).trans (runEnc_error (gate_idleOrActive hp) (packBits_error hv s.enc))

theorem exec_pkFlush_of_not_failed {s : State} (hp : s.enc.phase ≠ .failed) :
    exec .pkFlush s = .next { s with enc := packFlush s.enc } :=
  (exec_pkFlush s).trans (runEnc_ok (gate_idleOrActive hp) rfl)

theorem packFlush_empty {e : EncSide} (h : e.pkq = []) : packFlush e = e := by
  simp [packFlush, h]

/-- R153: a partial byte becomes one byte. -/
theorem packFlush_partial {e : EncSide} (h0 : e.pkq ≠ []) (h7 : e.pkq.length ≤ 7) : ∃ y : Byte,
    byteBits y = e.pkq ++ List.replicate (8 - e.pkq.length) false ∧
    packFlush e = { e with pkq := [], out := e.out ++ [y] } := by
  obtain ⟨ys, hb, hf⟩ := packFlush_spec e h7
  have hpos := List.length_pos_iff.mpr h0
  rw [show (8 - e.pkq.length % 8) % 8 = 8 - e.pkq.length by omega] at hb
  have hlen : ys.length = 1 := by
    have := congrArg List.length hb
    simp only [flatMap_byteBits_length, List.length_append, List.length_replicate] at this
    omega
  obtain ⟨y, rfl⟩ := List.length_eq_one_iff.mp hlen
  exact ⟨y, by simpa using hb, hf⟩

/-- Settles O14, by what `packFlush` does to an empty queue and to a partial byte. -/
theorem pkFlushCompletesTheByte : Obligations.PkFlushCompletesTheByte := by
  refine fun s hp => ⟨fun h => ?_, fun h0 h7 => ?_⟩
  · rw [exec_pkFlush_of_not_failed hp, packFlush_empty h]
  · obtain ⟨y, hb, hf⟩ := packFlush_partial h0 h7
    exact ⟨y, hb, by rw [exec_pkFlush_of_not_failed hp, hf]⟩

/-- Settles O15: a byte fits behind at most 24 bits. -/
theorem upPutQueuesAByte : Obligations.UpPutQueuesAByte := fun s b hp =>
  ⟨fun h => (exec_upPut s b).trans (runDec_ok (gate_idleOrActive hp) (upPush_ok b h)),
    fun h => (exec_upPut s b).trans (runDec_error (gate_idleOrActive hp) (upPush_error b h))⟩

/-- A popped value fits UP.RESP at every width a word can carry. -/
theorem resp_toNat_of_take {w : Nat} (hw : w ≤ 31) (q : Bits) :
    (BitVec.ofNat 32 (valOf (q.take w))).toNat = valOf (q.take w) :=
  Nat.mod_eq_of_lt ((valOf_take_lt q w).trans (Nat.pow_lt_pow_right (by decide) (by omega)))

/-- Settles O16: `upGetBody` pops when the bits are there, and the value fits UP.RESP. -/
theorem upGetDequeuesBits : Obligations.UpGetDequeuesBits := by
  refine fun s w hp hw => ⟨fun h => ⟨_, resp_toNat_of_take hw s.dec.upq, ?_, ?_⟩, fun h => ?_⟩
  · exact (resp_toNat_of_take hw _).trans_lt (valOf_take_lt _ w)
  · exact (exec_upGet s w).trans (runDec_ok (gate_idleOrActive hp) (upGetBody_ok h))
  · exact (exec_upGet s w).trans (runDec_error (gate_idleOrActive hp) (upGetBody_error h))

/-! ## Commands in a row (R82) -/

theorem execAll_cons_next {i : Instr} {is : List Instr} {s t : State} :
    execAll (i :: is) s = .next t ↔ ∃ u, exec i s = .next u ∧ execAll is u = .next t := by
  rw [execAll]
  cases exec i s <;> simp

theorem execAll_singleton_next {i : Instr} {s t : State} : execAll [i] s = .next t ↔ exec i s = .next t :=
  execAll_cons_next.trans (by simp [execAll])

theorem execAll_append_next {is js : List Instr} {s t : State} :
    execAll (is ++ js) s = .next t ↔ ∃ u, execAll is s = .next u ∧ execAll js u = .next t := by
  induction is generalizing s with
  | nil => simp [execAll]
  | cons i is ih =>
    simp only [List.cons_append, execAll_cons_next, ih]
    exact ⟨fun ⟨u, hu, v, hv, ht⟩ => ⟨v, ⟨u, hu, hv⟩, ht⟩, fun ⟨v, ⟨u, hu, hv⟩, ht⟩ => ⟨u, hu, v, hv, ht⟩⟩

/-! ## The packing law (R160) -/

/-- The bits of values packed at their widths, one after another; each pair is a width and a value. -/
def packedBits (ws : List (Nat × Nat)) : Bits := ws.flatMap fun x => bitsOf x.1 x.2

@[simp] theorem packedBits_nil : packedBits [] = [] := rfl

@[simp] theorem packedBits_cons (x : Nat × Nat) (ws : List (Nat × Nat)) :
    packedBits (x :: ws) = bitsOf x.1 x.2 ++ packedBits ws := rfl

@[simp] theorem packedBits_append (ws ws' : List (Nat × Nat)) :
    packedBits (ws ++ ws') = packedBits ws ++ packedBits ws' := List.flatMap_append

theorem packedBits_length (ws : List (Nat × Nat)) : (packedBits ws).length = (ws.map Prod.fst).sum := by
  simp [packedBits, List.length_flatMap]

/-- Draining, then draining again behind more bits, is draining once. -/
theorem drained_trans {p q q' r : Bits} {o o' o'' : Seq} (h : Drained p o q o')
    (h' : Drained (q ++ r) o' q' o'') : Drained (p ++ r) o q' o'' := by
  obtain ⟨-, ys, rfl, rfl⟩ := h
  obtain ⟨hl, zs, rfl, hb⟩ := h'
  exact ⟨hl, ys ++ zs, by simp, by simp [hb]⟩

/-- R151 over a list: any number of PK_PUTs drain as one. -/
theorem execAll_pkPut {ws : List (Nat × Nat)} {s : State} (hp : s.enc.phase ≠ .failed)
    (hq : s.enc.pkq.length ≤ 7) (hfit : ∀ x ∈ ws, x.2 < 2 ^ x.1) :
    ∃ q out, Drained (s.enc.pkq ++ packedBits ws) s.enc.out q out ∧
      execAll (ws.map fun x => .pkPut x.1 x.2) s =
        .next { s with enc := { s.enc with pkq := q, out := out } } := by
  induction ws generalizing s with
  | nil => exact ⟨s.enc.pkq, s.enc.out, ⟨hq, [], by simp, by simp⟩, rfl⟩
  | cons x ws ih =>
    obtain ⟨hx, hws⟩ := List.forall_mem_cons.mp hfit
    obtain ⟨q, out, hd, hput⟩ := (pkPutPacksAValue s x.1 x.2).1 hp hx
    obtain ⟨q', out', hd', hrest⟩ := ih (s := { s with enc := { s.enc with pkq := q, out := out } }) hp hd.1 hws
    exact ⟨q', out', by simpa using drained_trans hd hd', execAll_cons_next.mpr ⟨_, hput, hrest⟩⟩

/-- Settles O17: the PK_PUTs drain as one, and the flush completes what they leave. -/
theorem packingLaw : Obligations.PackingLaw := by
  intro s ws hp hq hfit
  obtain ⟨q, out, ⟨hl, ys, rfl, hbits⟩, hputs⟩ := execAll_pkPut hp (by simp [hq]) hfit
  obtain ⟨zs, hpad, hflush⟩ := packFlush_spec { s.enc with pkq := q, out := s.enc.out ++ ys } hl
  rw [hq, List.nil_append] at hbits
  have hlen : 8 * ys.length + q.length = (ws.map Prod.fst).sum := by
    simpa [packedBits_length, mul_comm] using congrArg List.length hbits
  have hpadlen := congrArg List.length hpad
  simp only [flatMap_byteBits_length, List.length_append, List.length_replicate] at hpadlen
  refine ⟨ys ++ zs, ?_, by rw [List.length_append]; omega, execAll_append_next.mpr ⟨_, hputs, ?_⟩⟩
  · rw [List.flatMap_append, hpad, ← List.append_assoc, hbits, ← hlen, Nat.mul_add_mod]
    rfl
  · refine execAll_singleton_next.mpr ((exec_pkFlush_of_not_failed (by exact hp)).trans ?_)
    simp [hflush, hq]

/-! ## The unpacking law (R161) -/

/-- The bits of the bytes that pushes (`inl`) among pushes and pops (`inr`) queue. -/
def pushedBits (ops : List (Byte ⊕ Nat)) : Bits := ops.flatMap (Sum.elim byteBits fun _ => [])

/-- How many bits the pops take. -/
def poppedLength (ops : List (Byte ⊕ Nat)) : Nat := (ops.map (Sum.elim (fun _ => 0) id)).sum

@[simp] theorem pushedBits_append (ops ops' : List (Byte ⊕ Nat)) :
    pushedBits (ops ++ ops') = pushedBits ops ++ pushedBits ops' := List.flatMap_append

@[simp] theorem pushedBits_push (b : Byte) : pushedBits [.inl b] = byteBits b := by simp [pushedBits]

@[simp] theorem pushedBits_pop (w : Nat) : pushedBits [.inr w] = [] := rfl

@[simp] theorem poppedLength_append (ops ops' : List (Byte ⊕ Nat)) :
    poppedLength (ops ++ ops') = poppedLength ops + poppedLength ops' := by simp [poppedLength]

@[simp] theorem poppedLength_push (b : Byte) : poppedLength [.inl b] = 0 := rfl

@[simp] theorem poppedLength_pop (w : Nat) : poppedLength [.inr w] = w := rfl

theorem poppedLength_eq_sum_widths (ops : List (Byte ⊕ Nat)) :
    poppedLength ops = (ops.filterMap Sum.getRight?).sum := by
  induction ops with
  | nil => rfl
  | cons op ops ih => cases op <;> simpa [poppedLength, List.filterMap_cons] using ih

/-- An UP_PUT that leaves the side out of FAILED has queued its byte. -/
theorem exec_upPut_completed {b : Byte} {s t : State} (h : exec (.upPut b) s = .next t)
    (ht : t.dec.phase ≠ .failed) : t.dec = { s.dec with upq := s.dec.upq ++ byteBits b } := by
  rcases exec_dec h with ⟨hs, -⟩ | ⟨-, -, x, hx⟩ | ⟨n, body, hi, hb⟩
  · cases hs
  · exact absurd (by rw [hx]) ht
  · cases hi
    rcases Nat.lt_or_ge 24 s.dec.upq.length with hq | hq
    · rw [upPush_error b hq] at hb
      cases hb
    · rw [upPush_ok b hq] at hb
      exact (Except.ok.inj hb).symm

/-- An UP_GET that leaves the side out of FAILED has found its bits. -/
theorem exec_upGet_completed {w : Nat} {s t : State} (h : exec (.upGet w) s = .next t)
    (ht : t.dec.phase ≠ .failed) : w ≤ s.dec.upq.length ∧
      t.dec = { s.dec with upq := s.dec.upq.drop w, resp := BitVec.ofNat 32 (valOf (s.dec.upq.take w)) } := by
  rcases exec_dec h with ⟨hs, -⟩ | ⟨-, -, x, hx⟩ | ⟨n, body, hi, hb⟩
  · cases hs
  · exact absurd (by rw [hx]) ht
  · cases hi
    rcases Nat.lt_or_ge s.dec.upq.length w with hq | hq
    · rw [upGetBody_error hq] at hb
      cases hb
    · rw [upGetBody_ok hq] at hb
      exact ⟨hq, (Except.ok.inj hb).symm⟩

/-- UP.Q after pushes and pops that raise no error: what was pushed without what was popped. By
induction from the last command, because only the last phase is known not to be FAILED. -/
theorem execAll_upOps {ops : List (Byte ⊕ Nat)} {s t : State}
    (h : execAll (ops.map (Sum.elim .upPut .upGet)) s = .next t) (ht : t.dec.phase ≠ .failed) :
    poppedLength ops ≤ (s.dec.upq ++ pushedBits ops).length ∧
      t.dec.upq = (s.dec.upq ++ pushedBits ops).drop (poppedLength ops) := by
  induction ops using List.reverseRecOn generalizing t with
  | nil =>
    cases h
    simp [poppedLength, pushedBits]
  | append_singleton ops op ih =>
    rw [List.map_append, execAll_append_next] at h
    obtain ⟨u, hu, hop⟩ := h
    rw [List.map_singleton, execAll_singleton_next] at hop
    cases op with
    | inl b =>
      have hpush := exec_upPut_completed hop ht
      obtain ⟨hle, hq⟩ := ih hu (by simpa [hpush] using ht)
      rw [hpush, hq, pushedBits_append, poppedLength_append, pushedBits_push, poppedLength_push, Nat.add_zero,
        ← List.append_assoc]
      exact ⟨hle.trans (by simp), (List.drop_append_of_le_length hle).symm⟩
    | inr w =>
      obtain ⟨hw, hpop⟩ := exec_upGet_completed hop ht
      obtain ⟨hle, hq⟩ := ih hu (by simpa [hpop] using ht)
      rw [hq, List.length_drop] at hw
      rw [hpop, hq, List.drop_drop, pushedBits_append, poppedLength_append, pushedBits_pop, poppedLength_pop,
        List.append_nil]
      exact ⟨by omega, rfl⟩

/-- A group of bits inside an initial segment is the group at the same place of the whole list. -/
theorem take_drop_of_prefix {p l : Bits} (h : p <+: l) {a n : Nat} (hn : a + n ≤ p.length) :
    (p.drop a).take n = (l.drop a).take n := by
  obtain ⟨z, rfl⟩ := h
  rw [List.drop_append_of_le_length (by omega), List.take_append_of_le_length (by rw [List.length_drop]; omega)]

/-- The group of a packed value behind the values packed before it. -/
theorem take_drop_packedBits (packed after : List (Nat × Nat)) (w v : Nat) (pad : Bits) :
    ((packedBits (packed ++ (w, v) :: after) ++ pad).drop (packed.map Prod.fst).sum).take w = bitsOf w v := by
  rw [packedBits_append, packedBits_cons, List.append_assoc, List.append_assoc,
    List.drop_left' (packedBits_length packed), List.take_left' (bitsOf_length w v)]

/-- Settles O18: `execAll_upOps` says what the last pop finds queued, and the packed value it stands for is
the group of bits at that place. -/
theorem unpackingLaw : Obligations.UnpackingLaw := by
  intro s t ops w hempty _ _ hw h ht
  obtain ⟨u, hu, hget⟩ := execAll_append_next.mp h
  obtain ⟨hfound, hpop⟩ := exec_upGet_completed (execAll_singleton_next.mp hget) ht
  obtain ⟨hle, hq⟩ := execAll_upOps hu (by simpa [hpop] using ht)
  rw [hempty, List.nil_append] at hle hq
  have hresp : t.dec.resp.toNat = valOf (((pushedBits ops).drop (poppedLength ops)).take w) := by
    rw [hpop, ← hq]
    exact resp_toNat_of_take hw _
  have hleft : t.dec.upq = (pushedBits ops).drop (poppedLength ops + w) := by
    rw [hpop, hq, List.drop_drop]
  refine ⟨hresp, hleft, ?_⟩
  intro packed after v pad _ hv hwidths hprefix
  have hplace : poppedLength ops = (packed.map Prod.fst).sum :=
    (poppedLength_eq_sum_widths ops).trans (congrArg List.sum hwidths)
  refine ⟨?_, fun _ hall => ?_⟩
  · rw [hq, List.length_drop] at hfound
    rw [hresp, take_drop_of_prefix (p := pushedBits ops) hprefix (by omega), hplace]
    exact (congrArg valOf (take_drop_packedBits packed after w v pad)).trans (valOf_bitsOf w v hv)
  · rw [hleft, hplace]
    refine (congrArg (List.drop _) hall).trans (List.drop_left' ?_)
    exact (packedBits_length (packed ++ [(w, v)])).trans (by simp)

end Sys2Proof.Proofs
end
section
/-!
PROOFS. The family `42_encoder.md`: the session commands ENC_BYTE and ENC_END, the session of one byte, and how
a session over any input ends.
-/

namespace Sys2Proof.Proofs
open Sys2Proof.Machine

/-! ## Commands that need a session, by phase (R242) -/

section
variable {body : EncSide → Cmd EncSide} {s t : State}

theorem runEnc_active_ok {e : EncSide} (hp : s.enc.phase = .active) (hb : body s.enc = .ok e) :
    runEnc .active body s = .next { s with enc := e } :=
  runEnc_ok (by rw [hp, gate_active_active]) hb

theorem runEnc_active_error {x : ErrCode} (hp : s.enc.phase = .active) (hb : body s.enc = .error (.error x)) :
    runEnc .active body s = .next { s with enc := { s.enc with phase := .failed, err := some x } } :=
  runEnc_error (by rw [hp, gate_active_active]) hb

theorem runEnc_active_idle (hp : s.enc.phase = .idle) :
    runEnc .active body s = .next { s with enc := { s.enc with phase := .failed, err := some .notActive } } :=
  runEnc_refused (by rw [hp, gate_active_idle])

theorem runEnc_active_failed (hp : s.enc.phase = .failed) : runEnc .active body s = .next s :=
  runEnc_ignored (by rw [hp, gate_active_failed])

theorem gate_active_refused {p : Phase} {x : ErrCode} (h : gate .active p = .refused x) : x = .notActive := by
  cases p <;> simp at h
  exact h.symm

/-- An error other than NOT_ACTIVE that the pseudocode does not raise is not newly recorded. -/
theorem runEnc_active_err_ne {x : ErrCode} (h : runEnc .active body s = .next t) (hx : x ≠ .notActive)
    (hok : ∀ e, body s.enc = .ok e → e.err = s.enc.err) (hraise : body s.enc ≠ .error (.error x))
    (hs : s.enc.err ≠ some x) : t.enc.err ≠ some x := by
  rcases runEnc_next h with ⟨-, rfl⟩ | ⟨y, rfl, hy | ⟨-, hy⟩⟩ | ⟨-, e, he, rfl⟩
  · exact hs
  · simpa [gate_active_refused hy] using hx.symm
  · rintro ⟨⟩
    exact hraise hy
  · rwa [hok e he]
end

/-! ## ENC_BYTE and ENC_END under the laws (R182, R183) -/

section
variable {mw c : Nat} {b : Byte} {e : EncSide}

theorem encByteBody_first (hc : e.cur = none) : encByteBody mw b e = .ok { e with cur := some b.toNat } := by
  simpa [hc] using encByteBody_cases mw b e

theorem encByteBody_hit {n : Nat} (hc : e.cur = some c) (hn : child e.trie (.code c) b = some n) :
    encByteBody mw b e = .ok { e with cur := some n } := by
  simpa [hc, hn] using encByteBody_cases mw b e

theorem encByteBody_capacity (hc : e.cur = some c) (hn : child e.trie (.code c) b = none) (hw : mw < e.width) :
    encByteBody mw b e = .error (.error .capacity) := by
  simpa [hc, hn, hw, Nat.not_le.mpr hw] using encByteBody_cases mw b e

theorem encEndBody_empty (hc : e.cur = none) : encEndBody mw e = .error (.error .emptyInput) := by
  simpa [hc] using encEndBody_cases mw e

theorem encEndBody_capacity (hc : e.cur = some c) (hw : mw < e.width) :
    encEndBody mw e = .error (.error .capacity) := by
  simpa [hc, hw, Nat.not_le.mpr hw] using encEndBody_cases mw e

variable (h : EncLaws mw e)
include h

theorem encLaws_encByteBody_miss (hc : e.cur = some c) (hn : child e.trie (.code c) b = none)
    (hw : e.width ≤ mw) : ∃ q out, Drained (e.pkq ++ bitsOf e.width c) e.out q out ∧
      encByteBody mw b e = .ok { e with
        pkq := q, out := out, trie := setChild e.trie c b e.next, next := e.next + 1,
        cur := some b.toNat, width := encGrownWidth (e.next + 1) e.width } := by
  have hfit := h.cur_fits hc
  simpa [hc, hn, hw, hfit, Nat.not_lt.mpr hw, Nat.not_le.mpr hfit] using encByteBody_cases mw b e

theorem encLaws_encEndBody_packs (hc : e.cur = some c) (hw : e.width ≤ mw) : ∃ ys : Seq,
    ys.flatMap byteBits = e.pkq ++ bitsOf e.width c ++
      List.replicate ((8 - (e.pkq.length + e.width) % 8) % 8) false ∧
    encEndBody mw e = .ok { e with pkq := [], out := e.out ++ ys, cur := none, phase := .idle } := by
  have hfit := h.cur_fits hc
  simpa [hc, hw, hfit, Nat.not_lt.mpr hw, Nat.not_le.mpr hfit] using encEndBody_cases mw e

/-- R186: the candidate's code fits, so packing it raises no WIDTH_OVERFLOW. -/
theorem encLaws_encByteBody_ne_widthOverflow : encByteBody mw b e ≠ .error (.error .widthOverflow) := by
  rcases encByteBody_cases mw b e with ⟨-, he⟩ | ⟨c, n, -, -, he⟩ |
    ⟨c, hc, -, ⟨-, he⟩ | ⟨-, hv, -⟩ | ⟨-, -, q, out, -, he⟩⟩
  · simp [he]
  · simp [he]
  · simp [he]
  · exact absurd (h.cur_fits hc) (Nat.not_lt.mpr hv)
  · simp [he]

theorem encLaws_encEndBody_ne_widthOverflow : encEndBody mw e ≠ .error (.error .widthOverflow) := by
  rcases encEndBody_cases mw e with ⟨-, he⟩ | ⟨c, hc, ⟨-, he⟩ | ⟨-, hv, -⟩ | ⟨-, -, ys, -, he⟩⟩
  · simp [he]
  · simp [he]
  · exact absurd (h.cur_fits hc) (Nat.not_lt.mpr hv)
  · simp [he]

/-- R65: where no code is left to pack at a width in range, the dictionary is full. -/
theorem encLaws_next_full (hw : mw < e.width) : e.next = 2 ^ mw := by
  have hwidth : e.width = mw + 1 := le_antisymm h.width_range.2 hw
  have hlow := h.width_law.1
  rw [hwidth, Nat.add_sub_cancel] at hlow
  exact le_antisymm h.next_range.2 hlow
end

/-- Settles O20: one lemma of ENC_BYTE's pseudocode for each case of an open session, and the gate in IDLE. -/
theorem encByteExtendsTheCandidate : Obligations.EncByteExtendsTheCandidate := by
  refine fun s b h => ⟨fun hp hc => ?_, fun c n hp hc hn => ?_, fun c hp hc hn hw => ?_,
    fun c hp hc hn hw => ?_, fun hp => ?_⟩
  · exact runEnc_active_ok hp (encByteBody_first hc)
  · exact runEnc_active_ok hp (encByteBody_hit hc hn)
  · obtain ⟨q, out, hd, hb⟩ := encLaws_encByteBody_miss h hc hn hw
    exact ⟨q, out, setChild s.enc.trie c b s.enc.next, hd, child_setChild_self _ _ _ _,
      fun c' b' hne => child_setChild_of_ne _ _ hne, runEnc_active_ok hp hb⟩
  · exact runEnc_active_error hp (encByteBody_capacity hc hn hw)
  · exact runEnc_active_idle hp

/-- Settles O21, likewise by ENC_END's pseudocode. -/
theorem encEndPacksAndFlushes : Obligations.EncEndPacksAndFlushes := by
  refine fun s h => ⟨fun c hp hc hw => ?_, fun hp hc => ?_, fun c hp hc hw => ?_, fun hp => ?_⟩
  · obtain ⟨ys, hbits, hb⟩ := encLaws_encEndBody_packs h hc hw
    exact ⟨ys, hbits, runEnc_active_ok hp hb⟩
  · exact runEnc_active_error hp (encEndBody_empty hc)
  · exact runEnc_active_error hp (encEndBody_capacity hc hw)
  · exact runEnc_active_idle hp

/-! ## Errors of a session (R186, R247) -/

theorem encCommand_err {mw : Nat} {i : Instr} {n : Needs} {body : EncSide → Cmd EncSide} {e e' : EncSide}
    (hi : encCommand mw i = some (n, body)) (hb : body e = .ok e') (hne : i ≠ .encInit) : e'.err = e.err := by
  rcases encCommand_ok hi hb with ⟨hi, -⟩ | ⟨b, -, -, rfl⟩ | ⟨b, c, k, -, -, -, rfl⟩ |
    ⟨b, c, q, ys, -, -, -, -, -, rfl⟩ | ⟨c, ys, -, -, rfl⟩ | ⟨q, ys, -, rfl⟩
  · exact absurd hi hne
  all_goals rfl

/-- Settles O22: the candidate is below E.NEXT, which is below 2^E.WIDTH. -/
theorem encoderCodesFitTheirWidth : Obligations.EncoderCodesFitTheirWidth := by
  refine fun s h => ⟨fun c hc => ?_, fun i t hi hs ht => ?_⟩
  · have hlt := h.cur_known c hc
    have hlaw := h.width_law.2
    omega
  · rcases hi with rfl | ⟨b, rfl⟩
    · exact runEnc_active_err_ne ht nofun (fun e he => encCommand_err (i := .encEnd) rfl he nofun)
        (encLaws_encEndBody_ne_widthOverflow h) hs
    · exact runEnc_active_err_ne ht nofun (fun e he => encCommand_err (i := .encByte b) rfl he nofun)
        (encLaws_encByteBody_ne_widthOverflow h) hs

/-! ## The session of one byte (R190) -/

/-- A byte as a 9-bit code with seven zero bits behind it: both sides are 16 bits of value 128 times the byte. -/
theorem byteBits_of_nine_bit_code (b : Byte) :
    [b >>> 1, (b &&& 1#8) <<< 7].flatMap byteBits = bitsOf 9 b.toNat ++ List.replicate 7 false := by
  have hb := b.isLt
  have hlow : ((b &&& 1#8) <<< 7).toNat = b.toNat % 2 * 128 := by
    rw [BitVec.toNat_shiftLeft, BitVec.toNat_and, BitVec.toNat_one (by decide), Nat.and_one_is_mod,
      Nat.shiftLeft_eq]
    omega
  have hhigh : (b >>> 1).toNat = b.toNat / 2 := by
    rw [BitVec.toNat_ushiftRight, Nat.shiftRight_eq_div_pow, Nat.pow_one]
  have hzero : valOf (List.replicate 7 false) = 0 := rfl
  refine valOf_injective (by simp) ?_
  rw [List.flatMap_cons, List.flatMap_singleton, valOf_append, valOf_append, byteBits, byteBits,
    valOf_bitsOf _ _ (BitVec.isLt _), valOf_bitsOf _ _ (BitVec.isLt _), valOf_bitsOf _ _ (by omega), hlow, hhigh,
    hzero, bitsOf_length, List.length_replicate]
  omega

/-- Settles O23: after the seed the byte becomes the candidate, and ENC_END packs it at width 9 into an empty
queue. -/
theorem oneByteSessionDeliversOneCode : Obligations.OneByteSessionDeliversOneCode := by
  intro s b hmw
  have hcand : EncLaws s.maxWidth { seedEnc .active s.enc with cur := some b.toNat } :=
    encLaws_candidate (encLaws_seed hmw (by decide) s.enc) rfl b.isLt
  obtain ⟨ys, hbits, hbody⟩ := encLaws_encEndBody_packs hcand rfl hmw
  have hinit : exec .encInit s = .next { s with enc := seedEnc .active s.enc } := rfl
  have hbyte : exec (.encByte b) { s with enc := seedEnc .active s.enc } =
      .next { s with enc := { seedEnc .active s.enc with cur := some b.toNat } } :=
    (exec_encByte _ b).trans (runEnc_active_ok rfl (encByteBody_first rfl))
  have hend : exec .encEnd { s with enc := { seedEnc .active s.enc with cur := some b.toNat } } = .next _ :=
    (exec_encEnd _).trans (runEnc_active_ok rfl hbody)
  have hys : ys = [b >>> 1, (b &&& 1#8) <<< 7] := by
    apply flatMap_byteBits_injective
    rw [byteBits_of_nine_bit_code]
    simpa using hbits
  refine ⟨_, execAll_cons_next.mpr ⟨_, hinit, execAll_cons_next.mpr ⟨_, hbyte,
    execAll_singleton_next.mpr hend⟩⟩, ⟨rfl, rfl⟩, ?_, rfl⟩
  rw [hys, seedEnc_out]

/-! ## A session over any input (R189) -/

/-- The session is open and has a code to pack. -/
def HoldsCandidate (s : State) : Prop := s.enc.phase = .active ∧ s.enc.cur ≠ none

/-- The session has failed with CAPACITY, its dictionary full. -/
def FailedFull (s : State) : Prop :=
  s.enc.phase = .failed ∧ s.enc.err = some .capacity ∧ s.enc.next = 2 ^ s.maxWidth

theorem exec_inv {i : Instr} {s t : State} (h : Inv s) (ht : exec i s = .next t) : Inv t := by
  obtain ⟨t', ht', hinv⟩ := exec_next_inv i h
  cases ht.symm.trans ht'
  exact hinv

theorem execAll_maxWidth {is : List Instr} {s t : State} (ht : execAll is s = .next t) :
    t.maxWidth = s.maxWidth := by
  induction is generalizing s with
  | nil => cases ht; rfl
  | cons i is ih =>
    obtain ⟨u, hu, ht⟩ := execAll_cons_next.mp ht
    exact (ih ht).trans (exec_maxWidth hu)

/-- An ENC_BYTE in an open session leaves it with a candidate, or fails because the dictionary is full. -/
theorem exec_encByte_active {b : Byte} {s t : State} (h : Inv s) (hp : s.enc.phase = .active)
    (ht : exec (.encByte b) s = .next t) : HoldsCandidate t ∨ FailedFull t := by
  obtain ⟨hfirst, hhit, hmiss, hfull, -⟩ := encByteExtendsTheCandidate s b h.enc
  rcases hc : s.enc.cur with _ | c
  · cases ht.symm.trans (hfirst hp hc)
    exact .inl ⟨hp, nofun⟩
  · rcases hn : child s.enc.trie (.code c) b with _ | n
    · rcases Nat.lt_or_ge s.maxWidth s.enc.width with hw | hw
      · have hnext := encLaws_next_full h.enc hw
        cases ht.symm.trans (hfull c hp hc hn hw)
        exact .inr ⟨rfl, rfl, hnext⟩
      · obtain ⟨q, out, tr, -, -, -, he⟩ := hmiss c hp hc hn hw
        cases ht.symm.trans he
        exact .inl ⟨hp, nofun⟩
    · cases ht.symm.trans (hhit c n hp hc hn)
      exact .inl ⟨hp, nofun⟩

/-- Further bytes keep a session in one of the two states; a FAILED side ignores them. -/
theorem execAll_encByte {x : Seq} {s t : State} (h : Inv s) (hs : HoldsCandidate s ∨ FailedFull s)
    (ht : execAll (x.map .encByte) s = .next t) : Inv t ∧ (HoldsCandidate t ∨ FailedFull t) := by
  induction x generalizing s with
  | nil => cases ht; exact ⟨h, hs⟩
  | cons b x ih =>
    obtain ⟨u, hu, ht⟩ := execAll_cons_next.mp ht
    refine ih (exec_inv h hu) ?_ ht
    rcases hs with ⟨hp, -⟩ | hfull
    · exact exec_encByte_active h hp hu
    · cases hu.symm.trans (runEnc_active_failed hfull.1)
      exact .inr hfull

/-- ENC_END with a candidate succeeds with E.NEXT below 2^MAX_WIDTH, or fails because the dictionary is full. -/
theorem exec_encEnd_candidate {s t : State} (h : Inv s) (hs : HoldsCandidate s) (ht : exec .encEnd s = .next t) :
    (encodeSucceeded t ∧ t.enc.next < 2 ^ t.maxWidth) ∨ FailedFull t := by
  obtain ⟨hp, hcur⟩ := hs
  obtain ⟨c, hc⟩ := Option.ne_none_iff_exists'.mp hcur
  obtain ⟨hpack, -, hfull, -⟩ := encEndPacksAndFlushes s h.enc
  rcases Nat.lt_or_ge s.maxWidth s.enc.width with hw | hw
  · have hnext := encLaws_next_full h.enc hw
    cases ht.symm.trans (hfull c hp hc hw)
    exact .inr ⟨rfl, rfl, hnext⟩
  · obtain ⟨ys, -, he⟩ := hpack c hp hc hw
    cases ht.symm.trans he
    have hnext : s.enc.next < 2 ^ s.maxWidth :=
      h.enc.width_law.2.trans_le (Nat.pow_le_pow_right (by decide) hw)
    exact .inl ⟨⟨rfl, h.enc.err_none (by simp [hp])⟩, hnext⟩

/-- Settles O51: after the first byte the session holds a candidate or has failed full (`execAll_encByte`), and
ENC_END ends it from either. -/
theorem encodeSessionFailsOnlyForCapacity : Obligations.EncodeSessionFailsOnlyForCapacity := by
  intro x s t h hx ht
  obtain ⟨b, x, rfl⟩ := List.exists_cons_of_ne_nil hx
  rw [← execAll_maxWidth ht]
  obtain ⟨u, hu, ht⟩ := execAll_cons_next.mp ht
  obtain ⟨v, hv, ht⟩ := execAll_cons_next.mp ht
  obtain ⟨w, hw, ht⟩ := execAll_append_next.mp ht
  rw [execAll_singleton_next] at ht
  have hopen : u.enc.phase = .active := by cases hu; rfl
  have hinv := exec_inv h hu
  obtain ⟨hinvw, hcand | hfull⟩ := execAll_encByte (exec_inv hinv hv) (exec_encByte_active hinv hopen hv) hw
  · refine (exec_encEnd_candidate hinvw hcand ht).imp_left fun ⟨hok, hnext⟩ => ⟨hok, ?_⟩
    have hlow := (exec_inv hinvw ht).enc.next_range.1
    omega
  · cases ht.symm.trans (runEnc_active_failed hfull.1)
    exact .inr hfull

end Sys2Proof.Proofs
end
section
/-!
PROOFS. The family `43_decoder.md`, first part: DEC_CODE, DEC_BYTE and DEC_END, the codes a session accepts, and
the one code a byte decodes at most.
-/

namespace Sys2Proof.Proofs
open Sys2Proof.Machine

/-! ## Commands that need a session, by phase (R242) -/

section
variable {body : DecSide → Cmd DecSide} {s : State}

theorem runDec_active_ok {d : DecSide} (hp : s.dec.phase = .active) (hb : body s.dec = .ok d) :
    runDec .active body s = .next { s with dec := d } :=
  runDec_ok (by rw [hp, gate_active_active]) hb

theorem runDec_active_error {x : ErrCode} (hp : s.dec.phase = .active) (hb : body s.dec = .error (.error x)) :
    runDec .active body s = .next { s with dec := { s.dec with phase := .failed, err := some x } } :=
  runDec_error (by rw [hp, gate_active_active]) hb

theorem runDec_active_idle (hp : s.dec.phase = .idle) :
    runDec .active body s = .next { s with dec := { s.dec with phase := .failed, err := some .notActive } } :=
  runDec_refused (by rw [hp, gate_active_idle])

/-- A command that leaves no error in an open session has run its pseudocode. -/
theorem runDec_active_completed {t : State} (h : runDec .active body s = .next t) (hp : s.dec.phase = .active)
    (ht : t.dec.err = none) : ∃ d, body s.dec = .ok d ∧ t = { s with dec := d } := by
  rcases runDec_next h with ⟨hg, -⟩ | ⟨x, rfl, -⟩ | ⟨-, hb⟩
  · simp [hp] at hg
  · cases ht
  · exact hb
end

/-! ## DEC_END (R215) -/

section
variable {d : DecSide}

theorem decEndBody_closes (hs : d.seen = true) (hq : d.upq.length ≤ 7) :
    decEndBody d = .ok { d with upq := [], phase := .idle } := by
  simp [decEndBody, hs, show ¬ 8 ≤ d.upq.length by omega]

theorem decEndBody_truncated (hs : d.seen = true) (hq : 8 ≤ d.upq.length) :
    decEndBody d = .error (.error .truncated) := by
  simp [decEndBody, hs, hq, raise]

theorem decEndBody_empty (hs : d.seen = false) : decEndBody d = .error (.error .emptyInput) := by
  simp [decEndBody, hs, raise]
end

/-- Settles O27: one lemma of DEC_END's pseudocode for each case of an open session, and the gate in IDLE. -/
theorem decEndClosesTheSession : Obligations.DecEndClosesTheSession :=
  fun _ => ⟨fun hp hs hq => runDec_active_ok hp (decEndBody_closes hs hq),
    fun hp hs hq => runDec_active_error hp (decEndBody_truncated hs hq),
    fun hp hs => runDec_active_error hp (decEndBody_empty hs), runDec_active_idle⟩

/-! ## DEC_CODE under the laws (R211, R214) -/

section
variable {mw c : Nat} {d : DecSide} (h : DecLaws mw d)
include h

/-- R41: an entry is learned only after a code has been decoded. -/
theorem decLaws_size_first (hp : d.prev = none) : d.size = 256 :=
  le_antisymm (Nat.not_lt.mp fun hs => h.prev_set hs hp) h.size_range.1

/-- The laws once D.SEEN is set, whatever is queued. -/
theorem decLaws_seen {q : Bits} (hq : q.length ≤ 32) : DecLaws mw { d with upq := q, seen := true } :=
  h.with_queue hq d.resp d.out

theorem decLaws_decodeCode_first (hc : c < d.size) (hp : d.prev = none) : ∃ sq, tableAt d.table c = some sq ∧
    decodeCode c { d with seen := true } = .ok { d with seen := true, out := d.out ++ sq, prev := some c } := by
  obtain ⟨f, rest, ht⟩ := h.entry hc
  refine ⟨f :: rest, ht, (decodeCode_first (d := { d with seen := true }) hc hp ht).trans ?_⟩
  simp only [emitted, decGrownWidth_same h.width_law.2]

theorem decLaws_decodeCode_present {p : Nat} (hc : c < d.size) (hp : d.prev = some p) : ∃ sp f rest,
    tableAt d.table p = some sp ∧ tableAt d.table c = some (f :: rest) ∧
    decodeCode c { d with seen := true } = .ok (learned { d with seen := true } c (f :: rest) (sp ++ [f])) := by
  obtain ⟨f, rest, ht⟩ := h.entry hc
  obtain ⟨f', rest', hs⟩ := h.entry (h.prev_known p hp)
  exact ⟨f' :: rest', f, rest, hs, ht, decodeCode_present (d := { d with seen := true }) hc hp ht rfl hs⟩

theorem decLaws_decodeCode_symmetric {p : Nat} (hp : d.prev = some p) : ∃ f rest,
    tableAt d.table p = some (f :: rest) ∧
    decodeCode d.size { d with seen := true } =
      .ok (learned { d with seen := true } d.size (f :: rest ++ [f]) (f :: rest ++ [f])) := by
  obtain ⟨f, rest, hs⟩ := h.entry (h.prev_known p hp)
  exact ⟨f, rest, hs, decodeCode_symmetric (d := { d with seen := true }) hp hs rfl⟩

/-- R216: a code below D.SIZE is accepted, and D.SIZE once a code was decoded; any other raises FORMAT. -/
theorem decLaws_decodeCode_accepts (c : Nat) :
    ((c < d.size ∨ (c = d.size ∧ d.prev ≠ none)) ∧ ∃ d', decodeCode c d = .ok d') ∨
    ((d.size < c ∨ (d.size = c ∧ d.prev = none)) ∧ decodeCode c d = .error (.error .format)) := by
  rcases h.decodeCode c with ⟨f, rest, hc, -, -, he⟩ | ⟨p, sp, f, rest, hc, -, -, -, -, -, he⟩ |
    ⟨p, f, rest, hc, hp, -, -, he⟩ | hformat
  · exact .inl ⟨.inl hc, _, he⟩
  · exact .inl ⟨.inl hc, _, he⟩
  · exact .inl ⟨.inr ⟨hc, by simp [hp]⟩, _, he⟩
  · exact .inr hformat
end

/-- Settles O25: one lemma of the decoding for each accepted code, the error lemmas of R211 and R214, and the
gate in IDLE. -/
theorem decCodeDecodesOneCode : Obligations.DecCodeDecodesOneCode := by
  refine fun s c h => ⟨fun ha hw hc hp => ?_, fun p ha hw hc hp => ?_, fun p ha hw hc hp => ?_,
    fun ha hw hc => ?_, fun ha hw => ?_, fun hidle => ?_⟩
  · obtain ⟨sq, ht, he⟩ := decLaws_decodeCode_first h hc hp
    exact ⟨sq, ht, runDec_active_ok ha ((decCodeBody_fits hw).trans he)⟩
  · obtain ⟨sp, f, rest, hs, ht, he⟩ := decLaws_decodeCode_present h hc hp
    exact ⟨sp, f, rest, _, hs, ht, tableAt_setTable_self _ _ _ h.size_range.1,
      fun k hk => tableAt_setTable_of_ne _ _ hk, runDec_active_ok ha ((decCodeBody_fits hw).trans he)⟩
  · subst hc
    obtain ⟨f, rest, hs, he⟩ := decLaws_decodeCode_symmetric h hp
    exact ⟨f, rest, _, hs, tableAt_setTable_self _ _ _ h.size_range.1,
      fun k hk => tableAt_setTable_of_ne _ _ hk, runDec_active_ok ha ((decCodeBody_fits hw).trans he)⟩
  · exact runDec_active_error ha ((decCodeBody_fits hw).trans (decodeCode_format hc))
  · exact runDec_active_error ha (decCodeBody_capacity hw)
  · exact runDec_active_idle hidle

/-- Settles O28, from the two outcomes of a decoding: with no code before, D.SIZE is 256, and the all-ones code
is above D.SIZE by the width law. -/
theorem validCodesAreThoseUpToTheTableSize : Obligations.ValidCodesAreThoseUpToTheTableSize := by
  intro s t c h ha hw ht
  have h256 := h.size_range.1
  have hlaw := h.width_law.2
  rcases decLaws_decodeCode_accepts (decLaws_seen h h.queue_short) c with ⟨hc, d', he⟩ | ⟨hc, he⟩
  · cases ht.symm.trans (runDec_active_ok ha ((decCodeBody_fits hw).trans he))
    have herr : d'.err = none := (decodeCode_decoded he).err.trans (h.err_none (by simp [ha]))
    have hle : c ≤ s.dec.size := hc.elim le_of_lt fun hc => hc.1.le
    refine ⟨⟨fun _ => ?_, fun _ => herr⟩, fun hones => by omega⟩
    by_cases hp : s.dec.prev = none
    · have hsize : s.dec.size = 256 := decLaws_size_first h hp
      exact .inl ((hc.resolve_right fun hc => hc.2 hp).trans_eq hsize)
    · exact .inr ⟨hle, hp⟩
  · cases ht.symm.trans (runDec_active_error ha ((decCodeBody_fits hw).trans he))
    have hge : s.dec.size ≤ c := hc.elim le_of_lt fun hc => hc.1.le
    refine ⟨⟨nofun, fun hvalid => ?_⟩, fun _ => rfl⟩
    rcases hvalid with hb | ⟨hle, hp⟩
    · omega
    · exact absurd (hc.resolve_left hle.not_gt).2 hp

/-! ## DEC_BYTE, pass by pass (R213) -/

/-- DEC_BYTE's first pass: its byte queued, the code at the front is decoded on the rest of the queue. -/
def firstPass (b : Byte) (d : DecSide) : Cmd DecSide := decodeCode (frontCode (pushed b d)) (withoutFront (pushed b d))

section
variable {mw : Nat} {d : DecSide}

theorem decodeQueued_decodes {fuel : Nat} {d' : DecSide} (hq : d.width ≤ d.upq.length) (hw : d.width ≤ mw)
    (he : decodeCode (frontCode d) (withoutFront d) = .ok d') :
    decodeQueued mw (fuel + 1) d = decodeQueued mw fuel d' := by
  rw [decodeQueued_pass hq hw, he]

theorem decodeQueued_raises {fuel : Nat} {x : Stop} (hq : d.width ≤ d.upq.length) (hw : d.width ≤ mw)
    (he : decodeCode (frontCode d) (withoutFront d) = .error x) : decodeQueued mw (fuel + 1) d = .error x := by
  rw [decodeQueued_pass hq hw, he]

variable {b : Byte}

theorem pushed_complete (hq : d.width ≤ d.upq.length + 8) : (pushed b d).width ≤ (pushed b d).upq.length := by
  simpa using hq

theorem decByteBody_waits (hq : d.upq.length + 8 < d.width) (h24 : d.upq.length ≤ 24) :
    decByteBody mw b d = .ok (pushed b d) := by
  rw [decByteBody_push b h24, decodeQueued_stops (by simpa using hq)]

theorem decByteBody_capacity (h24 : d.upq.length ≤ 24) (hq : d.width ≤ d.upq.length + 8) (hw : mw < d.width) :
    decByteBody mw b d = .error (.error .capacity) :=
  (decByteBody_push b h24).trans (decodeQueued_capacity (pushed_complete hq) hw)

theorem decByteBody_raises {x : Stop} (h24 : d.upq.length ≤ 24) (hq : d.width ≤ d.upq.length + 8)
    (hw : d.width ≤ mw) (he : firstPass b d = .error x) : decByteBody mw b d = .error x :=
  (decByteBody_push b h24).trans (decodeQueued_raises (pushed_complete hq) hw he)

theorem decByteBody_decodes {d' : DecSide} (h24 : d.upq.length ≤ 24) (hq : d.width ≤ d.upq.length + 8)
    (hw : d.width ≤ mw) (he : firstPass b d = .ok d') :
    decByteBody mw b d = decodeQueued mw (d.upq.length + 8) d' :=
  (decByteBody_push b h24).trans (decodeQueued_decodes (pushed_complete hq) hw he)

/-- R213 against R214: the first pass is DEC_CODE of the queued code, on the rest of the queue. -/
theorem decCodeBody_front (hw : d.width ≤ mw) :
    decCodeBody mw (frontCode (pushed b d)) { d with upq := (d.upq ++ byteBits b).drop d.width } =
      firstPass b d :=
  decCodeBody_fits (d := { d with upq := (d.upq ++ byteBits b).drop d.width }) hw

/-- The queue and the width after the first pass. -/
theorem firstPass_queue {d' : DecSide} (he : firstPass b d = .ok d') :
    d'.upq = (d.upq ++ byteBits b).drop d.width ∧ d.width ≤ d'.width :=
  decodeCode_queue he

/-- While a further code is complete after the first pass, the byte just pushed is still queued, and DEC_BYTE
answers what it would answer had the first code been decoded before the byte came. -/
theorem decByteBody_continues {d' : DecSide} (h24 : d.upq.length ≤ 24) (h9 : 9 ≤ d.width)
    (hq : d.width ≤ d.upq.length + 8) (hw : d.width ≤ mw) (he : firstPass b d = .ok d')
    (hlong : d'.width ≤ d'.upq.length) :
    decByteBody mw b { d' with upq := d'.upq.take (d'.upq.length - 8) } = decByteBody mw b d := by
  obtain ⟨hrest, hgrow⟩ := firstPass_queue he
  have hlen : d'.upq.length = d.upq.length + 8 - d.width := by simp [hrest]
  have hsplit : d'.upq = d.upq.drop d.width ++ byteBits b := by
    rw [hrest, List.drop_append_of_le_length (by omega)]
  have htake : d'.upq.take (d'.upq.length - 8) = d.upq.drop d.width := by simp [hsplit]
  have hseen : d'.seen = true := (decodeCode_decoded he).seen
  have hpush : pushed b { d' with upq := d.upq.drop d.width } = d' := by
    simp only [pushed, ← hsplit, ← hseen]
  have hdrop : (d.upq.drop d.width).length = d.upq.length - d.width := List.length_drop
  rw [decByteBody_decodes h24 hq hw he, htake, decByteBody_push b (by dsimp only; omega), hpush]
  exact decodeQueued_fuel mw _ _ d' (by omega) (by dsimp only; omega) (by omega)
end

section
variable {mw : Nat} {d : DecSide} (h : DecLaws mw d) (b : Byte)
include h

/-- Under the laws the first pass decodes its code or raises FORMAT. -/
theorem decLaws_firstPass (h24 : d.upq.length ≤ 24) :
    (∃ d', firstPass b d = .ok d') ∨ firstPass b d = .error (.error .format) := by
  have hrest : ((d.upq ++ byteBits b).drop d.width).length ≤ 32 := by
    rw [List.length_drop, List.length_append, byteBits_length]
    omega
  exact (decLaws_decodeCode_accepts (decLaws_seen h hrest) _).imp And.right And.right

/-- Under the laws DEC_BYTE's pseudocode ends with ERR kept, or with an error of LZWC. -/
theorem decLaws_decByteBody_ok_or_raises :
    (∃ d', decByteBody mw b d = .ok d' ∧ d'.err = d.err) ∨ ∃ x, decByteBody mw b d = .error (.error x) := by
  by_cases h24 : d.upq.length ≤ 24
  · rw [decByteBody_push b h24]
    refine ((h.pushed b h24).decodeQueued _ rfl (by simp)).imp_left ?_
    exact fun ⟨d', he, _⟩ => ⟨d', he, (decodeQueued_decoded _ he).err⟩
  · exact .inr ⟨_, decByteBody_full b (Nat.not_le.mp h24)⟩
end

/-- Settles O26. The first pass is DEC_CODE's decoding (`decCodeBody_front`); the passes after it are what
DEC_BYTE does from there (`decByteBody_continues`). -/
theorem decByteDecodesEveryCompleteCode : Obligations.DecByteDecodesEveryCompleteCode := by
  intro s b hinv
  have h := hinv.dec
  have h9 := h.width_range.1
  have h16 := hinv.max_width_range.2
  have hmax := h.width_range.2
  refine ⟨fun ha hq => ?_, fun ha hq => ?_, fun ha h24 hq hw => ?_, fun ha h24 hq hw => ?_, fun hidle => ?_⟩
  · exact runDec_active_ok ha (decByteBody_waits hq (by omega))
  · exact runDec_active_error ha (decByteBody_full b hq)
  · exact runDec_active_error ha (decByteBody_capacity h24 hq hw)
  · rcases decLaws_firstPass h b h24 with ⟨d', he⟩ | he
    · have herr : d'.err = none := (decodeCode_decoded he).err.trans (h.err_none (by simp [ha]))
      have ha' : d'.phase = .active := (decodeCode_decoded he).phase.trans ha
      refine ⟨{ s with dec := d' }, runDec_active_ok ha ((decCodeBody_front hw).trans he), fun x hx => ?_,
        fun _ hshort => ?_, fun _ hlong => ?_⟩
      · cases herr.symm.trans hx
      · exact runDec_active_ok ha ((decByteBody_decodes h24 hq hw he).trans (decodeQueued_stops hshort))
      · have hcont := decByteBody_continues h24 h9 hq hw he hlong
        rcases decLaws_decByteBody_ok_or_raises h b with ⟨d'', hb, hx⟩ | ⟨x, hb⟩
        · refine ⟨{ s with dec := d'' }, runDec_active_ok ha' (hcont.trans hb), fun _ => runDec_active_ok ha hb,
            fun x hx' => ?_⟩
          cases (hx.trans (h.err_none (by simp [ha]))).symm.trans hx'
        · refine ⟨_, runDec_active_error ha' (hcont.trans hb), nofun, ?_⟩
          rintro _ ⟨⟩
          exact runDec_active_error ha hb
    · refine ⟨_, runDec_active_error ha ((decCodeBody_front hw).trans he), ?_, nofun, nofun⟩
      rintro _ ⟨⟩
      exact runDec_active_error ha (decByteBody_raises h24 hq hw he)
  · exact runDec_active_idle hidle

/-! ## One code per byte (R217) -/

section
variable {mw : Nat} {d d' : DecSide} {b : Byte}

/-- From a queue below D.WIDTH one pass leaves less than a byte, so it is the only one. -/
theorem decByteBody_decodes_one (hbelow : d.upq.length < d.width) (h9 : 9 ≤ d.width) (h24 : d.upq.length ≤ 24)
    (hq : d.width ≤ d.upq.length + 8) (hw : d.width ≤ mw) (he : firstPass b d = .ok d') :
    decByteBody mw b d = .ok d' ∧ d'.upq.length < 8 ∧ 9 ≤ d'.width := by
  obtain ⟨hrest, hgrow⟩ := firstPass_queue he
  have hlen : d'.upq.length = d.upq.length + 8 - d.width := by simp [hrest]
  exact ⟨(decByteBody_decodes h24 hq hw he).trans (decodeQueued_stops (by omega)), by omega, by omega⟩

/-- Everything a DEC_BYTE that succeeds does to a queue below D.WIDTH: it waits, or decodes one code. -/
theorem decByteBody_ok_cases (hbelow : d.upq.length < d.width) (h9 : 9 ≤ d.width)
    (hb : decByteBody mw b d = .ok d') :
    (d.upq.length + 8 < d.width ∧ d' = pushed b d) ∨
    (d.width ≤ mw ∧ firstPass b d = .ok d' ∧ d'.upq.length < 8 ∧ 9 ≤ d'.width) := by
  rcases Nat.lt_or_ge 24 d.upq.length with h24 | h24
  · rw [decByteBody_full b h24] at hb
    cases hb
  rcases Nat.lt_or_ge (d.upq.length + 8) d.width with hq | hq
  · exact .inl ⟨hq, Except.ok.inj (hb.symm.trans (decByteBody_waits hq h24))⟩
  rcases Nat.lt_or_ge mw d.width with hw | hw
  · rw [decByteBody_capacity h24 hq hw] at hb
    cases hb
  rcases he : firstPass b d with x | d1
  · rw [decByteBody_raises h24 hq hw he] at hb
    cases hb
  · obtain ⟨hone, hlt, h9'⟩ := decByteBody_decodes_one hbelow h9 h24 hq hw he
    cases hb.symm.trans hone
    exact .inr ⟨hw, rfl, hlt, h9'⟩
end

/-- Settles O29: DEC_CODE leaves the queue alone and never lowers D.WIDTH, and DEC_BYTE waits or decodes one code
(`decByteBody_ok_cases`). -/
theorem oneCodePerByteAtMost : Obligations.OneCodePerByteAtMost := by
  intro s t h
  have h9 := h.width_range.1
  refine ⟨fun ht => ?_, fun c ha hbelow ht herr => ?_, fun b ha hbelow ht herr => ?_⟩
  · cases ht
    exact Nat.zero_lt_succ 8
  · obtain ⟨d', hb, rfl⟩ := runDec_active_completed ht ha herr
    rcases Nat.lt_or_ge s.maxWidth s.dec.width with hw | hw
    · cases hb.symm.trans (decCodeBody_capacity hw)
    · obtain ⟨hqueue, hgrow⟩ := decodeCode_queue ((decCodeBody_fits hw).symm.trans hb)
      exact (congrArg List.length hqueue).trans_lt (lt_of_lt_of_le hbelow hgrow)
  · obtain ⟨d', hb, rfl⟩ := runDec_active_completed ht ha herr
    rcases decByteBody_ok_cases hbelow h9 hb with ⟨hq, rfl⟩ | ⟨hw, he, hlt, h9'⟩
    · exact ⟨by simpa [QueueBelowWidth] using hq, .inl rfl⟩
    · exact ⟨by dsimp only [QueueBelowWidth]; omega,
        .inr ⟨runDec_active_ok ha ((decCodeBody_front hw).trans he), hlt⟩⟩

end Sys2Proof.Proofs
end
section
/-!
PROOFS. The family `43_decoder.md`, second part: the round trip of R219. The decoder tracks the encoder code by
code (its table lags one entry behind the trie until the next code comes), and DEC_BYTE takes exactly the packed
codes off the bytes.
-/

namespace Sys2Proof.Proofs
open Sys2Proof.Machine

/-! ## Decoding a list of codes -/

/-- Decoding codes one after another, each at the width the table then has; a pair is a width and a code, as in
`packedBits`. -/
inductive DecodesCodes (mw : Nat) : List (Nat × Nat) → DecSide → DecSide → Prop
  | nil (d : DecSide) : DecodesCodes mw [] d d
  | cons {c : Nat} {ws : List (Nat × Nat)} {d d' d'' : DecSide} (hw : d.width ≤ mw) (hfit : c < 2 ^ d.width)
      (hc : decodeCode c d = .ok d') (hrest : DecodesCodes mw ws d' d'') :
      DecodesCodes mw ((d.width, c) :: ws) d d''

section
variable {mw : Nat} {ws ws' : List (Nat × Nat)} {d d' d'' : DecSide}

theorem DecodesCodes.append (h : DecodesCodes mw ws d d') (h' : DecodesCodes mw ws' d' d'') :
    DecodesCodes mw (ws ++ ws') d d'' := by
  induction h with
  | nil => exact h'
  | cons hw hfit hc _ ih => exact .cons hw hfit hc (ih h')

theorem DecodesCodes.single {c : Nat} (hw : d.width ≤ mw) (hfit : c < 2 ^ d.width)
    (hc : decodeCode c d = .ok d') : DecodesCodes mw [(d.width, c)] d d' :=
  .cons hw hfit hc (.nil d')

theorem DecodesCodes.decoded (h : DecodesCodes mw ws d d') : Decoded d d' := by
  induction h with
  | nil d => exact .refl d
  | cons _ _ hc _ ih => exact (decodeCode_decoded hc).trans ih
end

/-- The side with another queue and SEEN bit, which decoding a code neither reads nor writes. -/
def received (q : Bits) (z : Bool) (d : DecSide) : DecSide := { d with upq := q, seen := z }

theorem decodeCode_received {c : Nat} {d d' : DecSide} (h : decodeCode c d = .ok d') (q : Bits) (z : Bool) :
    decodeCode c (received q z d) = .ok (received q z d') := by
  rcases decodeCode_cases c d with ⟨sq, hc, hp, ht, he⟩ | ⟨p, sp, sq, f, hc, hp, hs, ht, hf, he⟩ |
    ⟨p, sp, f, rfl, hp, hs, hf, he⟩ | ⟨-, he⟩ | he <;> cases h.symm.trans he
  · exact decodeCode_first (d := received q z d) hc hp ht
  · exact decodeCode_present (d := received q z d) hc hp ht hf hs
  · exact decodeCode_symmetric (d := received q z d) hp hs hf

/-! ## DEC_BYTE over a packed stream -/

/-- A queue and further bits that carry packed values give the first value and leave the others. -/
theorem front_of_packed {q r rest : Bits} {w c : Nat} (hq : w ≤ q.length) (h : q ++ r = bitsOf w c ++ rest) :
    q.take w = bitsOf w c ∧ q.drop w ++ r = rest := by
  constructor
  · rw [← List.take_append_of_le_length hq, h, List.take_left' (bitsOf_length w c)]
  · rw [← List.drop_append_of_le_length hq, h, List.drop_left' (bitsOf_length w c)]

theorem execAll_inv {is : List Instr} {s t : State} (h : Inv s) (ht : execAll is s = .next t) : Inv t := by
  induction is generalizing s with
  | nil => cases ht; exact h
  | cons i is ih =>
    obtain ⟨u, hu, ht⟩ := execAll_cons_next.mp ht
    exact ih (exec_inv h hu) ht

/-- One byte of a packed stream (`r` is what comes after it): it waits, or completes the next code and leaves less
than a byte. The stream of the remaining codes is left either way. -/
theorem decByteBody_packed {mw : Nat} {ws : List (Nat × Nat)} {b : Byte} {q r pad : Bits} {d d' : DecSide}
    (h9 : 9 ≤ d.width) (h16 : mw ≤ 16) (hbelow : q.length < d.width)
    (hbits : q ++ byteBits b ++ r = packedBits ws ++ pad) (hpad : pad.length ≤ 7) (z : Bool)
    (hd : DecodesCodes mw ws d d') :
    ∃ ws' q' d1, decByteBody mw b (received q z d) = .ok (received q' true d1) ∧ d1.phase = d.phase ∧
      q'.length < d1.width ∧ q' ++ r = packedBits ws' ++ pad ∧ DecodesCodes mw ws' d1 d' := by
  cases hd with
  | nil =>
    have hlen := congrArg List.length hbits
    simp only [packedBits_nil, List.nil_append, List.length_append, byteBits_length] at hlen
    omega
  | @cons c ws _ d1 _ hw hfit hc hrest =>
    have h24 : q.length ≤ 24 := by omega
    rcases Nat.lt_or_ge (q.length + 8) d.width with hq | hq
    · exact ⟨_, q ++ byteBits b, d, decByteBody_waits hq h24, rfl, by simpa using hq, hbits,
        .cons hw hfit hc hrest⟩
    · rw [packedBits_cons, List.append_assoc (bitsOf _ _)] at hbits
      obtain ⟨hfront, hleft⟩ := front_of_packed (by simpa using hq) hbits
      have hval : frontCode (pushed b (received q z d)) = c :=
        (congrArg valOf hfront).trans (valOf_bitsOf _ _ hfit)
      have hcode : firstPass b (received q z d) = .ok (received ((q ++ byteBits b).drop d.width) true d1) := by
        rw [firstPass, hval]
        exact decodeCode_received hc _ _
      obtain ⟨hb, hlt, h9'⟩ := decByteBody_decodes_one (d := received q z d) hbelow h9 h24 hq hw hcode
      exact ⟨ws, _, d1, hb, (decodeCode_decoded hc).phase, lt_of_lt_of_le hlt (le_of_lt h9'), hleft, hrest⟩

/-- R213 over bytes that carry packed codes and at most 7 bits of padding: the codes are decoded and the padding
is left. -/
theorem execAll_decByte_packed {s : State} {ws : List (Nat × Nat)} {y : Seq} {q pad : Bits} {z : Bool}
    {d d' : DecSide} (hinv : Inv { s with dec := received q z d }) (ha : d.phase = .active)
    (hbelow : q.length < d.width) (hbits : q ++ y.flatMap byteBits = packedBits ws ++ pad)
    (hpad : pad.length ≤ 7) (hd : DecodesCodes s.maxWidth ws d d') :
    ∃ z', execAll (y.map .decByte) { s with dec := received q z d } =
      .next { s with dec := received pad z' d' } := by
  induction y generalizing ws q z d with
  | nil =>
    rw [List.flatMap_nil, List.append_nil] at hbits
    cases hd with
    | nil => exact ⟨z, by rw [hbits]; rfl⟩
    | cons =>
      have hlen := congrArg List.length hbits
      simp only [packedBits_cons, List.length_append, bitsOf_length] at hlen
      omega
  | cons b y ih =>
    rw [List.flatMap_cons, ← List.append_assoc] at hbits
    obtain ⟨ws', q', d1, hb, hphase, hbelow', hbits', hd'⟩ :=
      decByteBody_packed (d := d) hinv.dec.width_range.1 hinv.max_width_range.2 hbelow hbits hpad z hd
    have hbyte : exec (.decByte b) { s with dec := received q z d } =
        .next { s with dec := received q' true d1 } := (exec_decByte _ b).trans (runDec_active_ok ha hb)
    obtain ⟨z', hy⟩ := ih (exec_inv hinv hbyte) (hphase.trans ha) hbelow' hbits' hd'
    exact ⟨z', execAll_cons_next.mpr ⟨_, hbyte, hy⟩⟩

/-! ## The decoder's table and the encoder's trie (R68) -/

/-- R219: the table holds the paths of the trie's codes, all of them. -/
structure Mirrors (e : EncSide) (d : DecSide) : Prop where
  size : d.size = e.next
  table : ∀ k, k < d.size → tableAt d.table k = path e.trie k

/-- The decoder has decoded every code the encoder has packed; the encoder holds the candidate `c` with path
`sq`. After the first code the table lacks the newest code, whose path is the previous code's with the first
byte of the candidate's (R211). -/
structure Tracks (e : EncSide) (d : DecSide) (c : Nat) (sq : Seq) : Prop where
  cur : e.cur = some c
  path_cur : path e.trie c = some sq
  width : d.width = e.width
  size_ge : 256 ≤ d.size
  table : ∀ k, k < d.size → tableAt d.table k = path e.trie k
  next_first : d.prev = none → e.next = d.size
  next_later : ∀ p, d.prev = some p → e.next = d.size + 1 ∧ p < d.size ∧ ∃ sp f,
    path e.trie p = some sp ∧ sq.head? = some f ∧ path e.trie d.size = some (sp ++ [f])

/-- R184 against R212: with the decoder's table one entry behind, both widths grow at the same codes. -/
theorem decGrownWidth_eq_encGrownWidth (n w : Nat) : decGrownWidth n w = encGrownWidth (n + 1) w := by
  have : 0 < 2 ^ w := by positivity
  exact if_congr (by omega) rfl rfl

section
variable {mw : Nat} {e : EncSide}

/-- Both sides start at the seeds; the first byte is the candidate. -/
theorem tracks_seed (e : EncSide) (r : Word) (d : DecSide) (b : Byte) :
    Tracks { seedEnc .active e with cur := some b.toNat } (seedDec .active r d) b.toNat [b] where
  cur := rfl
  path_cur := by simp [path_byte _ b.isLt]
  width := rfl
  size_ge := le_rfl
  table := fun k (hk : k < 256) => by
    rw [path_byte _ hk]
    exact if_pos hk
  next_first := fun _ => rfl
  next_later := nofun

variable (h : EncLaws mw e) {c : Nat} {sq : Seq} {d : DecSide}
include h

/-- R36: a child's path extends its parent's by the byte, because a code is the child of one pair only. -/
theorem encLaws_path_child {n : Nat} {b : Byte} (hn : child e.trie (.code c) b = some n)
    (hsq : path e.trie c = some sq) : path e.trie n = some (sq ++ [b]) := by
  obtain ⟨h256, hlt, -⟩ := h.child_codes hn
  obtain ⟨p, b', hk, -, hpath⟩ := encLaws_path_learned h h256 hlt
  have hm := (natMapGet_eq_some_iff _ h.trie_canonical _ _).mp hn
  have hm' := (natMapGet_eq_some_iff _ h.trie_canonical _ _).mp hk
  have hkey := congrArg Prod.fst (List.inj_on_of_nodup_map h.trie_injective hm hm' rfl)
  obtain ⟨rfl, rfl⟩ := childKey_inj hkey
  rw [hpath, hsq, Option.map_some]

/-- The walk over a known child: the candidate grows by one byte, and its first byte stays. -/
theorem tracks_hit (ht : Tracks e d c sq) {n : Nat} {b : Byte} (hn : child e.trie (.code c) b = some n) :
    Tracks { e with cur := some n } d n (sq ++ [b]) :=
  { ht with
    cur := rfl
    path_cur := encLaws_path_child h hn ht.path_cur
    next_later := fun p hp => by
      obtain ⟨hnext, hlt, sp, f, hsp, hf, hnew⟩ := ht.next_later p hp
      exact ⟨hnext, hlt, sp, f, hsp, by simp [hf], hnew⟩ }

/-- R211: decoding the candidate's code emits its path and, after the first code, appends the entry the table
lacks: the code is an old one, or the newest, and then the previous code's path begins its own. -/
theorem tracks_decodeCode (ht : Tracks e d c sq) : ∃ d', decodeCode c d = .ok d' ∧ Mirrors e d' ∧
    d'.prev = some c ∧ d'.out = d.out ++ sq ∧ d'.width = decGrownWidth e.next d.width := by
  have hc := h.cur_known c ht.cur
  rcases hp : d.prev with _ | p
  · have hnext := ht.next_first hp
    have hlt : c < d.size := by omega
    exact ⟨emitted d c sq, decodeCode_first hlt hp ((ht.table c hlt).trans ht.path_cur),
      ⟨hnext.symm, ht.table⟩, rfl, rfl, by rw [hnext]; rfl⟩
  · obtain ⟨hnext, hlt, sp, f, hsp, hf, hnew⟩ := ht.next_later p hp
    have hs : tableAt d.table p = some sp := (ht.table p hlt).trans hsp
    have hdec : decodeCode c d = .ok (learned d c sq (sp ++ [f])) := by
      rcases Nat.lt_or_ge c d.size with hold | hge
      · exact decodeCode_present hold hp ((ht.table c hold).trans ht.path_cur) hf hs
      · obtain rfl : c = d.size := by omega
        obtain rfl : sq = sp ++ [f] := Option.some.inj (ht.path_cur.symm.trans hnew)
        have hne : sp ≠ [] := encLaws_path_ne_nil h (by omega) hsp
        exact decodeCode_symmetric hp hs (by rwa [List.head?_append_of_ne_nil _ hne] at hf)
    refine ⟨_, hdec, ⟨hnext.symm, fun k hk => ?_⟩, rfl, rfl, by rw [hnext]; rfl⟩
    rcases Nat.lt_succ_iff_lt_or_eq.mp hk with hk | rfl
    · exact (tableAt_setTable_of_ne _ _ hk.ne).trans (ht.table k hk)
    · exact (tableAt_setTable_self _ _ _ ht.size_ge).trans hnew.symm

/-- R182: the insertion after a packed code makes the newest code, which the table of a decoder that has decoded
the code now lacks. -/
theorem tracks_inserted {b : Byte} (hm : Mirrors e d) (hprev : d.prev = some c) (hcur : e.cur = some c)
    (hsq : path e.trie c = some sq) (hn : child e.trie (.code c) b = none)
    (hw : d.width = encGrownWidth (e.next + 1) e.width) (q : Bits) (o : Seq) :
    Tracks { e with
      pkq := q, out := o, trie := setChild e.trie c b e.next, next := e.next + 1,
      cur := some b.toNat, width := encGrownWidth (e.next + 1) e.width } d b.toNat [b] where
  cur := rfl
  path_cur := by simp [path_byte _ b.isLt]
  width := hw
  size_ge := hm.size ▸ h.next_range.1
  table := fun k hk => (hm.table k hk).trans (encLaws_path_insert h hn (hm.size ▸ hk)).symm
  next_first := fun hp => nomatch hprev.symm.trans hp
  next_later := fun p hp => by
    cases hprev.symm.trans hp
    have hc := h.cur_known c hcur
    refine ⟨congrArg (· + 1) hm.size.symm, hm.size ▸ hc, sq, b, ?_, rfl, ?_⟩
    · exact (encLaws_path_insert h hn hc).trans hsq
    · rw [hm.size]
      exact encLaws_path_inserted h hn hc hsq
end

/-! ## The encode session, tracked by the decoder -/

/-- What the encoder packs from `e` to `e'` are codes that take the decoder from `d` to `d'`. -/
def Transfers (mw : Nat) (e : EncSide) (d : DecSide) (e' : EncSide) (d' : DecSide) : Prop :=
  ∃ ws, Drained (e.pkq ++ packedBits ws) e.out e'.pkq e'.out ∧ DecodesCodes mw ws d d'

section
variable {mw : Nat} {e e' e'' : EncSide} {d d' d'' : DecSide}

/-- Nothing packed, nothing decoded. -/
theorem transfers_nothing (hq : e.pkq.length ≤ 7) (hpk : e'.pkq = e.pkq) (ho : e'.out = e.out) :
    Transfers mw e d e' d :=
  ⟨[], ⟨by rwa [hpk], [], by simp [ho], by simp [hpk]⟩, .nil d⟩

theorem Transfers.trans (h : Transfers mw e d e' d') (h' : Transfers mw e' d' e'' d'') :
    Transfers mw e d e'' d'' := by
  obtain ⟨ws, hb, hd⟩ := h
  obtain ⟨ws', hb', hd'⟩ := h'
  exact ⟨ws ++ ws', by simpa using drained_trans hb hb', hd.append hd'⟩

/-- One ENC_BYTE, by the branches of R182: nothing is packed while the candidate has the child, and on a miss the
decoder decodes the packed code. -/
theorem tracks_encByteBody (h : EncLaws mw e) {c : Nat} {sq : Seq} {b : Byte} (ht : Tracks e d c sq)
    (hb : encByteBody mw b e = .ok e') : ∃ d' c' sq', Transfers mw e d e' d' ∧ Tracks e' d' c' sq' ∧
      d'.out ++ sq' = d.out ++ sq ++ [b] := by
  rcases encByteBody_cases mw b e with ⟨hc, -⟩ | ⟨c', n, hc, hn, he⟩ |
    ⟨c', hc, hn, ⟨-, he⟩ | ⟨-, -, he⟩ | ⟨hw, hfit, q, out, hdr, he⟩⟩
  · cases ht.cur.symm.trans hc
  all_goals
    cases ht.cur.symm.trans hc
    cases hb.symm.trans he
  · exact ⟨d, n, sq ++ [b], transfers_nothing h.queue_short rfl rfl, tracks_hit h ht hn, by simp⟩
  · obtain ⟨d', hdec, hm, hprev, hout, hwidth⟩ := tracks_decodeCode h ht
    rw [ht.width, decGrownWidth_eq_encGrownWidth] at hwidth
    refine ⟨d', b.toNat, [b], ⟨[(d.width, c)], ?_, .single ?_ ?_ hdec⟩,
      tracks_inserted h hm hprev hc ht.path_cur hn hwidth q out, by rw [hout]⟩
    · simpa [ht.width] using hdr
    · rwa [ht.width]
    · rwa [ht.width]
end

/-- A run of ENC_BYTEs that does not fail. By induction from the last byte, because only the last phase is known
not to be FAILED. -/
theorem execAll_encByte_tracks {x : Seq} {s t : State} (h : Inv s) (hrun : execAll (x.map .encByte) s = .next t)
    (hok : t.enc.phase ≠ .failed) {d : DecSide} {c : Nat} {sq : Seq} (ht : Tracks s.enc d c sq) :
    ∃ d' c' sq', Transfers s.maxWidth s.enc d t.enc d' ∧ Tracks t.enc d' c' sq' ∧
      d'.out ++ sq' = d.out ++ sq ++ x := by
  induction x using List.reverseRecOn generalizing t with
  | nil =>
    cases hrun
    exact ⟨d, c, sq, transfers_nothing h.enc.queue_short rfl rfl, ht, by simp⟩
  | append_singleton x b ih =>
    rw [List.map_append, execAll_append_next] at hrun
    obtain ⟨u, hu, hbyte⟩ := hrun
    rw [List.map_singleton, execAll_singleton_next] at hbyte
    have hu_ok : u.enc.phase ≠ .failed := by
      intro hf
      cases hbyte.symm.trans (runEnc_active_failed hf)
      exact hok hf
    obtain ⟨d1, c1, sq1, htr, ht1, hout1⟩ := ih hu hu_ok
    rcases exec_enc hbyte with ⟨hs, -⟩ | ⟨-, -, y, hy⟩ | ⟨n, body, hi, hb⟩
    · cases hs
    · exact absurd (by rw [hy]) hok
    · cases hi
      rw [execAll_maxWidth hu] at hb
      obtain ⟨d2, c2, sq2, htr', ht2, hout2⟩ :=
        tracks_encByteBody (execAll_maxWidth hu ▸ (execAll_inv h hu).enc) ht1 hb
      exact ⟨d2, c2, sq2, htr.trans htr', ht2, by rw [hout2, hout1, List.append_assoc _ x]⟩

/-- ENC_END packs the candidate's code and at most 7 bits of padding; with that code the table catches up. -/
theorem tracks_encEndBody {mw : Nat} {e e' : EncSide} (h : EncLaws mw e) {d : DecSide} {c : Nat} {sq : Seq}
    (ht : Tracks e d c sq) (hb : encEndBody mw e = .ok e') : ∃ ys pad d',
      e'.out = e.out ++ ys ∧ ys.flatMap byteBits = e.pkq ++ packedBits [(d.width, c)] ++ pad ∧ pad.length ≤ 7 ∧
      DecodesCodes mw [(d.width, c)] d d' ∧ Mirrors e' d' ∧ d'.prev = some c ∧ d'.out = d.out ++ sq := by
  obtain ⟨d', hdec, hm, hprev, hout, -⟩ := tracks_decodeCode h ht
  rcases encEndBody_cases mw e with ⟨hc, -⟩ | ⟨c', hc, ⟨-, he⟩ | ⟨-, -, he⟩ | ⟨hw, hfit, ys, hbits, he⟩⟩
  · cases ht.cur.symm.trans hc
  all_goals
    cases ht.cur.symm.trans hc
    cases hb.symm.trans he
  refine ⟨ys, List.replicate ((8 - (e.pkq.length + e.width) % 8) % 8) false, d', rfl, ?_, ?_,
    .single ?_ ?_ hdec, ⟨hm.size, hm.table⟩, hprev, hout⟩
  · simpa [ht.width] using hbits
  · rw [List.length_replicate]
    omega
  · rwa [ht.width]
  · rwa [ht.width]

/-- The state after ENC_INIT and the first byte of a session. -/
def encStarted (b : Byte) (s : State) : State :=
  { s with enc := { seedEnc .active s.enc with cur := some b.toNat } }

theorem encStarted_inv {s : State} (h : Inv s) (b : Byte) : Inv (encStarted b s) :=
  { h with enc := encLaws_candidate (encLaws_seed h.max_width_range.1 (by decide) s.enc) rfl b.isLt }

theorem execAll_encodeSession_cons {b : Byte} {x : Seq} {s t : State}
    (h : execAll (encodeSession (b :: x)) s = .next t) :
    ∃ v, execAll (x.map .encByte) (encStarted b s) = .next v ∧ exec .encEnd v = .next t := by
  obtain ⟨s1, hinit, h⟩ := execAll_cons_next.mp h
  obtain ⟨s2, hbyte, h⟩ := execAll_cons_next.mp h
  obtain ⟨v, hv, hend⟩ := execAll_append_next.mp h
  cases hinit
  have hfirst : exec (.encByte b) { s with enc := seedEnc .active s.enc } = .next (encStarted b s) :=
    (exec_encByte _ b).trans (runEnc_active_ok rfl (encByteBody_first rfl))
  cases hbyte.symm.trans hfirst
  exact ⟨v, hv, execAll_singleton_next.mp hend⟩

/-- An ENC_END after which the session has succeeded has run its pseudocode in an open session. -/
theorem exec_encEnd_succeeded {s t : State} (h : exec .encEnd s = .next t) (hok : encodeSucceeded t) :
    s.enc.phase ≠ .failed ∧ encEndBody s.maxWidth s.enc = .ok t.enc := by
  rcases runEnc_next h with ⟨hg, rfl⟩ | ⟨x, rfl, -⟩ | ⟨hg, e, hb, rfl⟩
  · simp [hok.1] at hg
  · cases hok.1
  · exact ⟨by simp [phase_active_of_gate hg], hb⟩

/-- R219, encode side: what a successful session delivers is packed codes and padding, and those codes take a
seeded decoder to the encoder's dictionary and emit the input. -/
theorem execAll_encodeSession_transfers {x : Seq} {s t : State} (h : Inv s) (hx : x ≠ [])
    (hrun : execAll (encodeSession x) s = .next t) (hok : encodeSucceeded t) (r : Word) (d : DecSide) :
    ∃ y ws pad d', t.enc.out = s.enc.out ++ y ∧ y.flatMap byteBits = packedBits ws ++ pad ∧ pad.length ≤ 7 ∧
      DecodesCodes s.maxWidth ws (seedDec .active r d) d' ∧ Mirrors t.enc d' ∧ d'.prev ≠ none ∧
      d'.out = d.out ++ x := by
  obtain ⟨b, x, rfl⟩ := List.exists_cons_of_ne_nil hx
  obtain ⟨v, hbytes, hend⟩ := execAll_encodeSession_cons hrun
  obtain ⟨hv, hb⟩ := exec_encEnd_succeeded hend hok
  obtain ⟨d1, c, sq, ⟨ws, ⟨-, ys, hout, hbits⟩, hd⟩, ht, hemit⟩ :=
    execAll_encByte_tracks (encStarted_inv h b) hbytes hv (tracks_seed s.enc r d b)
  obtain ⟨zs, pad, d', hout', hbits', hpad, hd', hm, hprev, hemit'⟩ :=
    tracks_encEndBody (execAll_inv (encStarted_inv h b) hbytes).enc ht hb
  rw [execAll_maxWidth hbytes] at hd'
  refine ⟨ys ++ zs, _, pad, d', ?_, ?_, hpad, hd.append hd', hm, by simp [hprev], ?_⟩
  · rw [hout', hout, List.append_assoc]
    rfl
  · rw [List.flatMap_append, hbits', packedBits_append, ← List.append_assoc, ← List.append_assoc, hbits]
    rfl
  · rw [hemit', hemit, List.append_assoc]
    rfl

/-! ## The decode session -/

/-- R275 over packed codes: the session ends with the codes decoded and the padding discarded. -/
theorem execAll_decodeSession_packed {t : State} (h : Inv t) {y : Seq} {ws : List (Nat × Nat)} {pad : Bits}
    {d : DecSide} (hbits : y.flatMap byteBits = packedBits ws ++ pad) (hpad : pad.length ≤ 7)
    (hd : DecodesCodes t.maxWidth ws (seedDec .active t.dec.resp t.dec) d) (hprev : d.prev ≠ none) :
    execAll (decodeSession y) t =
      .next { t with dec := { d with upq := [], seen := true, phase := .idle } } := by
  have hinit : exec .decInit t = .next { t with dec := received [] false (seedDec .active t.dec.resp t.dec) } := rfl
  have hinv := exec_inv h hinit
  obtain ⟨z, hbytes⟩ := execAll_decByte_packed hinv rfl (by simp) (by simpa using hbits) hpad hd
  have hseen : z = true := (execAll_inv hinv hbytes).dec.prev_seen hprev
  subst hseen
  have hend := (decEndClosesTheSession { t with dec := received pad true d }).1 hd.decoded.phase rfl hpad
  exact execAll_cons_next.mpr ⟨_, hinit, execAll_append_next.mpr ⟨_, hbytes, execAll_singleton_next.mpr hend⟩⟩

/-- Settles O52: the encode session packs codes that a seeded decoder decodes to the input and to the encoder's
dictionary (`execAll_encodeSession_transfers`), and the decode session decodes exactly those codes. -/
theorem roundTrip : Obligations.RoundTrip := by
  intro x s t h hx hrun hok
  have hinv := execAll_inv h hrun
  obtain ⟨y, ws, pad, d, hout, hbits, hpad, hd, hm, hprev, hemit⟩ :=
    execAll_encodeSession_transfers h hx hrun hok t.dec.resp t.dec
  rw [← execAll_maxWidth hrun] at hd
  exact ⟨y, hout, _, execAll_decodeSession_packed hinv hbits hpad hd hprev, ⟨rfl, hd.decoded.err⟩, hemit, hm.size,
    hm.table⟩

end Sys2Proof.Proofs
end
section
/-!
PROOFS. The family `60_exceptions.md`: entering FAILED, staying there and leaving it. Each is one lemma about a word
and a side (`phaseOf`, `takeError`, `sideInit`), and each statement reads it for both sides.
-/

namespace Sys2Proof.Proofs
open Sys2Proof.Machine

/-- The command that opens a session of a side: the only one a FAILED side heeds (R244). -/
def sideInit : Side → Instr
  | .encode => .encInit
  | .decode => .decInit

section
variable {side : Side} {s t : State} {cw : Word} {i : Instr}

/-! ## Words of the other side -/

/-- A word moves no phase but its own side's. -/
theorem phaseOf_of_issue_ne (h : issue cw s = .next t) (hs : sideOfWord cw ≠ side) :
    phaseOf side t = phaseOf side s := by
  rw [← phaseOf_withSide side t s, issue_frame h, withSide_of_ne hs, withSide_self]

/-! ## Entering FAILED (R243) -/

section
variable {mw : Nat} {n : Needs}

/-- Pseudocode that ends without an error does not write the phase FAILED. -/
theorem encCommand_phase_ne_failed {body : EncSide → Cmd EncSide} {e e' : EncSide}
    (hi : encCommand mw i = some (n, body)) (hb : body e = .ok e') (hp : e.phase ≠ .failed) :
    e'.phase ≠ .failed := by
  rcases encCommand_ok hi hb with ⟨-, rfl⟩ | ⟨b, -, -, rfl⟩ | ⟨b, c, k, -, -, -, rfl⟩ |
    ⟨b, c, q, ys, -, -, -, -, -, rfl⟩ | ⟨c, ys, -, -, rfl⟩ | ⟨q, ys, -, rfl⟩
  · exact nofun
  · exact hp
  · exact hp
  · exact hp
  · exact nofun
  · exact hp

/-- The decode side's likewise. -/
theorem decCommand_phase_ne_failed {body : DecSide → Cmd DecSide} {d d' : DecSide}
    (hi : decCommand mw i = some (n, body)) (hb : body d = .ok d') (hp : d.phase ≠ .failed) :
    d'.phase ≠ .failed := by
  rcases decCommand_ok hi hb with ⟨-, rfl⟩ | ⟨q, -, hd⟩ | ⟨-, rfl⟩ | ⟨b, -, rfl⟩ | ⟨w, -, rfl⟩
  · exact nofun
  · rwa [hd.phase]
  · exact nofun
  · exact hp
  · exact hp
end

/-- A command that takes its side into FAILED has taken an error and done nothing else. -/
theorem exec_enters_failed (h : exec i s = .next t) (hs : phaseOf i.side s ≠ .failed)
    (ht : phaseOf i.side t = .failed) : ∃ x, t = takeError i.side x s := by
  rcases exec_cases h with ⟨rfl, -⟩ | ⟨hi, -, -, x, rfl⟩ | ⟨hi, -, -, x, rfl⟩ |
    ⟨hi, -, n, body, e, hc, hb, rfl⟩ | ⟨hi, -, n, body, d, hc, hb, rfl⟩
  · exact absurd ht hs
  · exact ⟨x, by rw [hi, takeError_encode]⟩
  · exact ⟨x, by rw [hi, takeError_decode]⟩
  · rw [hi] at hs ht
    exact absurd ht (encCommand_phase_ne_failed hc hb hs)
  · rw [hi] at hs ht
    exact absurd ht (decCommand_phase_ne_failed hc hb hs)

/-- R243 for every word, legal or not. -/
theorem issue_enters_failed (h : issue cw s = .next t) (hs : phaseOf side s ≠ .failed)
    (ht : phaseOf side t = .failed) : ∃ x, t = takeError side x s := by
  by_cases hside : sideOfWord cw = side
  · subst hside
    rcases issue_cases h with ⟨i, -, hi, he⟩ | ⟨-, ⟨rfl, -⟩ | ⟨rfl, -⟩⟩
    · rw [hi] at hs ht ⊢
      exact exec_enters_failed he hs ht
    · exact absurd ht hs
    · exact ⟨.illegal, rfl⟩
  · exact absurd ((phaseOf_of_issue_ne h hside).symm.trans ht) hs

/-! ## Staying FAILED (R244) -/

/-- The gate of every command but the INITs ignores a FAILED side. -/
theorem exec_failed (hp : phaseOf i.side s = .failed) (hi : i ≠ sideInit i.side) : exec i s = .next s := by
  cases i
  case encInit => exact absurd rfl hi
  case decInit => exact absurd rfl hi
  case encByte | encEnd => exact runEnc_ignored (congrArg (gate .active) hp)
  case pkPut => exact runEnc_ignored (congrArg (gate .idleOrActive) hp)
  case pkFlush => exact (exec_pkFlush s).trans (runEnc_ignored (congrArg (gate .idleOrActive) hp))
  case decByte | decEnd | decCode => exact runDec_ignored (congrArg (gate .active) hp)
  case upPut | upGet => exact runDec_ignored (congrArg (gate .idleOrActive) hp)

/-- R244 for every word, legal or not. -/
theorem issue_failed (hp : phaseOf (sideOfWord cw) s = .failed) (hi : decode cw ≠ .ok (sideInit (sideOfWord cw))) :
    issue cw s = .next s := by
  by_cases hd : ∃ i, decode cw = .ok i
  · obtain ⟨i, hd⟩ := hd
    rw [sideOfWord_of_decode hd] at hp hi
    rw [issue_of_decode hd]
    exact exec_failed hp fun hi' => hi (hd.trans (congrArg _ hi'))
  · rw [issue_of_illegal (not_exists.mp hd)]
    exact execIllegal_failed hp

/-! ## Leaving FAILED (R245) -/

/-- A side as its INIT or reset leaves it: the seed in some phase, over some delivered bytes. -/
def Seeded (side : Side) (s : State) : Prop :=
  match side with
  | .encode => ∃ p e, s.enc = seedEnc p e
  | .decode => ∃ p r d, s.dec = seedDec p r d

theorem applyReset_seeded (side : Side) (s : State) : Seeded side (applyReset s) := by
  cases side
  · exact ⟨_, _, applyReset_enc s⟩
  · exact ⟨_, _, _, applyReset_dec s⟩

theorem exec_sideInit_seeded (h : exec (sideInit side) s = .next t) : Seeded side t := by
  cases side <;> cases h
  · exact ⟨_, _, rfl⟩
  · exact ⟨_, _, _, rfl⟩

/-- A word that takes a side out of FAILED is its INIT: every other one is ignored or the other side's. -/
theorem issue_leaves_failed (h : issue cw s = .next t) (hs : phaseOf side s = .failed)
    (ht : phaseOf side t ≠ .failed) : decode cw = .ok (sideInit side) ∧ Seeded side t := by
  by_cases hside : sideOfWord cw = side
  · subst hside
    by_cases hd : decode cw = .ok (sideInit (sideOfWord cw))
    · exact ⟨hd, exec_sideInit_seeded ((issue_of_decode hd s).symm.trans h)⟩
    · cases (issue_failed hs hd).symm.trans h
      exact absurd hs ht
  · exact absurd ((phaseOf_of_issue_ne h hside).trans hs) ht

/-- R245 for every step. -/
theorem step_leaves_failed (h : step s = .next t) (hs : phaseOf side s = .failed)
    (ht : phaseOf side t ≠ .failed) :
    ((∃ cw rest, s.port = .command cw :: rest ∧ decode cw = .ok (sideInit side)) ∨
      ∃ rest, s.port = .reset :: rest) ∧ Seeded side t := by
  rcases step_cases s with ⟨-, e⟩ | ⟨rest, hp, e⟩ | ⟨cw, rest, hp, e⟩
  · cases e.symm.trans h
    exact absurd hs ht
  · cases e.symm.trans h
    exact ⟨.inr ⟨rest, hp⟩, applyReset_seeded side _⟩
  · have hs' : phaseOf side { s with port := rest } = .failed := by cases side <;> exact hs
    obtain ⟨hd, hseed⟩ := issue_leaves_failed (e.symm.trans h) hs' ht
    exact ⟨.inl ⟨cw, rest, hp, hd⟩, hseed⟩
end

/-! ## The statements -/

/-- Settles O30: `issue_enters_failed` on either side. -/
theorem errorsAreAllOrNothing : Obligations.ErrorsAreAllOrNothing := fun _ _ _ h =>
  ⟨issue_enters_failed (side := .encode) h, issue_enters_failed (side := .decode) h⟩

/-- Settles O31: `issue_failed` on either side. -/
theorem failedSideIgnoresAllButInit : Obligations.FailedSideIgnoresAllButInit := by
  refine fun s cw => ⟨fun hs hp hi => issue_failed ?_ ?_, fun hs hp hi => issue_failed ?_ ?_⟩ <;> rw [hs]
  exacts [hp, hi, hp, hi]

/-- Settles O32: `step_leaves_failed` on either side, and the fields of the seed. -/
theorem onlyInitAndResetLeaveFailed : Obligations.OnlyInitAndResetLeaveFailed := by
  refine fun s t h => ⟨fun hs ht => ?_, fun hs ht => ?_⟩
  · obtain ⟨hcause, p, e, he⟩ := step_leaves_failed (side := .encode) h hs ht
    exact ⟨hcause, by simp [he]⟩
  · obtain ⟨hcause, p, r, d, hd⟩ := step_leaves_failed (side := .decode) h hs ht
    exact ⟨hcause, by simp +contextual [hd, tableAt_nil]⟩

/-- Settles O5: a step of an illegal word is `execIllegal` on the side of bit 31, by that side's phase. -/
theorem illegalWordIsChargedToItsSide : Obligations.IllegalWordIsChargedToItsSide := by
  intro s cw rest hport hill
  have hstep := (step_command hport).trans (issue_of_illegal hill _)
  have henc (hb : cw.getLsbD 31 = false) : sideOfWord cw = .encode := by rw [sideOfWord, hb]; rfl
  have hdec (hb : cw.getLsbD 31 = true) : sideOfWord cw = .decode := by rw [sideOfWord, hb]; rfl
  refine ⟨fun hb hp => ?_, fun hb hp => ?_, fun hb hp => ?_, fun hb hp => ?_⟩
  · rw [hstep, henc hb]
    exact execIllegal_raises hp
  · rw [hstep, hdec hb]
    exact execIllegal_raises hp
  · rw [hstep, henc hb]
    exact execIllegal_failed hp
  · rw [hstep, hdec hb]
    exact execIllegal_failed hp

end Sys2Proof.Proofs
end
section
/-!
PROOFS. The family `70_reset_and_hazards.md`: what reset leaves, that the invariants hold there, and which commands
run there.
-/

namespace Sys2Proof.Proofs
open Sys2Proof.Machine

/-! ## Reset values (R270) -/

/-- Settles O1: both sides and MAX_WIDTH are field values of `State.resetWith`; a dictionary with nothing learned
answers the seed alone. -/
theorem resetLeavesBothSidesSeededAndIdle : Obligations.ResetLeavesBothSidesSeededAndIdle := by
  refine fun mw => ⟨rfl, rfl, rfl, fun b => ⟨?_, ?_⟩, fun c b => ?_, fun c hc => ?_⟩
  · exact child_root _ b
  · exact tableAt_byte _ b
  · exact child_nil c b
  · exact tableAt_nil hc

/-- Settles O2: the step is `applyReset`, which seeds both sides and moves their output to `earlier`. -/
theorem resetInputRestoresResetValues : Obligations.ResetInputRestoresResetValues :=
  fun _ _ hport => step_reset hport

/-- Settles O33: each side after reset is its seed in phase IDLE, which has the side's laws. -/
theorem invHoldsAtReset : Obligations.InvHoldsAtReset := fun mw h9 h16 =>
  { max_width_range := ⟨h9, h16⟩
    enc := by
      rw [resetWith_enc, encReset_eq_seed]
      exact encLaws_seed h9 (by decide) _
    dec := by
      rw [resetWith_dec, decReset_eq_seed]
      exact decLaws_seed h9 (by decide) _ _ }

/-! ## Commands right after reset (R271) -/

theorem seedEnc_reset (p : Phase) : seedEnc p EncSide.reset = { EncSide.reset with phase := p } := rfl

theorem seedDec_reset (p : Phase) :
    seedDec p DecSide.reset.resp DecSide.reset = { DecSide.reset with phase := p } := rfl

section
variable (mw : Nat)

theorem exec_encInit_reset : exec .encInit (State.resetWith mw) = .next
    { State.resetWith mw with enc := { EncSide.reset with phase := .active } } :=
  (exec_encInit _).trans (runEnc_ok (gate_anyPhase _) (congrArg Except.ok (seedEnc_reset .active)))

theorem exec_decInit_reset : exec .decInit (State.resetWith mw) = .next
    { State.resetWith mw with dec := { DecSide.reset with phase := .active } } :=
  (exec_decInit _).trans (runDec_ok (gate_anyPhase _) (congrArg Except.ok (seedDec_reset .active)))

theorem encPhase_reset_ne_failed : (State.resetWith mw).enc.phase ≠ .failed := by
  rw [resetWith_enc]
  decide

theorem decPhase_reset_ne_failed : (State.resetWith mw).dec.phase ≠ .failed := by
  rw [resetWith_dec]
  decide
end

/-- Settles O3: the INITs only move the phase of a seeded side; the raw commands run in any phase but FAILED (O13 to
O16, with the queues empty); the others meet the gate of an IDLE side. -/
theorem afterResetOnlyRawCommandsAndInitsRun : Obligations.AfterResetOnlyRawCommandsAndInitsRun := by
  intro mw
  have henc := encPhase_reset_ne_failed mw
  have hdec := decPhase_reset_ne_failed mw
  refine ⟨exec_encInit_reset mw, exec_decInit_reset mw, fun w v hv => ?pkPut, ?pkFlush, fun b => ?upPut, ?upGet,
    ?encSession, ?decSession⟩
  case pkPut =>
    obtain ⟨q, out, -, ht⟩ := (pkPutPacksAValue (State.resetWith mw) w v).1 henc hv
    exact ⟨_, ht, rfl⟩
  case pkFlush => exact ⟨_, (pkFlushCompletesTheByte _ henc).1 rfl, rfl⟩
  case upPut => exact ⟨_, (upPutQueuesAByte _ b hdec).1 (Nat.zero_le _), rfl⟩
  case upGet =>
    obtain ⟨r, -, -, ht⟩ := (upGetDequeuesBits _ 0 hdec (by decide)).1 (Nat.zero_le _)
    exact ⟨_, ht, rfl⟩
  case encSession =>
    rintro i (⟨b, rfl⟩ | rfl)
    · exact (exec_encByte _ b).trans (runEnc_active_idle rfl)
    · exact (exec_encEnd _).trans (runEnc_active_idle rfl)
  case decSession =>
    rintro i (⟨b, rfl⟩ | rfl | ⟨c, rfl⟩)
    · exact (exec_decByte _ b).trans (runDec_active_idle rfl)
    · exact (exec_decEnd _).trans (runDec_active_idle rfl)
    · exact (exec_decCode _ c).trans (runDec_active_idle rfl)

end Sys2Proof.Proofs
end
